-- ==== Sys2Proof/Word.lean ====
section
/-! DEFINITION. The word types of HPE: 32-bit words and 8-bit symbols (R5, R6, R80). -/

namespace Sys2Proof

/-- A 32-bit register or descriptor field: JOBN, JOBSEQ, FAULT.INFO, BASE, COUNT (R28, R86). -/
abbrev Word := BitVec 32

/-- A symbol, "an unsigned integer 0..255 held in 8 bits" (R5, R80). -/
abbrev Symbol := BitVec 8

/-- The 96-bit command descriptor `D[95:0]` (R85). -/
abbrev Descriptor := BitVec 96

end Sys2Proof
end

