-- ==== Sys2Proof/Config.lean ====
section
/-! DEFINITION. The implementation parameters of R6 as a record, the constraints that R6 and R59 put on them, and the
free values (constants with no body) of what the spec leaves open. -/

namespace Sys2Proof

/-- The parameters of R6. `REC_W = CODE_W` always, so it is no field; `N_W` is fixed at 32 by the descriptor (R86). -/
structure Config where
  /-- `CNT_W`, the width of a HIST slot. -/
  cntW : Nat
  /-- `CODE_W`, the width of a CODE slot and, as `REC_W`, of an OUT slot. -/
  codeW : Nat
  /-- `LEN_W`, the width of a LEN slot. -/
  lenW : Nat
  /-- `CAP`, the number of slots of IN and of OUT. -/
  cap : Nat
  deriving DecidableEq, Repr

/-- `REC_W`, the width of an OUT slot: "`REC_W = CODE_W` always" (R6). -/
def Config.recW (c : Config) : Nat := c.codeW

/-- The constraints of R6 (`cap < 2^cntW` is `CAP <= 2^CNT_W - 1`). A configuration that breaks one "is ill-formed and
must be refused at configuration time" (R59; V6 of 93_implementation_defined.md). -/
def Config.wf (c : Config) : Bool :=
  decide (1 ≤ c.cntW) && decide (1 ≤ c.codeW) && decide (1 ≤ c.lenW) && decide (c.codeW < 2 ^ c.lenW) &&
  decide (c.cap ≤ 2 ^ 32 - 1) && decide (c.cap < 2 ^ c.cntW)

/-- The default widths of R6. R6 leaves `CAP` open: 16 is a DESIGN CHOICE (log entry 1), the value of the spec's own
vectors. Unsafe for a claim that rests on it; no statement does. -/
def Config.default : Config := { cntW := 32, codeW := 32, lenW := 8, cap := 16 }

/-- `ALPHA = 256`, the number of slots of HIST, CODE and LEN (R5). -/
def alpha : Nat := 256

/-- FREE VALUE: the Boolean draws of ENV once the listed draws are used up, "under no law" (R224, R225; log entry 2). -/
opaque Config.freeDraw : Nat → Bool

/-- FREE VALUE: the choices of the schedule once the listed choices are used up, "chosen by the schedule; every order is
allowed" (R60; log entry 3). -/
opaque Config.freeChoice : Nat → Nat

/-- FREE VALUE: the count an increment leaves when the sum does not fit `CNT_W` bits, which R59 says is unreachable and
forbids a model to fix by wrap-around or saturation (log entry 6). -/
opaque Config.freeCount : Nat → Nat

end Sys2Proof
end

