-- ==== Sys2Proof/Machine/Slots.lean ====
section
/-! DEFINITION. One slot-indexed buffer as a list of (slot index, value) pairs in canonical form: indices strictly rising,
a slot that is not listed holds no value (R21, R50, R51). HIST, whose slots "always hold a value", is read through
`countRead`, where an unlisted slot holds 0 (R23). -/

namespace Sys2Proof.Machine

/-- The written slots of a buffer, by rising index. -/
abbrev Slots (α : Type) := List (Nat × α)

/-- `MemRead(B, k)`: the whole slot, or `none` when it holds no value (R8, R21). -/
def slotRead {α : Type} : Slots α → Nat → Option α
  | [], _ => none
  | (a, v) :: m, k => if k = a then some v else slotRead m k

/-- `MemWrite(B, k, v)`: the whole slot, and no other (R8, R20). -/
def slotWrite {α : Type} : Slots α → Nat → α → Slots α
  | [], k, v => [(k, v)]
  | (a, w) :: m, k, v =>
    if k < a then (k, v) :: (a, w) :: m
    else if k = a then (k, v) :: m
    else (a, w) :: slotWrite m k v

/-- The buffer with slot `k` unlisted. -/
def slotErase {α : Type} (m : Slots α) (k : Nat) : Slots α := m.filter (fun p => p.1 != k)

/-- `for k in [0, COUNT): MemWrite(B, BASE + k, P[k])` (R185 to R187). -/
def slotWriteList {α : Type} : Slots α → Nat → List α → Slots α
  | m, _, [] => m
  | m, base, v :: vs => slotWriteList (slotWrite m base v) (base + 1) vs

/-- `exists k in [0, COUNT) with B[BASE + k] != none` (R185 to R187). -/
def slotAnyWritten {α : Type} (m : Slots α) (base count : Nat) : Bool :=
  m.any (fun p => decide (base ≤ p.1) && decide (p.1 < base + count))

/-- The canonical form: indices strictly rising. -/
def slotsWf {α : Type} : Slots α → Bool
  | [] => true
  | (a, _) :: m => m.all (fun p => decide (a < p.1)) && slotsWf m

/-- Every listed slot is below the size and holds a value with the property. -/
def slotsFit {α : Type} (size : Nat) (ok : α → Bool) (m : Slots α) : Bool :=
  m.all (fun p => decide (p.1 < size) && ok p.2)

/-- A HIST slot: unlisted is 0, "all entries initialized to 0" (R23). -/
def countRead (m : Slots Nat) (k : Nat) : Nat := (slotRead m k).getD 0

/-- Writing a HIST slot; a zero is not listed, so that equal buffers are equal lists. -/
def countWrite (m : Slots Nat) (k v : Nat) : Slots Nat :=
  if v = 0 then slotErase m k else slotWrite m k v

/-- The canonical form of HIST: indices strictly rising, no listed zero. -/
def countsWf (m : Slots Nat) : Bool := slotsWf m && m.all (fun p => p.2 != 0)

/-- "the sum over `s` of `HIST[s]`" (R41 item 9, R103). -/
def countTotal (m : Slots Nat) : Nat := (m.map (fun p => p.2)).sum

end Sys2Proof.Machine
end

