-- ==== Sys2Proof/Syntax.lean ====
section
/-! DEFINITION. The ten operations of HPE, one constructor per row of the opcode table (R88), and the form in which the
host sends a command: a descriptor and a payload (R85, R91). -/

namespace Sys2Proof

/-- The operations of R88. The eight host commands carry their operands and, for a LOAD, the payload "of exactly `COUNT`
values" (R91; the length is checked in WellFormed). The two work-item operations have no explicit operand: "the implicit
operand is the work-item's position `i = x[0]`" (R102, R162). -/
inductive Instr where
  /-- LOAD.IN (R185) -/
  | loadIn (base count : Word) (payload : List Symbol)
  /-- LOAD.CODE (R186) -/
  | loadCode (base count : Word) (payload : List Nat)
  /-- LOAD.LEN (R187) -/
  | loadLen (base count : Word) (payload : List Nat)
  /-- SUBMIT.HIST (R188) -/
  | submitHist (n : Word)
  /-- SUBMIT.ENC (R189) -/
  | submitEnc (n : Word)
  /-- READBACK.HIST (R191) -/
  | readbackHist (base count : Word)
  /-- READBACK.OUT (R192) -/
  | readbackOut (base count : Word)
  /-- RELEASE (R193) -/
  | release
  /-- HINC, selected by `JOBCTL.KIND = 1` (R92, R102) -/
  | hinc
  /-- EMIT, selected by `JOBCTL.KIND = 2` (R92, R162) -/
  | emit
  deriving DecidableEq, Repr

/-- A command as the host issues it: "one descriptor of 96 bits, followed, for the LOAD commands only, by a payload"
(R85). -/
structure Command where
  desc : Descriptor
  payload : List Nat
  deriving DecidableEq, Repr

/-- The encoded form of an operation: a command of format C, or the 4-bit value of `JOBCTL.KIND` that selects a work-item
operation (format K of the opcode table, R92). -/
inductive Encoded where
  | command (c : Command)
  | kind (k : BitVec 4)
  deriving DecidableEq, Repr

end Sys2Proof
end

