-- ==== Sys2Proof/Machine/HostData.lean ====
section
/-! DEFINITION. The host's data: the Huffman tree, the code table, and the actions a host can take (R9, R95, R122, R194,
R196). None of it is state of the block (R39); State holds it because the host is an agent of the machine (R10, log entry
12). -/

namespace Sys2Proof.Machine

/-- "tagged variant Leaf(symbol, frequency), Internal(frequency, left, right)" (R122). -/
inductive HuffmanNode where
  | leaf (symbol : Symbol) (frequency : Nat)
  | internal (frequency : Nat) (left right : HuffmanNode)
  deriving DecidableEq, Repr

/-- `freq(n)` (R122). -/
def HuffmanNode.freq : HuffmanNode → Nat
  | .leaf _ w => w
  | .internal w _ _ => w

/-- One entry of the CodeTable: "(bit pattern as an unsigned integer, bit-length as a small integer)" (R9, R82). -/
structure CodeWord where
  pattern : Nat
  length : Nat
  deriving DecidableEq, Repr

/-- The host's CodeTable, "a partial map from symbol to (pattern, length)" (R141), listed by rising symbol. -/
abbrev CodeTable := Slots CodeWord

/-- The host-side refusals of R146 and R196. -/
inductive OrchRefusal where
  /-- "if N > CAP: refuse INPUT_TOO_LONG" (R196) -/
  | inputTooLong
  /-- "if some entry of c has length > CODE_W: ... refuse CODE_TOO_LONG" (R146, R196) -/
  | codeTooLong
  deriving DecidableEq, Repr

/-- The host variable that a response's data is bound to, `-> name` (R94). -/
inductive Binding where
  | discard
  | handle
  /-- the counts of the symbols from `base` on, that is the `BASE` of the READBACK.HIST; `0` in PIPELINE (log entry 20) -/
  | counts (base : Nat)
  | records
  deriving DecidableEq, Repr

/-- The actions of the host: issuing a command, and the host-side operations of R95 and R196. -/
inductive OrchOp where
  /-- issue a command and bind its response's data -/
  | issue (c : Command) (b : Binding)
  /-- `HOST.BUILD f -> t` (R95) -/
  | build
  /-- `HOST.GEN t -> c` (R95) -/
  | gen
  /-- step 6 of PIPELINE, the test for codes longer than `CODE_W` (R196) -/
  | checkTable
  /-- `LOAD.TABLE c` (R95) -/
  | loadTable
  /-- a host-side refusal, which ends the sequence (R146, R196), in the model the whole script (log entry 14) -/
  | refuse (why : OrchRefusal)
  /-- `PIPELINE text` (R95, R196) -/
  | pipeline (text : List Symbol)
  deriving DecidableEq, Repr

end Sys2Proof.Machine
end

