-- ==== Sys2Proof/Machine/State.lean ====
section
/-! DEFINITION. The state of HPE: everything 10_state.md gives the machine, and the agents around the block that take
steps of their own (host, environment, schedule: R10, R39). Plain data. -/

namespace Sys2Proof.Machine

/-! ## Why a step can stop -/

/-- The model's stops that are no behaviour of the block. The faults of 60_exceptions.md are NOT here: a fault of the
block is a next state (R232). -/
inductive Fault where
  /-- No agent has an enabled step: "an idle block simply has no enabled step" (R242), the execution is over (R279).
  Raised by `step`. Safe: the model stops where nothing can move. -/
  | quiescent
  /-- A work-item operation without its work-item: HINC and EMIT are "Enabled: when `STATUS.ST = RUNNING`,
  `JOBCTL.KIND` = (its kind) and `i` is in `PEND`" (R102, R162); in any other state there is no such step. Raised by
  `execHinc`, `execEmit`. Safe: the model stops. -/
  | workItemNotEnabled
  deriving DecidableEq, Repr

/-- Why a step is given no meaning. -/
inductive Refusal where
  /-- An arm of exec that has no meaning yet. No arm is in this state. Safe. -/
  | notModelled (mnemonic : String)
  /-- A configuration that breaks a constraint of R6 "is ill-formed and must be refused" (R59; V6). Raised by `step`.
  Safe: nothing is claimed of such a machine. -/
  | illFormedConfig
  /-- "A payload whose length differs from `COUNT`, or a payload value wider than the slot, cannot be expressed" (R91).
  Raised by the meanings of the LOAD commands and by the acceptance of a command that carries one. Safe: no host can
  send it. -/
  | payloadNotExpressible
  deriving DecidableEq, Repr

/-! ## Closed enumerations for the fields with unreachable values (V2, V3, V4) -/

/-- `JOBCTL.KIND` (R29). -/
inductive JobKind where
  /-- 0: "no job submitted since reset or RELEASE" -/
  | none
  /-- 1: the histogram job -/
  | hist
  /-- 2: the encode job -/
  | enc
  deriving DecidableEq, Repr

/-- `STATUS.ST` (R32). -/
inductive RunStatus where
  /-- 0 -/
  | idle
  /-- 1 -/
  | running
  /-- 2: "final until reset" -/
  | faulted
  deriving DecidableEq, Repr

/-- `FAULT.CAUSE` (R221). -/
inductive FaultCause where
  /-- 0: "no fault since reset" -/
  | none
  /-- 1 -/
  | unavail
  /-- 2 -/
  | jobfail
  /-- 3 -/
  | illegal
  /-- 4 -/
  | protocol
  /-- 5 -/
  | range
  /-- 6 -/
  | unwritten
  /-- 7 -/
  | nocode
  deriving DecidableEq, Repr

/-! ## The block -/

/-- The five buffers (R20). -/
structure Memory where
  /-- IN: `CAP` slots of 8 bits (R22) -/
  inp : Slots Symbol
  /-- HIST: 256 slots of `CNT_W` bits, an unlisted slot holds 0 (R23) -/
  hist : Slots Nat
  /-- CODE: 256 slots of `CODE_W` bits (R24) -/
  code : Slots Nat
  /-- LEN: 256 slots of `LEN_W` bits (R25) -/
  len : Slots Nat
  /-- OUT: `CAP` slots of `REC_W` bits (R27) -/
  out : Slots Nat
  deriving DecidableEq, Repr

/-- The buffers after reset and after RELEASE: HIST all 0, every other slot `none` (R40, R193). -/
def Memory.fresh : Memory := { inp := [], hist := [], code := [], len := [], out := [] }

/-- The canonical form of every buffer, so that equal memories are equal data. -/
def Memory.wf (m : Memory) : Bool :=
  slotsWf m.inp && countsWf m.hist && slotsWf m.code && slotsWf m.len && slotsWf m.out

/-- Every listed slot lies in its buffer and holds a value of its slot width (R20). -/
def Memory.fits (cfg : Config) (m : Memory) : Bool :=
  slotsFit cfg.cap (fun _ => true) m.inp &&
  slotsFit alpha (fun v => decide (v < 2 ^ cfg.cntW)) m.hist &&
  slotsFit alpha (fun v => decide (v < 2 ^ cfg.codeW)) m.code &&
  slotsFit alpha (fun v => decide (v < 2 ^ cfg.lenW)) m.len &&
  slotsFit cfg.cap (fun v => decide (v < 2 ^ cfg.recW)) m.out

/-- The five one-bit `SEAL` tags (R26); `true` is 1, sealed. -/
structure Seals where
  inp : Bool
  hist : Bool
  code : Bool
  len : Bool
  out : Bool
  deriving DecidableEq, Repr

/-- All five tags 0 (R40, R193). -/
def Seals.fresh : Seals := { inp := false, hist := false, code := false, len := false, out := false }

/-- The private registers `x[0..3]` of the work-item that takes its step (R36). -/
structure WorkItem where
  /-- `x[0]`: "the work-item's position `i`; fixed at creation, read-only" -/
  idx : Word
  /-- `x[1]`: "the symbol `IN[i]`", no value at creation -/
  sym : Option Symbol
  /-- `x[2]`: "`LEN[sym]`; encode job only", no value at creation -/
  len : Option Nat
  /-- `x[3]`: "`CODE[sym]`; encode job only", no value at creation -/
  pat : Option Nat
  deriving DecidableEq, Repr

/-- The four forms of a response (R181). -/
inductive Response where
  /-- `OK()` -/
  | ok
  /-- `OK(handle)` -/
  | okHandle (handle : Word)
  /-- `OK(list)` -/
  | okList (values : List Nat)
  /-- `ERR(cause, info)` -/
  | err (cause : FaultCause) (info : Word)
  deriving DecidableEq, Repr

/-! ## The agents around the block -/

/-- Why the host's sequence stopped before its end (R194, R196). -/
inductive OrchStop where
  | error (cause : FaultCause) (info : Word)
  | refused (why : OrchRefusal)
  deriving DecidableEq, Repr

/-- The host, "the PipelineOrchestrator" (R9, R194): the actions it has still to take, its variables, and the responses
it has received (log entries 12, 13). -/
structure Orchestrator where
  script : List OrchOp
  bind : Binding
  log : List Response
  /-- the last completion handle -/
  handle : Word
  /-- `f`: the 256 counts (R121) -/
  counts : List Nat
  /-- `t`: a tree or NoTree (R123) -/
  tree : Option HuffmanNode
  /-- `c` (R141) -/
  table : CodeTable
  /-- the records (R196) -/
  records : List Nat
  /-- whether the host drops the rest of its script at `ERR`, which is how the model takes "it issues no further command in
  this pipeline" (R194; DESIGN CHOICE, log entry 13); `false` is the host of the spec's vectors V30 and P5, which goes on -/
  abortOnErr : Bool
  stop : Option OrchStop
  deriving DecidableEq, Repr

/-- The environment and the schedule (R10, R39): the draws and the choices still to come, then free values numbered by
`fresh` (log entries 2, 3, 18). -/
structure Environment where
  draws : List Bool
  choices : List Nat
  fresh : Nat
  deriving DecidableEq, Repr

/-! ## The whole -/

/-- The machine. The first group is the block's own state; the second is the parameters and the agents around it. -/
structure State where
  /-- the five buffers (R20) -/
  mem : Memory
  /-- SEAL (R26) -/
  seals : Seals
  /-- CR0 `JOBCTL.KIND` (R29) -/
  jobctl : JobKind
  /-- CR1 `JOBN.N` (R30) -/
  jobn : Word
  /-- CR2 `JOBSEQ.SEQ` (R31) -/
  jobseq : Word
  /-- CR3 `STATUS.ST` (R32) -/
  st : RunStatus
  /-- CR3 `STATUS.SESSION` (R32) -/
  session : Bool
  /-- CR4 `FAULT.CAUSE` (R33) -/
  cause : FaultCause
  /-- CR4 `FAULT.INFO` (R33) -/
  info : Word
  /-- PEND: "A set of positions" (R34), by rising position -/
  pend : List Nat
  /-- the held command: "at most one command is held" (R38) -/
  held : Option Command
  /-- the work-item that is taking its step, `none` between steps (R36, log entry 10) -/
  wi : Option WorkItem
  /-- the parameters (R6), which no step changes (log entry 1) -/
  cfg : Config
  /-- the response on its way to the host (R181, log entry 12) -/
  response : Option Response
  orch : Orchestrator
  env : Environment
  deriving DecidableEq, Repr

/-- A host with nothing to do (DESIGN CHOICE, log entry 16). -/
def Orchestrator.idle : Orchestrator :=
  { script := [], bind := .discard, log := [], handle := 0, counts := [], tree := none, table := [], records := [],
    abortOnErr := true, stop := none }

/-- The reset state of R40 for a machine with the given parameters. The model's own fields (`cfg`, `response`, `orch`,
`env`) are DESIGN CHOICE (log entry 16). -/
def State.resetWith (cfg : Config) : State :=
  { mem := Memory.fresh, seals := Seals.fresh, jobctl := .none, jobn := 0, jobseq := 0, st := .idle, session := false,
    cause := .none, info := 0, pend := [], held := none, wi := none, cfg := cfg, response := none,
    orch := Orchestrator.idle, env := { draws := [], choices := [], fresh := 0 } }

/-- The machine right after reset (R40, R261), at the default parameters (log entry 1). -/
def State.reset : State := State.resetWith Config.default

end Sys2Proof.Machine
end

