-- ==== Sys2Proof/Machine/Flags.lean ====
section
/-! DEFINITION. The status bits and tags, and the control registers CR0 to CR4 as words. "HPE has no arithmetic condition
codes" (R35): the only status bits are `ST`, `SESSION`, `CAUSE` and the five `SEAL` tags. -/

namespace Sys2Proof.Machine

/-- The value of `JOBCTL.KIND` (R29), which is also the `SEL` of a SUBMIT (R89). -/
def kindCode : JobKind → BitVec 4
  | .none => 0
  | .hist => 1
  | .enc => 2

/-- The value of `STATUS.ST` (R32). -/
def stCode : RunStatus → BitVec 2
  | .idle => 0
  | .running => 1
  | .faulted => 2

/-- The fault codes of R221. -/
def causeCode : FaultCause → BitVec 4
  | .none => 0
  | .unavail => 1
  | .jobfail => 2
  | .illegal => 3
  | .protocol => 4
  | .range => 5
  | .unwritten => 6
  | .nocode => 7

/-! ## The control registers as words (R28). "None of them is readable or writable by a dedicated command". -/

/-- CR0 JOBCTL: `KIND[3:0]`. -/
def cr0Jobctl (s : State) : BitVec 4 := kindCode s.jobctl
/-- CR1 JOBN: `N[31:0]`. -/
def cr1Jobn (s : State) : BitVec 32 := s.jobn
/-- CR2 JOBSEQ: `SEQ[31:0]`. -/
def cr2Jobseq (s : State) : BitVec 32 := s.jobseq
/-- CR3 STATUS: `ST[1:0]`, `SESSION[2]`. -/
def cr3Status (s : State) : BitVec 3 := (BitVec.ofBool s.session ++ stCode s.st : BitVec (1 + 2))
/-- CR4 FAULT: `CAUSE[35:32]`, `INFO[31:0]`. -/
def cr4Fault (s : State) : BitVec 36 := (causeCode s.cause ++ s.info : BitVec (4 + 32))

/-! ## The SEAL tags (R26) -/

/-- The tags a SUBMIT of the kind sets at launch: `SEAL[IN]` by both, `SEAL[CODE]` and `SEAL[LEN]` by SUBMIT.ENC (R188,
R189). -/
def sealInputs (kind : JobKind) (t : Seals) : Seals :=
  match kind with
  | .none => t
  | .hist => { t with inp := true }
  | .enc => { t with inp := true, code := true, len := true }

/-- The tag the completion step sets: `SEAL[HIST]` or `SEAL[OUT]` (R190). -/
def sealOutput (kind : JobKind) (t : Seals) : Seals :=
  match kind with
  | .none => t
  | .hist => { t with hist := true }
  | .enc => { t with out := true }

/-- The tag that says a job of the kind has already completed in this run (R188, R189). -/
def outputSealed (kind : JobKind) (t : Seals) : Bool :=
  match kind with
  | .none => false
  | .hist => t.hist
  | .enc => t.out

end Sys2Proof.Machine
end

