-- ==== Sys2Proof/WellFormed.lean ====
section
/-! DEFINITION. Which terms of `Instr` stand for a command that can be expressed (R91). -/

namespace Sys2Proof

/-- "a list of exactly `COUNT` values, each of the slot width of the addressed buffer" (R91). -/
def payloadFits (width : Nat) (count : Word) (payload : List Nat) : Bool :=
  payload.length == count.toNat && payload.all (fun v => decide (v < 2 ^ width))

/-- "A payload whose length differs from `COUNT`, or a payload value wider than the slot, cannot be expressed" (R91). The
other operands are as wide as their type says. -/
def Instr.wf (cfg : Config) : Instr → Bool
  | .loadIn _ count payload => payload.length == count.toNat
  | .loadCode _ count payload => payloadFits cfg.codeW count payload
  | .loadLen _ count payload => payloadFits cfg.lenW count payload
  | .submitHist _ => true
  | .submitEnc _ => true
  | .readbackHist _ _ => true
  | .readbackOut _ _ => true
  | .release => true
  | .hinc => true
  | .emit => true

end Sys2Proof
end

