-- ==== Sys2Proof/Decode.lean ====
section
/-! DEFINITION. The decoder of R93, total on all 96-bit descriptors and rejecting by name, the selection of the work-item
operation of R92, and the encoder of R86 and R88. -/

namespace Sys2Proof

/-! ## Fields of format C (R86) -/

/-- `OPC = D[95:92]` -/
def opcOf (d : Descriptor) : BitVec 4 := d.extractLsb' 92 4
/-- `SEL = D[91:88]` -/
def selOf (d : Descriptor) : BitVec 4 := d.extractLsb' 88 4
/-- `RSV = D[87:64]` -/
def rsvOf (d : Descriptor) : BitVec 24 := d.extractLsb' 64 24
/-- `BASE = D[63:32]` -/
def baseOf (d : Descriptor) : Word := d.extractLsb' 32 32
/-- `COUNT = D[31:0]` -/
def countOf (d : Descriptor) : Word := d.extractLsb' 0 32
/-- `W0 = D[95:64]`, the first word (R85) -/
def w0Of (d : Descriptor) : Word := d.extractLsb' 64 32

/-- A descriptor from its three words `W0`, `W1` (BASE) and `W2` (COUNT) (R85, R86). -/
def descriptor (w0 base count : Word) : Descriptor := (w0 ++ base ++ count : BitVec (32 + 32 + 32))

/-! ## The opcode map (R88) -/

/-- The eight host commands of R88, without operands. -/
inductive CommandName where
  | loadIn | loadCode | loadLen | submitHist | submitEnc | readbackHist | readbackOut | release
  deriving DecidableEq, Repr

/-- The column "W0" of R88. -/
def CommandName.w0 : CommandName → Word
  | .loadIn => 0x10000000
  | .loadCode => 0x12000000
  | .loadLen => 0x13000000
  | .submitHist => 0x21000000
  | .submitEnc => 0x22000000
  | .readbackHist => 0x31000000
  | .readbackOut => 0x34000000
  | .release => 0x40000000

/-- Why a descriptor is illegal, one name for each condition of R90. -/
inductive Illegal where
  /-- "`OPC` is 0 or 5..15" -/
  | opcode
  /-- "`SEL` is not one of the legal values of rule R89 for its `OPC`" -/
  | selector
  /-- "`RSV != 0`" -/
  | reservedBits
  /-- "`OPC = 2` and `BASE != 0`", or "`OPC = 4` and `BASE != 0`" -/
  | baseNotZero
  /-- "`OPC = 4` and `COUNT != 0`" -/
  | countNotZero
  deriving DecidableEq, Repr

/-- What a descriptor decodes to: a command name with its two operand fields, or Illegal. -/
inductive Header where
  | legal (name : CommandName) (base count : Word)
  | illegal (why : Illegal)
  deriving DecidableEq, Repr

/-- `(OPC, SEL)` of R88 and R89. -/
def selectCommand (opc sel : BitVec 4) : CommandName ⊕ Illegal :=
  match opc.toNat, sel.toNat with
  | 1, 0 => .inl .loadIn
  | 1, 2 => .inl .loadCode
  | 1, 3 => .inl .loadLen
  | 1, _ => .inr .selector
  | 2, 1 => .inl .submitHist
  | 2, 2 => .inl .submitEnc
  | 2, _ => .inr .selector
  | 3, 1 => .inl .readbackHist
  | 3, 4 => .inl .readbackOut
  | 3, _ => .inr .selector
  | 4, 0 => .inl .release
  | 4, _ => .inr .selector
  | _, _ => .inr .opcode

/-- The must-be-zero operand fields of R86: "`BASE` must be 0 for SUBMIT and RELEASE", "`COUNT` must be 0 for RELEASE". -/
def checkOperands (name : CommandName) (base count : Word) : Option Illegal :=
  match name with
  | .loadIn | .loadCode | .loadLen | .readbackHist | .readbackOut => none
  | .submitHist | .submitEnc => if base = 0 then none else some .baseNotZero
  | .release => if base = 0 then (if count = 0 then none else some .countNotZero) else some .baseNotZero

/-- The decode algorithm of R93 on the descriptor alone. -/
def decodeHeader (d : Descriptor) : Header :=
  if rsvOf d = 0 then
    match selectCommand (opcOf d) (selOf d) with
    | .inr why => .illegal why
    | .inl name =>
      match checkOperands name (baseOf d) (countOf d) with
      | some why => .illegal why
      | none => .legal name (baseOf d) (countOf d)
  else .illegal .reservedBits

/-- What decoding answers. -/
inductive Decoded where
  | instr (i : Instr)
  /-- the descriptor is illegal (R90); the command processor raises ILLEGAL (R226) -/
  | illegal (why : Illegal)
  /-- the payload does not fit the descriptor, which "cannot be expressed" (R91) -/
  | payloadShape
  /-- `JOBCTL.KIND` selects no work-item operation: "no other case arises" (R92) -/
  | noOperation
  deriving DecidableEq, Repr

/-- The command with its payload attached as it stands. -/
def attachPayload (name : CommandName) (base count : Word) (payload : List Nat) : Instr :=
  match name with
  | .loadIn => .loadIn base count (payload.map (BitVec.ofNat 8))
  | .loadCode => .loadCode base count payload
  | .loadLen => .loadLen base count payload
  | .submitHist => .submitHist count
  | .submitEnc => .submitEnc count
  | .readbackHist => .readbackHist base count
  | .readbackOut => .readbackOut base count
  | .release => .release

/-- The payload a descriptor may carry: `COUNT` values of the slot width for a LOAD, none for the others (R85, R91). -/
def payloadExpressible (cfg : Config) (name : CommandName) (count : Word) (payload : List Nat) : Bool :=
  match name with
  | .loadIn => payloadFits 8 count payload
  | .loadCode => payloadFits cfg.codeW count payload
  | .loadLen => payloadFits cfg.lenW count payload
  | .submitHist | .submitEnc | .readbackHist | .readbackOut | .release => payload.isEmpty

/-- Decoding a command (R93), its payload checked for shape (R91). -/
def decodeCommand (cfg : Config) (c : Command) : Decoded :=
  match decodeHeader c.desc with
  | .illegal why => .illegal why
  | .legal name base count =>
    if payloadExpressible cfg name count c.payload then .instr (attachPayload name base count c.payload)
    else .payloadShape

/-- "it executes HINC if `JOBCTL.KIND = 1` and EMIT if `JOBCTL.KIND = 2`" (R92). -/
def decodeKind (k : BitVec 4) : Decoded :=
  match k.toNat with
  | 1 => .instr .hinc
  | 2 => .instr .emit
  | _ => .noOperation

/-- Decoding either form. -/
def decode (cfg : Config) : Encoded → Decoded
  | .command c => decodeCommand cfg c
  | .kind k => decodeKind k

/-! ## The encoder -/

/-- The command of a name and operand fields: "it places the fields and writes 0 in `RSV` and in the must-be-zero fields"
(R93). -/
def commandOf (name : CommandName) (base count : Word) (payload : List Nat) : Command :=
  { desc := descriptor name.w0 base count, payload := payload }

/-- The encoder of R93, and the value of `JOBCTL.KIND` that selects a work-item operation (R92). -/
def encode : Instr → Encoded
  | .loadIn base count payload => .command (commandOf .loadIn base count (payload.map BitVec.toNat))
  | .loadCode base count payload => .command (commandOf .loadCode base count payload)
  | .loadLen base count payload => .command (commandOf .loadLen base count payload)
  | .submitHist n => .command (commandOf .submitHist 0 n [])
  | .submitEnc n => .command (commandOf .submitEnc 0 n [])
  | .readbackHist base count => .command (commandOf .readbackHist base count [])
  | .readbackOut base count => .command (commandOf .readbackOut base count [])
  | .release => .command (commandOf .release 0 0 [])
  | .hinc => .kind 1
  | .emit => .kind 2

/-! ## Words of the opcode table -/

/-- The command whose descriptor is `d` and whose payload, where it has one, is `COUNT` zeros: the operand words that the
opcode table gives no bits (log entry 15). -/
def zeroPayloadCommand (d : Descriptor) : Command :=
  match decodeHeader d with
  | .legal .loadIn _ count | .legal .loadCode _ count | .legal .loadLen _ count =>
    { desc := d, payload := List.replicate count.toNat 0 }
  | _ => { desc := d, payload := [] }

/-- What a word of the opcode table encodes: the table's 96-bit rows number the bits of `D` itself, and its 4-bit rows
(format K) hold `JOBCTL.KIND` in bits 3:0 (log entry 15). `none` for a byte with a bit above the four. -/
def tableWord (nbits w : Nat) : Option Encoded :=
  if nbits ≤ 8 then (if w < 16 then some (.kind (BitVec.ofNat 4 w)) else none)
  else some (.command (zeroPayloadCommand (BitVec.ofNat 96 w)))

/-- The instruction the decoder reads from a word of the opcode table, at the default widths. -/
def decodeTableWord (nbits w : Nat) : Option Instr :=
  match tableWord nbits w with
  | none => none
  | some e =>
    match decode Config.default e with
    | .instr i => some i
    | .illegal _ => none
    | .payloadShape => none
    | .noOperation => none

end Sys2Proof
end

