-- ==== Sys2Proof/Machine/Operands.lean ====
section
/-! DEFINITION. Operand forms: the range `[BASE, BASE + COUNT)` of a LOAD or READBACK (R52, R87), the element count of a
SUBMIT, the implicit position of a work-item, and `W0` as fault information (R221). -/

namespace Sys2Proof.Machine

/-- `BASE + COUNT > size`: "computed as a natural number, not modulo 2^32, so a range cannot wrap around" (R52). -/
def rangeExceeds (base count : Word) (size : Nat) : Bool := decide (size < base.toNat + count.toNat)

/-- `n > CAP` (R188, R189). -/
def countExceeds (n : Word) (size : Nat) : Bool := decide (size < n.toNat)

/-- The slots `B[BASE], ..., B[BASE + COUNT - 1]` of HIST as a list (R191). -/
def countRange (m : Slots Nat) (base count : Word) : List Nat :=
  (List.range count.toNat).map (fun k => countRead m (base.toNat + k))

/-- The least `k` in `[0, COUNT)` whose slot `BASE + k` holds no value (R192). -/
def firstUnwritten (m : Slots Nat) (base count : Word) : Option Nat :=
  (List.range count.toNat).find? (fun k => (slotRead m (base.toNat + k)).isNone)

/-- The slots `B[BASE], ..., B[BASE + COUNT - 1]` as a list, all of them written (R192). -/
def slotRange (m : Slots Nat) (base count : Word) : List Nat :=
  (List.range count.toNat).filterMap (fun k => slotRead m (base.toNat + k))

/-- The position of a work-item, `x[0]` (R36). -/
def position (w : WorkItem) : Nat := w.idx.toNat

/-- A work-item as SUBMIT creates it: `x[0]` its position, the others without a value (R36). -/
def newWorkItem (i : Nat) : WorkItem := { idx := BitVec.ofNat 32 i, sym := none, len := none, pat := none }

end Sys2Proof.Machine
end

