-- ==== Sys2Proof/Machine/Ops.lean ====
section
/-! DEFINITION. The shared operations: ENV's draws, responses, fault entry (there is no return from a fault, R233), the
acceptance of a command, the atomic increment, launch, completion and ENV's job failure. -/

namespace Sys2Proof.Machine

/-- What a meaning answers. -/
abbrev Result := Host.Outcome State Fault Refusal

/-! ## Draws (R8 `draw x : T`, log entries 2, 18) -/

/-- The value of ENV's next Boolean draw: the next listed one, then a free value. -/
def nextDraw (s : State) : Bool :=
  match s.env.draws with
  | b :: _ => b
  | [] => Config.freeDraw s.env.fresh

/-- The state with that draw used up. -/
def dropDraw (s : State) : State :=
  match s.env.draws with
  | _ :: bs => { s with env := { s.env with draws := bs } }
  | [] => { s with env := { s.env with fresh := s.env.fresh + 1 } }

/-! ## Responses (R181) -/

/-- "Every command ends with exactly one response to the host": the command is no longer held, its response is given. -/
def respond (r : Response) (s : State) : State := { s with held := none, response := some r }

/-! ## Fault entry (R232) -/

/-- `fault_entry(X, info)`: "the first fault wins" (R33), `ST <- FAULTED`, "and the raising step has no other effect". No
register is saved anywhere else, "there is no handler, no vector and no trap frame", and "there is no return from a
fault" (R233). -/
def faultEntry (x : FaultCause) (info : Word) (s : State) : State :=
  if s.cause = .none then { s with cause := x, info := info, st := .faulted } else { s with st := .faulted }

/-- `raise X(info)` inside a command: fault entry, then `respond ERR(X, info)` (45_host_commands.md, head). -/
def raiseInCommand (x : FaultCause) (info : Word) (s : State) : State := respond (.err x info) (faultEntry x info s)

/-! ## Acceptance of a command (R180) -/

/-- `SESSION <- 1` (R184). -/
def openSession (s : State) : State := { s with session := true }

/-- Steps 1 to 3 of `accept` around a command's own rule: while RUNNING the command is held and has no effect (R182); in
FAULTED it responds with the recorded fault and changes nothing (R183); before acquisition ENV draws (R184). -/
def accept (rule : State → Result) (s : State) : Result :=
  match s.st with
  | .running => .next s
  | .faulted => .next (respond (.err s.cause s.info) s)
  | .idle =>
    if s.session then rule s
    else if nextDraw s then rule (openSession (dropDraw s))
    else .next (raiseInCommand .unavail 0 (dropDraw s))

/-- Step 4 of `accept` for an illegal descriptor: "raise ILLEGAL(W0)" (R180, R226). -/
def acceptIllegal (w0 : Word) (s : State) : Result := accept (fun s => .next (raiseInCommand .illegal w0 s)) s

/-! ## LOAD (R185 to R187) -/

/-- The checks of a LOAD in the order of R231: PROTOCOL on the tag, RANGE, PROTOCOL on a written slot. -/
def loadFault {α : Type} (isSealed : Bool) (size : Nat) (buf : Slots α) (base count : Word) : Option FaultCause :=
  if isSealed then some .protocol
  else if rangeExceeds base count size then some .range
  else if slotAnyWritten buf base.toNat count.toNat then some .protocol
  else none

/-- "all checks precede all writes" (R185): a faulting LOAD raises with `W0`, another writes its slots and responds
`OK()`. -/
def finishLoad (w0 : Word) (fault : Option FaultCause) (written : Memory) (s : State) : Result :=
  match fault with
  | some x => .next (raiseInCommand x w0 s)
  | none => .next (respond .ok { s with mem := written })

/-! ## SUBMIT (R188, R189) -/

/-- The effects of a successful SUBMIT: "PEND <- (0, 1, ..., n-1)" and `ST <- RUNNING`, with the response at launch
(R182). -/
def launch (kind : JobKind) (n : Word) (s : State) : State :=
  respond (.okHandle (s.jobseq + 1))
    { s with
      seals := sealInputs kind s.seals
      jobctl := kind
      jobn := n
      jobseq := s.jobseq + 1
      pend := List.range n.toNat
      st := .running }

/-- The rule of a SUBMIT: PROTOCOL, RANGE, the JOBFAIL draw, then the launch (R188, R189, R225 a). -/
def submit (kind : JobKind) (w0 n : Word) (s : State) : Result :=
  if outputSealed kind s.seals then .next (raiseInCommand .protocol w0 s)
  else if countExceeds n s.cfg.cap then .next (raiseInCommand .range w0 s)
  else if nextDraw s then .next (launch kind n (dropDraw s))
  else .next (raiseInCommand .jobfail ((kindCode kind).setWidth 32) (dropDraw s))

/-! ## Work-items (R102, R162) -/

/-- "Enabled: when `STATUS.ST = RUNNING`, `JOBCTL.KIND` is the operation's and `i` is in `PEND`". -/
def workItemEnabled (kind : JobKind) (w : WorkItem) (s : State) : Bool :=
  decide (s.st = .running) && decide (s.jobctl = kind) && s.pend.contains (position w)

/-- `PEND <- PEND \ {i}`, with the registers the step leaves in the work-item. -/
def retire (w : WorkItem) (s : State) : State :=
  { s with wi := some w, pend := s.pend.filter (fun i => i != position w) }

/-- The step of a work-item, where it is enabled. -/
def workItemStep (kind : JobKind) (body : WorkItem → State → State) (s : State) : Result :=
  match s.wi with
  | none => .fault .workItemNotEnabled
  | some w => if workItemEnabled kind w s then .next (body w s) else .fault .workItemNotEnabled

/-- `AtomicInc(HIST, s)`: "one indivisible step" (R58). A sum that does not fit `CNT_W` bits, unreachable by R59, is a
free value of the slot's width (log entry 6). -/
def atomicInc (sym : Symbol) (s : State) : State :=
  let old := countRead s.mem.hist sym.toNat
  if old + 1 < 2 ^ s.cfg.cntW then { s with mem := { s.mem with hist := countWrite s.mem.hist sym.toNat (old + 1) } }
  else
    { s with
      mem := { s.mem with
        hist := countWrite s.mem.hist sym.toNat (Config.freeCount s.env.fresh % 2 ^ s.cfg.cntW) }
      env := { s.env with fresh := s.env.fresh + 1 } }

/-! ## Steps that are no command -/

/-- COMPLETE (R190): seals the job's output and makes the block IDLE. -/
def completeJob (s : State) : State := { s with seals := sealOutput s.jobctl s.seals, st := .idle }

/-- ENV's step while a job runs: "raises JOBFAIL with `INFO = JOBCTL.KIND`" (R225 b). -/
def failJob (s : State) : State := faultEntry .jobfail ((kindCode s.jobctl).setWidth 32) s

end Sys2Proof.Machine
end

