-- ==== Sys2Proof/Machine/Job.lean ====
section
/-! DEFINITION. Job submission: SUBMIT.HIST and SUBMIT.ENC (R188, R189). The completion step is `completeJob`. -/

namespace Sys2Proof.Machine

/-- SUBMIT.HIST: "launch the histogram job over `n` elements" (R188). -/
def execSubmitHist (n : Word) (s : State) : Result := accept (submit .hist CommandName.submitHist.w0 n) s

/-- SUBMIT.ENC: "launch the encode job over `n` elements" (R189). -/
def execSubmitEnc (n : Word) (s : State) : Result := accept (submit .enc CommandName.submitEnc.w0 n) s

end Sys2Proof.Machine
end

