-- ==== Sys2Proof/Machine/Load.lean ====
section
/-! DEFINITION. The transfers to the block: LOAD.IN, LOAD.CODE, LOAD.LEN (R185 to R187). -/

namespace Sys2Proof.Machine

/-- A LOAD whose payload cannot be expressed (R91) is no command; the others are accepted (R180). -/
def ifExpressible (i : Instr) (meaning : State → Result) (s : State) : Result :=
  if i.wf s.cfg then meaning s else .refused .payloadNotExpressible

/-- The rule of LOAD.IN (R185). -/
def loadInRule (base count : Word) (payload : List Symbol) (s : State) : Result :=
  finishLoad CommandName.loadIn.w0 (loadFault s.seals.inp s.cfg.cap s.mem.inp base count)
    { s.mem with inp := slotWriteList s.mem.inp base.toNat payload } s

/-- LOAD.IN: "write symbols into the input buffer" (R185). -/
def execLoadIn (base count : Word) (payload : List Symbol) (s : State) : Result :=
  ifExpressible (.loadIn base count payload) (accept (loadInRule base count payload)) s

/-- The rule of LOAD.CODE (R186). -/
def loadCodeRule (base count : Word) (payload : List Nat) (s : State) : Result :=
  finishLoad CommandName.loadCode.w0 (loadFault s.seals.code alpha s.mem.code base count)
    { s.mem with code := slotWriteList s.mem.code base.toNat payload } s

/-- LOAD.CODE: "write patterns into the code-pattern table" (R186). -/
def execLoadCode (base count : Word) (payload : List Nat) (s : State) : Result :=
  ifExpressible (.loadCode base count payload) (accept (loadCodeRule base count payload)) s

/-- The rule of LOAD.LEN (R187). -/
def loadLenRule (base count : Word) (payload : List Nat) (s : State) : Result :=
  finishLoad CommandName.loadLen.w0 (loadFault s.seals.len alpha s.mem.len base count)
    { s.mem with len := slotWriteList s.mem.len base.toNat payload } s

/-- LOAD.LEN: "write lengths into the code-length table" (R187). -/
def execLoadLen (base count : Word) (payload : List Nat) (s : State) : Result :=
  ifExpressible (.loadLen base count payload) (accept (loadLenRule base count payload)) s

end Sys2Proof.Machine
end

