-- ==== Sys2Proof/Machine/Readback.lean ====
section
/-! DEFINITION. Read-back: READBACK.HIST and READBACK.OUT (R191, R192). -/

namespace Sys2Proof.Machine

/-- The rule of READBACK.HIST (R191). -/
def readbackHistRule (base count : Word) (s : State) : Result :=
  if s.seals.hist then
    if rangeExceeds base count alpha then .next (raiseInCommand .range CommandName.readbackHist.w0 s)
    else .next (respond (.okList (countRange s.mem.hist base count)) s)
  else .next (raiseInCommand .protocol CommandName.readbackHist.w0 s)

/-- READBACK.HIST: "return counts to the host" (R191). -/
def execReadbackHist (base count : Word) (s : State) : Result := accept (readbackHistRule base count) s

/-- The rule of READBACK.OUT (R192): UNWRITTEN carries "the least such slot index". -/
def readbackOutRule (base count : Word) (s : State) : Result :=
  if s.seals.out then
    if rangeExceeds base count s.cfg.cap then .next (raiseInCommand .range CommandName.readbackOut.w0 s)
    else
      match firstUnwritten s.mem.out base count with
      | some k => .next (raiseInCommand .unwritten (base + BitVec.ofNat 32 k) s)
      | none => .next (respond (.okList (slotRange s.mem.out base count)) s)
  else .next (raiseInCommand .protocol CommandName.readbackOut.w0 s)

/-- READBACK.OUT: "return records to the host" (R192). -/
def execReadbackOut (base count : Word) (s : State) : Result := accept (readbackOutRule base count) s

end Sys2Proof.Machine
end

