-- ==== Sys2Proof/Machine/Release.lean ====
section
/-! DEFINITION. Teardown: RELEASE (R193). -/

namespace Sys2Proof.Machine

/-- The effects of RELEASE: "`JOBSEQ`, `STATUS.SESSION` and `FAULT` are not changed" (R193). -/
def releaseBuffers (s : State) : State :=
  { s with mem := Memory.fresh, seals := Seals.fresh, jobctl := .none, jobn := 0, pend := [] }

/-- RELEASE: "end the pipeline run and return the buffers to their fresh state" (R193). -/
def execRelease (s : State) : Result := accept (fun s => .next (respond .ok (releaseBuffers s))) s

end Sys2Proof.Machine
end

