-- ==== Sys2Proof/Machine/WorkItems.lean ====
section
/-! DEFINITION. The work-item operations: HINC of the histogram unit (R102) and EMIT of the encoder unit (R162). -/

namespace Sys2Proof.Machine

/-- HINC(i) (R102): reads `IN[i]`, increments `HIST[IN[i]]`, leaves `PEND`; an unwritten `IN[i]` raises UNWRITTEN with
`INFO = i` and the work-item stays in `PEND`. -/
def hincBody (w : WorkItem) (s : State) : State :=
  match slotRead s.mem.inp (position w) with
  | none => faultEntry .unwritten w.idx s
  | some v => retire { w with sym := some v } (atomicInc v s)

/-- HINC, "the histogram work-item operation" (R102). -/
def execHinc (s : State) : Result := workItemStep .hist hincBody s

/-- `MemWrite(OUT, i, v)` (R162). -/
def writeRecord (i v : Nat) (s : State) : State := { s with mem := { s.mem with out := slotWrite s.mem.out i v } }

/-- EMIT(i) (R162): reads `IN[i]`, `LEN[sym]` and `CODE[sym]`, writes the whole pattern slot to `OUT[i]` and leaves
`PEND`. The length is read and used for nothing (R163); an unwritten entry raises NOCODE with `INFO = zext_32(sym)`. -/
def emitBody (w : WorkItem) (s : State) : State :=
  match slotRead s.mem.inp (position w) with
  | none => faultEntry .unwritten w.idx s
  | some v =>
    match slotRead s.mem.len v.toNat, slotRead s.mem.code v.toNat with
    | some l, some c =>
      retire { w with sym := some v, len := some l, pat := some c } (writeRecord (position w) c s)
    | _, _ => faultEntry .nocode (v.setWidth 32) s

/-- EMIT, "the encode work-item operation" (R162). -/
def execEmit (s : State) : Result := workItemStep .enc emitBody s

end Sys2Proof.Machine
end

