-- ==== Sys2Proof/Machine/Dispatch.lean ====
section
/-! DEFINITION. The meaning of every operation of the opcode table, one arm per constructor. -/

namespace Sys2Proof.Machine

/-- The meaning of an operation in a state. -/
def exec (i : Instr) (s : State) : Host.Outcome State Fault Refusal :=
  match i with
  | .loadIn base count payload => Sys2Proof.Machine.execLoadIn base count payload s
  | .loadCode base count payload => Sys2Proof.Machine.execLoadCode base count payload s
  | .loadLen base count payload => Sys2Proof.Machine.execLoadLen base count payload s
  | .submitHist n => Sys2Proof.Machine.execSubmitHist n s
  | .submitEnc n => Sys2Proof.Machine.execSubmitEnc n s
  | .readbackHist base count => Sys2Proof.Machine.execReadbackHist base count s
  | .readbackOut base count => Sys2Proof.Machine.execReadbackOut base count s
  | .release => Sys2Proof.Machine.execRelease s
  | .hinc => Sys2Proof.Machine.execHinc s
  | .emit => Sys2Proof.Machine.execEmit s

end Sys2Proof.Machine
end

