-- ==== Sys2Proof/Machine/HostProc.lean ====
section
/-! DEFINITION. The host procedures: BUILD_TREE with its PendingQueue (R120 to R133), GEN_CODES (R140 to R148), table
well-formedness (R145 to R147) and the decoder that is a test oracle (R150). They touch host data only. -/

namespace Sys2Proof.Machine

/-! ## PendingQueue (R124) -/

/-- `insert(Q, n)`: behind the last element of frequency at most `freq(n)`, so behind every equal one (R124). On a queue
in non-decreasing order, which is the only kind BUILD_TREE has (log entry 17). -/
def queueInsert : List HuffmanNode → HuffmanNode → List HuffmanNode
  | [], n => [n]
  | q :: qs, n => if q.freq ≤ n.freq then q :: queueInsert qs n else n :: q :: qs

/-! ## BUILD_TREE (R123) -/

/-- `f[s]` of a FrequencyTable (R121). -/
def tableCount (f : List Nat) (s : Nat) : Nat := f.getD s 0

/-- The host's table `f` after a READBACK.HIST from `base` on has returned `vs`: the count of symbol `base + k` is the `k`-th
value, every other count is as before. The spec binds `f` for the whole read only (R196) and says of a partial one that
the table is "incomplete" (R270); that values go to the symbols they were read from, that reads of sub-ranges join, and
that an entry never read counts 0 is the model's: DESIGN CHOICE, log entry 20. -/
def storeCounts (f : List Nat) (base : Nat) (vs : List Nat) : List Nat :=
  (f ++ List.replicate (base - f.length) 0).take base ++ vs ++ f.drop (base + vs.length)

/-- Inserting the leaves of the given symbols in the given order, for symbols with a positive frequency (R123 step 1). -/
def seedFrom (f : List Nat) : List Nat → List HuffmanNode → List HuffmanNode
  | [], q => q
  | s :: rest, q =>
    seedFrom f rest
      (if 0 < tableCount f s then queueInsert q (.leaf (BitVec.ofNat 8 s) (tableCount f s)) else q)

/-- Step 1: "by ascending symbol value" (R125). -/
def seedQueue (f : List Nat) : List HuffmanNode := seedFrom f (List.range alpha) []

/-- Step 2: merging the two first nodes, "left = a, right = b" (R126), for at most the given number of merges. -/
def mergeLoop : Nat → List HuffmanNode → List HuffmanNode
  | k + 1, a :: b :: q => mergeLoop k (queueInsert q (.internal (a.freq + b.freq) a b))
  | _, q => q

/-- BUILD_TREE (R123); `none` is NoTree. "at most 255 merges" are needed (R128). -/
def buildTree (f : List Nat) : Option HuffmanNode := (mergeLoop 255 (seedQueue f)).head?

/-- The leaves of a tree from left to right. -/
def leaves : HuffmanNode → List (Symbol × Nat)
  | .leaf s w => [(s, w)]
  | .internal _ l r => leaves l ++ leaves r

/-- "Frequency of an Internal node is always the sum of its children's frequencies" (R122). -/
def sumNodes : HuffmanNode → Bool
  | .leaf _ w => decide (1 ≤ w)
  | .internal w l r => decide (w = l.freq + r.freq) && sumNodes l && sumNodes r

/-! ## GEN_CODES (R141) -/

/-- `walk(n, p, d)`: left appends bit 0, right appends bit 1 (R141, R142); the union is gathered into the table. -/
def walk : HuffmanNode → Nat → Nat → CodeTable → CodeTable
  | .leaf s _, p, d, c => slotWrite c s.toNat { pattern := p, length := d }
  | .internal _ l r, p, d, c => walk r (2 * p + 1) (d + 1) (walk l (2 * p) (d + 1) c)

/-- GEN_CODES (R141): NoTree gives the empty table (R144), a single leaf the one-bit code 0 (R143). -/
def genCodes : Option HuffmanNode → CodeTable
  | none => []
  | some (.leaf s _) => [(s.toNat, { pattern := 0, length := 1 })]
  | some (.internal w l r) => walk (.internal w l r) 0 0 []

/-- The code table of a FrequencyTable: `GEN_CODES(BUILD_TREE(f))` (R145). -/
def codesOf (f : List Nat) : CodeTable := genCodes (buildTree f)

/-- "some entry of c has length > CODE_W" (R146, R196 step 6). -/
def tableTooLong (cfg : Config) (c : CodeTable) : Bool := c.any (fun p => decide (cfg.codeW < p.2.length))

/-! ## Code strings and the decoder oracle (R150) -/

/-- `bits(c, s)`: "the L-bit string ..., most significant of the L bits first" (R150, R82). -/
def codeBits (w : CodeWord) : List Bool := (List.range w.length).map (fun k => w.pattern.testBit (w.length - 1 - k))

/-- `stream(c, text)` (R150); `none` when a symbol has no entry. -/
def codeStream (c : CodeTable) : List Symbol → Option (List Bool)
  | [] => some []
  | s :: text =>
    match slotRead c s.toNat, codeStream c text with
    | some w, some rest => some (codeBits w ++ rest)
    | _, _ => none

/-- `decode(c, w)` (R150) for at most the given number of symbols: "the unique s in the domain of c such that bits(c, s)
is a prefix of w", `none` where there is no such s. R150 takes uniqueness from prefix-freeness, which a hand-made table
need not have; where several symbols match, none is the unique one and the model answers `none` too: DEDUCED, log entry
21. An entry whose code is empty, which no code table holds (R145 item 2), never leads to a text (log entry 17). -/
def decodeBits (c : CodeTable) : Nat → List Bool → Option (List Symbol)
  | _, [] => some []
  | 0, _ :: _ => none
  | k + 1, b :: w =>
    match c.filter (fun p => (codeBits p.2).isPrefixOf (b :: w)) with
    | [] => none
    | _ :: _ :: _ => none
    | [p] =>
      match decodeBits c k ((b :: w).drop p.2.length) with
      | none => none
      | some text => some (BitVec.ofNat 8 p.1 :: text)

/-- `decode(c, w)`: every code has at least one bit, so at most as many symbols as bits. -/
def decodeStream (c : CodeTable) (w : List Bool) : Option (List Symbol) := decodeBits c w.length w

/-! ## Well-formed tables (R145, R147) -/

/-- "for two different symbols `s, t` in the domain with `c[s] = (p, L)`, `c[t] = (q, K)` and `L <= K`:
`q div 2^(K-L) != p`" (R145 item 3). -/
def PrefixFree (c : CodeTable) : Prop :=
  ∀ s t u v, s ≠ t → slotRead c s = some u → slotRead c t = some v → u.length ≤ v.length →
    v.pattern / 2 ^ (v.length - u.length) ≠ u.pattern

/-- `WF_TABLE(CODE, LEN)`, items (a) to (d) of R147, for a machine with the given parameters. -/
def WfTable (cfg : Config) (code len : Slots Nat) : Prop :=
  (∀ s, (slotRead code s).isSome = (slotRead len s).isSome) ∧
  (∀ s p l, slotRead code s = some p → slotRead len s = some l → 1 ≤ l ∧ l ≤ cfg.codeW ∧ p < 2 ^ l) ∧
  (∀ s t p l q k, s ≠ t → slotRead code s = some p → slotRead len s = some l → slotRead code t = some q →
    slotRead len t = some k → l ≤ k → q / 2 ^ (k - l) ≠ p)

/-- `MATCHES(CODE, LEN, c)`: "the written slots are exactly the domain of the host table `c` and hold its values" (R147). -/
def TableMatches (code len : Slots Nat) (c : CodeTable) : Prop :=
  ∀ s, slotRead code s = (slotRead c s).map CodeWord.pattern ∧ slotRead len s = (slotRead c s).map CodeWord.length

/-! ## Command sequences (R95, R196) -/

/-- Issuing a legal command. -/
def issueOp (name : CommandName) (base count : Word) (payload : List Nat) (b : Binding) : OrchOp :=
  .issue (commandOf name base count payload) b

/-- `LOAD.TABLE c`: "for each symbol `s` in the domain of `c`, in ascending order of `s`: `LOAD.CODE s, 1, ...` then
`LOAD.LEN s, 1, ...`" (R95). -/
def loadTableOps (c : CodeTable) : List OrchOp :=
  c.flatMap (fun p =>
    [issueOp .loadCode (BitVec.ofNat 32 p.1) 1 [p.2.pattern] .discard,
     issueOp .loadLen (BitVec.ofNat 32 p.1) 1 [p.2.length] .discard])

/-- `PIPELINE(text)`, steps 1 to 10 (R196). -/
def pipelineOps (text : List Symbol) : List OrchOp :=
  let n : Word := BitVec.ofNat 32 text.length
  [issueOp .loadIn 0 n (text.map BitVec.toNat) .discard,
   issueOp .submitHist 0 n [] .handle,
   issueOp .readbackHist 0 256 [] (.counts 0),
   .build,
   .gen,
   .checkTable,
   .loadTable,
   issueOp .submitEnc 0 n [] .handle,
   issueOp .readbackOut 0 n [] .records,
   issueOp .release 0 0 [] .discard]

/-- What the host does instead of the rest of the pipeline when a code is too long: "RELEASE; refuse CODE_TOO_LONG"
(R196 step 6), and instead of whatever its script has after it (DESIGN CHOICE, log entry 14). -/
def codeTooLongOps : List OrchOp := [issueOp .release 0 0 [] .discard, .refuse .codeTooLong]

end Sys2Proof.Machine
end

