-- ==== Sys2Proof/Machine/Orchestrate.lean ====
section
/-! DEFINITION. The steps of the host (R194): taking a response, and the next action of its script (R95, R196). -/

namespace Sys2Proof.Machine

/-- The host's variables after a response whose data is bound to `b` (R94). A READBACK.HIST of a sub-range fills the
entries it read and leaves the others (DESIGN CHOICE, log entry 20). -/
def bindResponse (b : Binding) (r : Response) (o : Orchestrator) : Orchestrator :=
  match b, r with
  | .handle, .okHandle h => { o with handle := h }
  | .counts base, .okList vs => { o with counts := storeCounts o.counts base vs }
  | .records, .okList vs => { o with records := vs }
  | _, _ => o

/-- "On an `ERR` response the host aborts: it issues no further command in this pipeline" (R194), where it is a host that
aborts. What it does after that pipeline R194 leaves open: that it drops its whole remaining script, later pipelines and
host procedures too, is the model's choice, and so is the flag (DESIGN CHOICE, log entry 13). -/
def abortOn (r : Response) (o : Orchestrator) : Orchestrator :=
  match r with
  | .err c info => if o.abortOnErr then { o with script := [], stop := some (.error c info) } else o
  | .ok => o
  | .okHandle _ => o
  | .okList _ => o

/-- The host takes the response it waited for. -/
def takeResponse (r : Response) (s : State) : State :=
  { s with
    response := none
    orch := abortOn r (bindResponse s.orch.bind r { s.orch with bind := .discard, log := s.orch.log ++ [r] }) }

/-- One action of the host (R95, R196), the rest of its script being `rest`. A refusal drops that rest, also what stands
there after the PIPELINE it ends (DESIGN CHOICE, log entry 14). -/
def orchAct (op : OrchOp) (rest : List OrchOp) (s : State) : State :=
  match op with
  | .issue c b => { s with held := some c, orch := { s.orch with script := rest, bind := b } }
  | .build => { s with orch := { s.orch with script := rest, tree := buildTree s.orch.counts } }
  | .gen => { s with orch := { s.orch with script := rest, table := genCodes s.orch.tree } }
  | .checkTable =>
    { s with orch := { s.orch with
      script := if tableTooLong s.cfg s.orch.table then codeTooLongOps else rest } }
  | .loadTable => { s with orch := { s.orch with script := loadTableOps s.orch.table ++ rest } }
  | .refuse why => { s with orch := { s.orch with script := [], stop := some (.refused why) } }
  | .pipeline text =>
    { s with orch := { s.orch with
      script := if s.cfg.cap < text.length then [.refuse .inputTooLong] else pipelineOps text ++ rest } }

/-- "The host issues a command, waits for its response, and only then takes its next action" (R194). -/
def orchStep (s : State) : State :=
  match s.response with
  | some r => takeResponse r s
  | none =>
    match s.orch.script with
    | [] => s
    | op :: rest => orchAct op rest s

/-- The host can move: no command of its is outstanding, and it has a response to take or an action left. -/
def orchReady (s : State) : Bool := s.held.isNone && (s.response.isSome || !s.orch.script.isEmpty)

end Sys2Proof.Machine
end

