-- ==== Sys2Proof/Machine/Schedule.lean ====
section
/-! DEFINITION. The steps of all agents (R10) and the choice among those that are enabled (R60, R63). -/

namespace Sys2Proof.Machine

/-- A step of one agent (R10). -/
inductive Action where
  /-- the single step of work-item `i` (R102, R162) -/
  | workItem (i : Nat)
  /-- CP's completion step (R190) -/
  | complete
  /-- ENV's job failure (R225 b) -/
  | jobFail
  /-- CP accepts the held command (R180) -/
  | accept
  /-- the host's next step (R194) -/
  | host
  deriving DecidableEq, Repr

/-- The operation that `JOBCTL.KIND` selects (R92). -/
def workItemOperation (k : JobKind) : Option Instr :=
  match k with
  | .none => none
  | .hist => some .hinc
  | .enc => some .emit

/-- The steps of the running job: every pending work-item, the completion step "when `STATUS.ST = RUNNING` and `PEND`" is
empty (R190), and ENV's failure "at any time before the completion step" (R225 b). -/
def jobActions (s : State) : List Action :=
  (if (workItemOperation s.jobctl).isSome then s.pend.map Action.workItem else []) ++
  (if s.pend.isEmpty then [.complete] else []) ++ [.jobFail]

/-- Every enabled step. While a job runs: its steps, and no command is accepted (R182). After a fault: no step of the job
(R237). -/
def enabledActions (s : State) : List Action :=
  (if s.st = .running then jobActions s else if s.held.isSome then [.accept] else []) ++
  (if orchReady s then [.host] else [])

/-- Starting the step of work-item `i`: its registers as SUBMIT created them (R36). -/
def beginWorkItem (i : Nat) (s : State) : State := { s with wi := some (newWorkItem i) }

/-- "A work-item's registers ... do not outlive its step" (R36). -/
def endWorkItem (s : State) : State := { s with wi := none }

/-- A function on the next state, where there is one. -/
def mapNext (f : State → State) (r : Result) : Result :=
  match r with
  | .next s => .next (f s)
  | .fault x => .fault x
  | .refused x => .refused x

/-- The step of work-item `i`: the operation `JOBCTL.KIND` selects (R92). -/
def stepWorkItem (i : Nat) (s : State) : Result :=
  match workItemOperation s.jobctl with
  | none => .fault .workItemNotEnabled
  | some op => mapNext endWorkItem (exec op (beginWorkItem i s))

/-- CP accepts a command: it decodes it and executes it (R180 steps 1 to 5). The meaning of a command holds the checks
that precede decoding (log entry 11). -/
def acceptCommand (c : Command) (s : State) : Result :=
  match decodeCommand s.cfg c with
  | .instr i => exec i s
  | .illegal _ => acceptIllegal (w0Of c.desc) s
  | .payloadShape => .refused .payloadNotExpressible
  | .noOperation => .refused .payloadNotExpressible

/-- The step of one agent. -/
def act (a : Action) (s : State) : Result :=
  match a with
  | .workItem i => stepWorkItem i s
  | .complete => .next (completeJob s)
  | .jobFail => .next (failJob s)
  | .accept =>
    match s.held with
    | some c => acceptCommand c s
    | none => .fault .quiescent
  | .host => .next (orchStep s)

/-- The schedule's next choice: the next listed one, then a free value (log entry 3). -/
def nextChoice (s : State) : Nat :=
  match s.env.choices with
  | k :: _ => k
  | [] => Config.freeChoice s.env.fresh

/-- The state with that choice used up. -/
def dropChoice (s : State) : State :=
  match s.env.choices with
  | _ :: ks => { s with env := { s.env with choices := ks } }
  | [] => { s with env := { s.env with fresh := s.env.fresh + 1 } }

/-- One of the enabled steps `a :: as`: the only one, or the one the schedule chooses. Every enabled step is some choice. -/
def pickAction (a : Action) (as : List Action) (s : State) : Action :=
  if as.isEmpty then a else (a :: as).getD (nextChoice s % (as.length + 1)) a

/-- Taking that step, which uses up a choice where there was one to make. -/
def chooseAction (a : Action) (as : List Action) (s : State) : Result :=
  act (pickAction a as s) (if as.isEmpty then s else dropChoice s)

/-- One step of the machine: an ill-formed configuration is refused (R59), a machine with no enabled step is at rest
(R242, R279), and otherwise one enabled agent moves. -/
def stepAny (s : State) : Result :=
  if s.cfg.wf then
    match enabledActions s with
    | [] => .fault .quiescent
    | a :: as => chooseAction a as s
  else .refused .illFormedConfig

/-! ## Placing a word where the next step runs it (log entry 15) -/

/-- The state whose next step accepts command `c`: it is held, no job runs, ENV's next draws succeed. -/
def placeCommand (c : Command) (s : State) : State :=
  let idle := match s.st with
    | .running => { s with st := .idle, pend := [] }
    | .idle => s
    | .faulted => s
  { idle with held := some c, env := { s.env with draws := true :: true :: s.env.draws } }

/-- The kind of job a 4-bit word selects (R92). -/
def kindOfWord (k : BitVec 4) : JobKind :=
  match k.toNat with
  | 1 => .hist
  | 2 => .enc
  | _ => .none

/-- The state whose next step runs the work-item operation `k` selects: a job of that kind runs, its first pending
work-item (position 0 where none is pending) is chosen. -/
def placeKind (k : BitVec 4) (s : State) : State :=
  { s with
    st := .running
    jobctl := kindOfWord k
    jobn := if s.pend.isEmpty then 1 else s.jobn
    pend := if s.pend.isEmpty then [0] else s.pend
    env := { s.env with choices := 0 :: s.env.choices } }

/-- Placing what a word of the opcode table encodes. -/
def placeWord (s : State) (nbits w : Nat) : State :=
  match tableWord nbits w with
  | none => s
  | some (.command c) => placeCommand c s
  | some (.kind k) => placeKind k s

end Sys2Proof.Machine
end

