-- ==== Sys2Proof/Safety.lean ====
section
/-! DEFINITION. The terms in which claims about HPE are stated: when a command is executed by its own rule (R180), what
raising a fault does (R232), the invariants of R41 and the inductive form of them, reachable states (R260), whole
executions and their fairness (R277), the end of an execution (R279), and what a job has done so far (R103, R164). -/

namespace Sys2Proof.Machine

/-! ## Commands -/

/-- The eight host commands; HINC and EMIT are none (R88). -/
def isCommand : Instr → Bool
  | .loadIn _ _ _ | .loadCode _ _ _ | .loadLen _ _ _ | .submitHist _ | .submitEnc _ | .readbackHist _ _
  | .readbackOut _ _ | .release => true
  | .hinc | .emit => false

/-- The command reaches step 5 of R180: no job runs, no fault is recorded, and the accelerator is acquired or ENV's draw
acquires it now. -/
def Accepts (s : State) : Prop := s.st = .idle ∧ (s.session = true ∨ nextDraw s = true)

/-- The state in which the command's own rule then runs: `SESSION` is 1, the acquisition draw, if there was one, is
used up (R180 step 3). -/
def accepted (s : State) : State := if s.session then s else openSession (dropDraw s)

/-- The next step accepts RELEASE: it is the held command (its descriptor decodes to RELEASE) and the block executes it. -/
def ReleaseIsAccepted (s : State) : Prop :=
  Accepts s ∧ ∃ c, s.held = some c ∧ decodeCommand s.cfg c = .instr .release

/-- "`raise X(info)` does exactly this, as part of the step that raises it" (R232), inside a command: the first fault is
recorded, `ST` is FAULTED, the response is `ERR(X, info)`, and nothing else of `a` changes. -/
def RaisesInCommand (x : FaultCause) (info : Word) (a : State) (r : Result) : Prop :=
  r = .next { a with
    cause := if a.cause = .none then x else a.cause
    info := if a.cause = .none then info else a.info
    st := .faulted
    held := none
    response := some (.err x info) }

/-- The same for a work-item or ENV, which have no response (R223). -/
def RaisesInJob (x : FaultCause) (info : Word) (a : State) (r : Result) : Prop :=
  r = .next { a with
    cause := if a.cause = .none then x else a.cause
    info := if a.cause = .none then info else a.info
    st := .faulted }

/-- The slots of a buffer after `for k in [0, COUNT): MemWrite(B, BASE + k, P[k])`: slot `BASE + k` holds `P[k]`, every
other slot is as before. -/
def RangeWritten {α : Type} (old new : Slots α) (base : Nat) (payload : List α) : Prop :=
  (∀ k v, payload[k]? = some v → slotRead new (base + k) = some v) ∧
  (∀ j, j < base ∨ base + payload.length ≤ j → slotRead new j = slotRead old j)

/-- What R185, R186 and R187 say of a LOAD over the range `[base, base + count)` of a buffer of `size` slots, executed in
state `a` with answer `r`: its effect, and its faults in the order of R231. `buf` reads the buffer of a state, `put`
replaces it and nothing else. -/
def LoadRule {α : Type} (w0 : Word) (isSealed : Bool) (size : Nat) (buf : State → Slots α)
    (put : Slots α → State → State) (base count : Word) (payload : List α) (a : State) (r : Result) : Prop :=
  (isSealed = false → base.toNat + count.toNat ≤ size →
    (∀ k, k < count.toNat → slotRead (buf a) (base.toNat + k) = none) →
    ∃ new, RangeWritten (buf a) new base.toNat payload ∧
      r = .next { put new a with held := none, response := some .ok }) ∧
  (isSealed = true → RaisesInCommand .protocol w0 a r) ∧
  (isSealed = false → size < base.toNat + count.toNat → RaisesInCommand .range w0 a r) ∧
  (isSealed = false → base.toNat + count.toNat ≤ size →
    (∃ k, k < count.toNat ∧ slotRead (buf a) (base.toNat + k) ≠ none) → RaisesInCommand .protocol w0 a r)

/-! ## The invariants of R41 -/

/-- The number of Internal nodes of a tree, one for each merge that built it (R127). -/
def merges : HuffmanNode → Nat
  | .leaf _ _ => 0
  | .internal _ l r => merges l + merges r + 1

/-- The ten items of R41, word for word where they speak of State. -/
structure R41 (s : State) : Prop where
  item1 : s.cause ≠ .none ↔ s.st = .faulted
  item2 : (s.pend ≠ [] → s.st = .running ∨ s.st = .faulted) ∧ ∀ i ∈ s.pend, i < s.jobn.toNat
  item3 : s.jobn.toNat ≤ s.cfg.cap
  item4 : s.st = .running → s.seals.inp = true ∧ (s.jobctl = .hist ∨ s.jobctl = .enc)
  item5 : s.st = .running → s.jobctl = .enc → s.seals.code = true ∧ s.seals.len = true ∧ s.seals.out = false
  item6 : s.st = .running → s.jobctl = .hist → s.seals.hist = false
  item7 : s.seals.hist = false → s.st = .idle → ∀ k, countRead s.mem.hist k = 0
  item8 : s.seals.out = false → s.st = .idle → ∀ k, slotRead s.mem.out k = none
  item9 : s.st = .running → s.jobctl = .hist → countTotal s.mem.hist = s.jobn.toNat - s.pend.length
  item10 : s.session = false →
    s.mem = Memory.fresh ∧ s.seals = Seals.fresh ∧ s.jobctl = .none ∧ s.jobn = 0 ∧ s.jobseq = 0 ∧ s.pend = [] ∧
    s.info = 0 ∧ ((s.st = .idle ∧ s.cause = .none) ∨ (s.st = .faulted ∧ s.cause = .unavail))

/-- The inductive invariant from which R41 follows: it also says that every buffer is canonical and within its bounds
(R20), that PEND is a set (R34), that no work-item outlives its step (R36), that a command is held only while the host
has no response to take (R38, R194), that INFO holds its reset value until a fault is recorded (R33), and that a buffer no job has produced in this run is untouched even while the other
job runs. -/
structure Inv (s : State) : Prop where
  configuration : s.cfg.wf = true
  memoryCanonical : s.mem.wf = true
  memoryFits : s.mem.fits s.cfg = true
  faultIffFaulted : s.cause ≠ .none ↔ s.st = .faulted
  noPendingWhenIdle : s.st = .idle → s.pend = []
  pendingIsSet : s.pend.Pairwise (· < ·)
  pendingBelowCount : ∀ i ∈ s.pend, i < s.jobn.toNat
  countWithinCapacity : s.jobn.toNat ≤ s.cfg.cap
  runningSealsInput : s.st = .running → s.seals.inp = true ∧ s.jobctl ≠ .none
  encodeSeals : s.st = .running → s.jobctl = .enc → s.seals.code = true ∧ s.seals.len = true ∧ s.seals.out = false
  histogramFresh : s.st = .running → s.jobctl = .hist → s.seals.hist = false
  histUntouched : s.seals.hist = false → s.st ≠ .faulted → (s.st = .running → s.jobctl ≠ .hist) → s.mem.hist = []
  outUntouched : s.seals.out = false → s.st ≠ .faulted → (s.st = .running → s.jobctl ≠ .enc) → s.mem.out = []
  histogramTotal : s.st = .running → s.jobctl = .hist → countTotal s.mem.hist + s.pend.length = s.jobn.toNat
  beforeSession : s.session = false →
    s.st ≠ .running ∧ s.mem = Memory.fresh ∧ s.seals = Seals.fresh ∧ s.jobctl = .none ∧ s.jobn = 0 ∧ s.jobseq = 0 ∧
    s.pend = [] ∧ (s.cause = .none ∨ s.cause = .unavail) ∧ s.info = 0
  noWorkItemBetweenSteps : s.wi = none
  oneCommandOutstanding : s.held ≠ none → s.response = none
  infoOnlyWithFault : s.cause = .none → s.info = 0

/-! ## Executions -/

/-- The launch states: "every execution the model considers starts there" (R260), with any parameters that can be
configured (R6), any host script, any draws and any schedule (R39). -/
def Launch (s : State) : Prop :=
  s.cfg.wf = true ∧ ∃ orch env, s = { State.resetWith s.cfg with orch := orch, env := env }

/-- Any number of steps, one after another. -/
inductive RunsTo (s : State) : State → Prop where
  | refl : RunsTo s s
  | step {t u : State} (h : RunsTo s t) (hs : Machine.step t = .next u) : RunsTo s u

/-- The states of the executions (R41 "reachable from reset by the rules"). -/
def Reachable (s : State) : Prop := ∃ s0, Launch s0 ∧ RunsTo s0 s

/-- The action that the next step takes, where one is enabled. -/
def nextAction (s : State) : Option Action :=
  match enabledActions s with
  | [] => none
  | a :: as => some (pickAction a as s)

/-- An execution: from a launch state, one step after another, and once no step answers a next state the machine stays as
it is. -/
def Execution (e : Nat → State) : Prop :=
  Launch (e 0) ∧
  ∀ n, Machine.step (e n) = .next (e (n + 1)) ∨ ((∀ t, Machine.step (e n) ≠ .next t) ∧ e (n + 1) = e n)

/-- Weak fairness: "an agent whose step stays enabled eventually takes it" (R277): from any point on, every step but ENV's
failure, which "is exempt", is at some point disabled or the one taken. R277 makes it an assumption on executions; in this
model every execution has it (log entry 3, Obligations.JobsEndAndExecutionsAreFair), so no claim needs it as a premise. -/
def WeaklyFair (e : Nat → State) : Prop :=
  ∀ a : Action, a ≠ .jobFail → ∀ n, ∃ m, n ≤ m ∧ (a ∉ enabledActions (e m) ∨ nextAction (e m) = some a)

/-- "An execution of the model is over when the host has no further command to issue and has received the response to its
last one, and the block is quiescent: `ST` is IDLE or FAULTED and no command is held" (R279). -/
def Ended (s : State) : Prop :=
  s.orch.script = [] ∧ s.response = none ∧ s.held = none ∧ (s.st = .idle ∨ s.st = .faulted)

/-- "It ended well when, in addition, `FAULT.CAUSE = 0`" (R279). -/
def EndedWell (s : State) : Prop := Ended s ∧ s.cause = .none

/-! ## What a job has done so far -/

/-- The number of positions `i < N` that have stepped and hold the symbol: "not in `PEND` with `IN[i] = s`" (R103). -/
def stepped (s : State) (v : Symbol) : Nat :=
  (List.range s.jobn.toNat).countP (fun i => !s.pend.contains i && decide (slotRead s.mem.inp i = some v))

/-- The number of positions `i < N` that hold the symbol (R104). -/
def occurrences (s : State) (v : Symbol) : Nat :=
  (List.range s.jobn.toNat).countP (fun i => decide (slotRead s.mem.inp i = some v))

/-- "for each `s`, `HIST[s]` equals the number of positions `i` not in `PEND` with `IN[i] = s`" while a histogram job
runs (R103). -/
def HistogramSoFar (s : State) : Prop :=
  s.st = .running → s.jobctl = .hist → ∀ v : Symbol, countRead s.mem.hist v.toNat = stepped s v

/-- While an encode job runs: `OUT[i] = CODE[IN[i]]` for every position that has stepped, and every other slot of OUT is
unwritten (R162, R164). -/
def RecordsSoFar (s : State) : Prop :=
  s.st = .running → s.jobctl = .enc →
    (∀ i, i < s.jobn.toNat → i ∉ s.pend →
      ∃ v c, slotRead s.mem.inp i = some v ∧ slotRead s.mem.code v.toNat = some c ∧ slotRead s.mem.out i = some c) ∧
    (∀ i, s.jobn.toNat ≤ i ∨ i ∈ s.pend → slotRead s.mem.out i = none)

/-- `HIST[v]` is the number of `i < N` with `IN[i] = v`, for every symbol (R104). -/
def HistogramComplete (s : State) : Prop := ∀ v : Symbol, countRead s.mem.hist v.toNat = occurrences s v

/-- `OUT[i] = CODE[IN[i]]` for every `i < N`, and no other slot of OUT is written (R164). -/
def RecordsComplete (s : State) : Prop :=
  (∀ i, i < s.jobn.toNat →
    ∃ v c, slotRead s.mem.inp i = some v ∧ slotRead s.mem.code v.toNat = some c ∧ slotRead s.mem.out i = some c) ∧
  (∀ i, s.jobn.toNat ≤ i → slotRead s.mem.out i = none)

end Sys2Proof.Machine
end

