-- ==== Sys2Proof/Certificates/Slice0/Obligations.lean ====
section
/-! DEFINITION. The statements for the provers, each from a rule of spec/. -/

open Sys2Proof Sys2Proof.Machine

/-! ## Reset and registers -/

/-- R40: the state after reset, for every configuration. -/
def Obligations.ResetLeavesTheStatedValues : Prop :=
  ∀ cfg : Config, let s := State.resetWith cfg
    (∀ k, slotRead s.mem.inp k = none) ∧ (∀ k, countRead s.mem.hist k = 0) ∧ (∀ k, slotRead s.mem.code k = none) ∧
    (∀ k, slotRead s.mem.len k = none) ∧ (∀ k, slotRead s.mem.out k = none) ∧
    s.seals.inp = false ∧ s.seals.hist = false ∧ s.seals.code = false ∧ s.seals.len = false ∧ s.seals.out = false ∧
    kindCode s.jobctl = 0 ∧ s.jobn = 0 ∧ s.jobseq = 0 ∧ stCode s.st = 0 ∧ s.session = false ∧
    causeCode s.cause = 0 ∧ s.info = 0 ∧ s.pend = [] ∧ s.held = none

/-- R28, R29, R32, R33, R221: the fields of the control registers and their codes. -/
def Obligations.ControlRegisterFieldsAndCodes : Prop :=
  (∀ s : State,
    cr0Jobctl s = kindCode s.jobctl ∧ cr1Jobn s = s.jobn ∧ cr2Jobseq s = s.jobseq ∧
    (cr3Status s).extractLsb' 0 2 = stCode s.st ∧ (cr3Status s).getLsbD 2 = s.session ∧
    (cr4Fault s).extractLsb' 32 4 = causeCode s.cause ∧ (cr4Fault s).extractLsb' 0 32 = s.info) ∧
  kindCode .none = 0 ∧ kindCode .hist = 1 ∧ kindCode .enc = 2 ∧
  stCode .idle = 0 ∧ stCode .running = 1 ∧ stCode .faulted = 2 ∧
  causeCode .none = 0 ∧ causeCode .unavail = 1 ∧ causeCode .jobfail = 2 ∧ causeCode .illegal = 3 ∧
  causeCode .protocol = 4 ∧ causeCode .range = 5 ∧ causeCode .unwritten = 6 ∧ causeCode .nocode = 7

/-! ## Encoding -/

/-- R93: "`decode(encode(c)) = c` for every command `c`", here for every operation and every operand that can be expressed. -/
def Obligations.DecodeOfEncodeIsTheInstruction : Prop :=
  ∀ (cfg : Config) (i : Instr), i.wf cfg = true → decode cfg (encode i) = .instr i

/-- R93: "`encode(decode(D)) = D` for every `D` with `decode(D) != Illegal`", and what a legal descriptor decodes to is well
formed. -/
def Obligations.EncodeOfDecodeIsTheDescriptor : Prop :=
  ∀ (cfg : Config) (c : Command) (i : Instr), decodeCommand cfg c = .instr i →
    encode i = .command c ∧ i.wf cfg = true ∧ isCommand i = true

/-- R90: the illegal descriptors, exactly, and the fault each raises when it is the held command. -/
def Obligations.IllegalDescriptorsExactly : Prop :=
  (∀ d : Descriptor, (∃ why, decodeHeader d = .illegal why) ↔
    (opcOf d = 0 ∨ 5 ≤ (opcOf d).toNat) ∨
    (opcOf d = 1 ∧ selOf d ≠ 0 ∧ selOf d ≠ 2 ∧ selOf d ≠ 3) ∨
    (opcOf d = 2 ∧ selOf d ≠ 1 ∧ selOf d ≠ 2) ∨
    (opcOf d = 3 ∧ selOf d ≠ 1 ∧ selOf d ≠ 4) ∨
    (opcOf d = 4 ∧ selOf d ≠ 0) ∨
    rsvOf d ≠ 0 ∨
    (opcOf d = 2 ∧ baseOf d ≠ 0) ∨
    (opcOf d = 4 ∧ (baseOf d ≠ 0 ∨ countOf d ≠ 0))) ∧
  (∀ (s : State) (c : Command) (why : Illegal), decodeHeader c.desc = .illegal why → Accepts s →
    RaisesInCommand .illegal (w0Of c.desc) (accepted s) (acceptCommand c s))

/-- R86, R88: descriptors written out from the tables (the spec's vectors V28 and V29) decode as the tables say. -/
def Obligations.SampleDescriptorsDecode : Prop :=
  decodeHeader 0x100000000000000200000001 = .legal .loadIn 2 1 ∧
  decodeHeader 0x120000000000004100000004 = .legal .loadCode 65 4 ∧
  decodeHeader 0x130000000000004100000004 = .legal .loadLen 65 4 ∧
  decodeHeader 0x210000000000000000000007 = .legal .submitHist 0 7 ∧
  decodeHeader 0x220000000000000000000007 = .legal .submitEnc 0 7 ∧
  decodeHeader 0x310000000000000000000100 = .legal .readbackHist 0 256 ∧
  decodeHeader 0x340000000000000000000007 = .legal .readbackOut 0 7 ∧
  decodeHeader 0x400000000000000000000000 = .legal .release 0 0 ∧
  decodeHeader 0x000000000000000000000000 = .illegal .opcode ∧
  decodeHeader 0x140000000000000000000000 = .illegal .selector ∧
  decodeHeader 0x210000000000000100000007 = .illegal .baseNotZero ∧
  decodeHeader 0x400000000000000000000001 = .illegal .countNotZero ∧
  decodeHeader 0x210000010000000000000007 = .illegal .reservedBits ∧
  decodeKind 1 = .instr .hinc ∧ decodeKind 2 = .instr .emit

/-! ## The step and its agents -/

/-- R180, R92: a step that accepts the held command is `exec` of the instruction it decodes to, and the step of a pending
work-item is `exec` of the operation `JOBCTL.KIND` selects, on its registers as created, which do not outlive it. -/
def Obligations.StepRunsTheDecodedInstruction : Prop :=
  (∀ (s : State) (c : Command) (i : Instr), s.cfg.wf = true → s.held = some c → s.st ≠ .running →
    decodeCommand s.cfg c = .instr i → Machine.step s = exec i s) ∧
  (∀ (s : State) (i : Nat) (op : Instr), workItemOperation s.jobctl = some op →
    decodeKind (kindCode s.jobctl) = .instr op ∧
    act (.workItem i) s =
      mapNext (fun t => { t with wi := none })
        (exec op { s with wi := some { idx := BitVec.ofNat 32 i, sym := none, len := none, pat := none } }))

/-- R182, R190, R194, R225, R237, R102, R162: which steps are enabled in which state. That the host takes a response in a
step of its own is the model's choice (DESIGN CHOICE, log entry 12). -/
def Obligations.EnabledStepsExactly : Prop :=
  ∀ s : State,
    (∀ i, Action.workItem i ∈ enabledActions s ↔
      s.st = .running ∧ (s.jobctl = .hist ∨ s.jobctl = .enc) ∧ i ∈ s.pend) ∧
    (Action.complete ∈ enabledActions s ↔ s.st = .running ∧ s.pend = []) ∧
    (Action.jobFail ∈ enabledActions s ↔ s.st = .running) ∧
    (Action.accept ∈ enabledActions s ↔ s.st ≠ .running ∧ s.held ≠ none) ∧
    (Action.host ∈ enabledActions s ↔ s.held = none ∧ (s.response ≠ none ∨ s.orch.script ≠ []))

/-- R60: "every order is allowed": whichever step is enabled, some choice of the schedule takes it, and a step takes no
other. The list of choices is the model's form of the schedule (DESIGN CHOICE, log entry 3). -/
def Obligations.EveryEnabledStepCanBeNext : Prop :=
  (∀ (s : State) (a : Action), s.cfg.wf = true → a ∈ enabledActions s →
    ∃ k : Nat, ∀ ks : List Nat,
      Machine.step { s with env := { s.env with choices := k :: ks } } =
        act a (if (enabledActions s).length = 1 then { s with env := { s.env with choices := k :: ks } }
          else { s with env := { s.env with choices := ks } })) ∧
  (∀ s t : State, Machine.step s = .next t →
    ∃ a ∈ enabledActions s, act a s = .next t ∨ act a (dropChoice s) = .next t)

/-- R242, R279: with no enabled step the machine is at rest; this is so exactly when the block is not running, no command
is held, and the host has neither a response to take nor an action left (the model's stop and its host step, log entries 9
and 12). -/
def Obligations.QuiescentExactlyAtTheEnd : Prop :=
  ∀ s : State, s.cfg.wf = true →
    (Machine.step s = .fault .quiescent ↔
      s.st ≠ .running ∧ s.held = none ∧ s.response = none ∧ s.orch.script = [])

/-- R6, R59, log entry 7: a configuration that breaks a constraint of the parameter table is refused, and no other is. -/
def Obligations.IllFormedConfigurationsAreRefused : Prop :=
  ∀ s : State, Machine.step s = .refused .illFormedConfig ↔
    s.cfg.cntW = 0 ∨ s.cfg.codeW = 0 ∨ s.cfg.lenW = 0 ∨ 2 ^ s.cfg.lenW ≤ s.cfg.codeW ∨ 2 ^ 32 - 1 < s.cfg.cap ∨
    2 ^ s.cfg.cntW - 1 < s.cfg.cap

/-! ## Acceptance of commands -/

/-- R182: a command issued while a job runs is held: it has no effect, no step accepts it, every step keeps it held, and
the steps that end the hold are the completion step and a fault. That exec of a command in a RUNNING block answers the
state as it is, is the model's form of the hold (DESIGN CHOICE, log entry 11). -/
def Obligations.CommandsAreHeldWhileAJobRuns : Prop :=
  (∀ (i : Instr) (s : State), isCommand i = true → i.wf s.cfg = true → s.st = .running → exec i s = .next s) ∧
  (∀ (s t : State) (c : Command), s.st = .running → s.held = some c → Machine.step s = .next t →
    t.held = some c ∧ (t.st ≠ .running → (t.st = .idle ∧ s.pend = []) ∨ t.st = .faulted))

/-- R183: in FAULTED every command, legal or not, responds with the recorded fault and changes nothing. -/
def Obligations.FaultedBlockReportsTheRecordedFault : Prop :=
  ∀ s : State, s.st = .faulted →
    (∀ i : Instr, isCommand i = true → i.wf s.cfg = true →
      exec i s = .next { s with held := none, response := some (.err s.cause s.info) }) ∧
    (∀ w0 : Word, acceptIllegal w0 s = .next { s with held := none, response := some (.err s.cause s.info) })

/-- R184, R224: the first command after reset acquires the accelerator by ENV's draw: a failing draw raises UNAVAIL
whatever the command is, a succeeding one sets SESSION, which no step clears, and after an acquisition no step raises
UNAVAIL. -/
def Obligations.AcquisitionByTheFirstCommand : Prop :=
  (∀ s : State, s.st = .idle → s.session = false → nextDraw s = false →
    (∀ i : Instr, isCommand i = true → i.wf s.cfg = true → RaisesInCommand .unavail 0 (dropDraw s) (exec i s)) ∧
    (∀ w0 : Word, RaisesInCommand .unavail 0 (dropDraw s) (acceptIllegal w0 s))) ∧
  (∀ s : State, Accepts s →
    (∀ i : Instr, isCommand i = true → i.wf s.cfg = true → ∃ t, exec i s = .next t ∧ t.session = true) ∧
    (∀ w0 : Word, ∃ t, acceptIllegal w0 s = .next t ∧ t.session = true)) ∧
  (∀ s t : State, Machine.step s = .next t → s.session = true →
    t.session = true ∧ (t.cause = .unavail → s.cause = .unavail))

/-- R181: every command ends with exactly one response: `ERR` when the command faults or the block is already FAULTED, and
otherwise the form its kind has. -/
def Obligations.EveryCommandEndsWithOneResponse : Prop :=
  ∀ (i : Instr) (s : State), isCommand i = true → i.wf s.cfg = true → s.st ≠ .running →
    ∃ t r, exec i s = .next t ∧ t.held = none ∧ t.response = some r ∧
      (t.st = .faulted → ∃ c info, r = .err c info) ∧
      (t.st ≠ .faulted →
        match i with
        | .loadIn _ _ _ | .loadCode _ _ _ | .loadLen _ _ _ | .release => r = .ok
        | .submitHist _ | .submitEnc _ => r = .okHandle t.jobseq
        | .readbackHist _ count | .readbackOut _ count => ∃ vs, r = .okList vs ∧ vs.length = count.toNat
        | .hinc | .emit => False)

/-! ## The commands -/

/-- R185: LOAD.IN, its encoding, its effect and its faults. -/
def Obligations.LoadInFollowsItsRule : Prop :=
  ∀ (base count : Word) (payload : List Symbol) (s : State), payload.length = count.toNat → Accepts s →
    encode (.loadIn base count payload) =
      .command { desc := descriptor 0x10000000 base count, payload := payload.map BitVec.toNat } ∧
    LoadRule 0x10000000 s.seals.inp s.cfg.cap (fun t => t.mem.inp) (fun b t => { t with mem := { t.mem with inp := b } })
      base count payload (accepted s) (exec (.loadIn base count payload) s)

/-- R186: LOAD.CODE, its encoding, its effect and its faults. -/
def Obligations.LoadCodeFollowsItsRule : Prop :=
  ∀ (base count : Word) (payload : List Nat) (s : State),
    payload.length = count.toNat → (∀ v ∈ payload, v < 2 ^ s.cfg.codeW) → Accepts s →
    encode (.loadCode base count payload) =
      .command { desc := descriptor 0x12000000 base count, payload := payload } ∧
    LoadRule 0x12000000 s.seals.code 256 (fun t => t.mem.code) (fun b t => { t with mem := { t.mem with code := b } })
      base count payload (accepted s) (exec (.loadCode base count payload) s)

/-- R187: LOAD.LEN, its encoding, its effect and its faults. -/
def Obligations.LoadLenFollowsItsRule : Prop :=
  ∀ (base count : Word) (payload : List Nat) (s : State),
    payload.length = count.toNat → (∀ v ∈ payload, v < 2 ^ s.cfg.lenW) → Accepts s →
    encode (.loadLen base count payload) =
      .command { desc := descriptor 0x13000000 base count, payload := payload } ∧
    LoadRule 0x13000000 s.seals.len 256 (fun t => t.mem.len) (fun b t => { t with mem := { t.mem with len := b } })
      base count payload (accepted s) (exec (.loadLen base count payload) s)

/-- R91: a payload of the wrong length or with a value wider than the slot cannot be expressed: a LOAD that carries one is
refused by name, in every state (the model's form of it: DESIGN CHOICE, log entry 8). -/
def Obligations.InexpressiblePayloadsAreRefused : Prop :=
  ∀ (i : Instr) (s : State), i.wf s.cfg = false → exec i s = .refused .payloadNotExpressible

/-- R188: SUBMIT.HIST, its encoding, its effects and its faults in their order; the draw `ok` is ENV's next. -/
def Obligations.SubmitHistFollowsItsRule : Prop :=
  ∀ (n : Word) (s : State), Accepts s →
    let a := accepted s
    let r := exec (.submitHist n) s
    encode (.submitHist n) = .command { desc := descriptor 0x21000000 0 n, payload := [] } ∧
    (s.seals.hist = false → n.toNat ≤ s.cfg.cap → nextDraw a = true →
      ∃ t, r = .next t ∧ (∀ i, i ∈ t.pend ↔ i < n.toNat) ∧ t.pend.Pairwise (· < ·) ∧
        t = { dropDraw a with
          seals := { s.seals with inp := true }
          jobctl := .hist
          jobn := n
          jobseq := s.jobseq + 1
          pend := t.pend
          st := .running
          held := none
          response := some (.okHandle (s.jobseq + 1)) }) ∧
    (s.seals.hist = true → RaisesInCommand .protocol 0x21000000 a r) ∧
    (s.seals.hist = false → s.cfg.cap < n.toNat → RaisesInCommand .range 0x21000000 a r) ∧
    (s.seals.hist = false → n.toNat ≤ s.cfg.cap → nextDraw a = false → RaisesInCommand .jobfail 1 (dropDraw a) r)

/-- R189: SUBMIT.ENC, its encoding, its effects and its faults in their order; the draw `ok` is ENV's next. -/
def Obligations.SubmitEncFollowsItsRule : Prop :=
  ∀ (n : Word) (s : State), Accepts s →
    let a := accepted s
    let r := exec (.submitEnc n) s
    encode (.submitEnc n) = .command { desc := descriptor 0x22000000 0 n, payload := [] } ∧
    (s.seals.out = false → n.toNat ≤ s.cfg.cap → nextDraw a = true →
      ∃ t, r = .next t ∧ (∀ i, i ∈ t.pend ↔ i < n.toNat) ∧ t.pend.Pairwise (· < ·) ∧
        t = { dropDraw a with
          seals := { s.seals with inp := true, code := true, len := true }
          jobctl := .enc
          jobn := n
          jobseq := s.jobseq + 1
          pend := t.pend
          st := .running
          held := none
          response := some (.okHandle (s.jobseq + 1)) }) ∧
    (s.seals.out = true → RaisesInCommand .protocol 0x22000000 a r) ∧
    (s.seals.out = false → s.cfg.cap < n.toNat → RaisesInCommand .range 0x22000000 a r) ∧
    (s.seals.out = false → n.toNat ≤ s.cfg.cap → nextDraw a = false → RaisesInCommand .jobfail 2 (dropDraw a) r)

/-- R191: READBACK.HIST, its encoding, its response and its faults; no state changes. -/
def Obligations.ReadbackHistFollowsItsRule : Prop :=
  ∀ (base count : Word) (s : State), Accepts s →
    let a := accepted s
    let r := exec (.readbackHist base count) s
    encode (.readbackHist base count) = .command { desc := descriptor 0x31000000 base count, payload := [] } ∧
    (s.seals.hist = true → base.toNat + count.toNat ≤ 256 →
      ∃ vs : List Nat, vs.length = count.toNat ∧
        (∀ k, k < count.toNat → vs[k]? = some (countRead s.mem.hist (base.toNat + k))) ∧
        r = .next { a with held := none, response := some (.okList vs) }) ∧
    (s.seals.hist = false → RaisesInCommand .protocol 0x31000000 a r) ∧
    (s.seals.hist = true → 256 < base.toNat + count.toNat → RaisesInCommand .range 0x31000000 a r)

/-- R192: READBACK.OUT, its encoding, its response and its faults; UNWRITTEN carries the least unwritten slot of the
range. The premise on CAP is a constraint of R6. -/
def Obligations.ReadbackOutFollowsItsRule : Prop :=
  ∀ (base count : Word) (s : State), s.cfg.cap ≤ 2 ^ 32 - 1 → Accepts s →
    let a := accepted s
    let r := exec (.readbackOut base count) s
    encode (.readbackOut base count) = .command { desc := descriptor 0x34000000 base count, payload := [] } ∧
    (s.seals.out = true → base.toNat + count.toNat ≤ s.cfg.cap →
      (∀ k, k < count.toNat → slotRead s.mem.out (base.toNat + k) ≠ none) →
      ∃ vs : List Nat, vs.length = count.toNat ∧
        (∀ k, k < count.toNat → vs[k]? = slotRead s.mem.out (base.toNat + k)) ∧
        r = .next { a with held := none, response := some (.okList vs) }) ∧
    (s.seals.out = false → RaisesInCommand .protocol 0x34000000 a r) ∧
    (s.seals.out = true → s.cfg.cap < base.toNat + count.toNat → RaisesInCommand .range 0x34000000 a r) ∧
    (∀ k, s.seals.out = true → base.toNat + count.toNat ≤ s.cfg.cap → k < count.toNat →
      slotRead s.mem.out (base.toNat + k) = none →
      (∀ j, j < k → slotRead s.mem.out (base.toNat + j) ≠ none) →
      ∃ info : Word, info.toNat = base.toNat + k ∧ RaisesInCommand .unwritten info a r)

/-- R193: RELEASE, its encoding and its effects; `JOBSEQ`, `SESSION` and `FAULT` are not changed by the rule. -/
def Obligations.ReleaseFollowsItsRule : Prop :=
  encode .release = .command { desc := descriptor 0x40000000 0 0, payload := [] } ∧
  ∀ s : State, Accepts s →
    ∃ t, exec .release s = .next t ∧
      (∀ k, slotRead t.mem.inp k = none ∧ slotRead t.mem.out k = none ∧ slotRead t.mem.code k = none ∧
        slotRead t.mem.len k = none ∧ countRead t.mem.hist k = 0) ∧
      t = { accepted s with
        mem := t.mem
        seals := { inp := false, hist := false, code := false, len := false, out := false }
        jobctl := .none
        jobn := 0
        pend := []
        held := none
        response := some .ok }

/-! ## The work-items, the completion step, ENV's failure -/

/-- R102: HINC of the work-item whose registers are `w`, its effect and its fault; the premise that the sum fits is R59's
unreachable case left out (see `HincOverflowLeavesAFreeCount`). -/
def Obligations.HincFollowsItsRule : Prop :=
  ∀ (s : State) (w : WorkItem), s.wi = some w → s.st = .running → s.jobctl = .hist → w.idx.toNat ∈ s.pend →
    (∀ v : Symbol, slotRead s.mem.inp w.idx.toNat = some v → countRead s.mem.hist v.toNat + 1 < 2 ^ s.cfg.cntW →
      ∃ t, exec .hinc s = .next t ∧
        countRead t.mem.hist v.toNat = countRead s.mem.hist v.toNat + 1 ∧
        (∀ k, k ≠ v.toNat → countRead t.mem.hist k = countRead s.mem.hist k) ∧
        (∀ i, i ∈ t.pend ↔ i ∈ s.pend ∧ i ≠ w.idx.toNat) ∧
        t = { s with
          mem := { s.mem with hist := t.mem.hist }
          pend := t.pend
          wi := some { w with sym := some v } }) ∧
    (slotRead s.mem.inp w.idx.toNat = none → RaisesInJob .unwritten w.idx s (exec .hinc s))

/-- R59, log entry 6 (the model's choice): where the incremented count does not fit, which no run reaches, HINC still
completes; the slot holds a free value of its width and everything else is as in R102. -/
def Obligations.HincOverflowLeavesAFreeCount : Prop :=
  ∀ (s : State) (w : WorkItem) (v : Symbol), s.wi = some w → s.st = .running → s.jobctl = .hist →
    w.idx.toNat ∈ s.pend → slotRead s.mem.inp w.idx.toNat = some v →
    2 ^ s.cfg.cntW ≤ countRead s.mem.hist v.toNat + 1 →
    ∃ t, exec .hinc s = .next t ∧ countRead t.mem.hist v.toNat < 2 ^ s.cfg.cntW ∧
      (∀ k, k ≠ v.toNat → countRead t.mem.hist k = countRead s.mem.hist k) ∧
      (∀ i, i ∈ t.pend ↔ i ∈ s.pend ∧ i ≠ w.idx.toNat) ∧
      t = { s with
        mem := { s.mem with hist := t.mem.hist }
        pend := t.pend
        wi := some { w with sym := some v }
        env := { s.env with fresh := s.env.fresh + 1 } }

/-- R59: in a state that meets the invariant no pending work-item of a histogram job can overflow its count. -/
def Obligations.CountsNeverOverflow : Prop :=
  ∀ (s : State) (i : Nat) (v : Symbol), Inv s → s.st = .running → s.jobctl = .hist → i ∈ s.pend →
    slotRead s.mem.inp i = some v → countRead s.mem.hist v.toNat + 1 < 2 ^ s.cfg.cntW

/-- R162, R163: EMIT of the work-item whose registers are `w`, its effect and its faults in their order; the length read
has no influence. At NOCODE the work-item's registers are as before too: R162 writes x[1] before it raises, R232 gives the
raising step no other effect; the model follows R232 (DEDUCED, log entry 10). -/
def Obligations.EmitFollowsItsRule : Prop :=
  ∀ (s : State) (w : WorkItem), s.wi = some w → s.st = .running → s.jobctl = .enc → w.idx.toNat ∈ s.pend →
    (∀ (v : Symbol) (l c : Nat), slotRead s.mem.inp w.idx.toNat = some v → slotRead s.mem.len v.toNat = some l →
      slotRead s.mem.code v.toNat = some c →
      ∃ t, exec .emit s = .next t ∧
        slotRead t.mem.out w.idx.toNat = some c ∧
        (∀ k, k ≠ w.idx.toNat → slotRead t.mem.out k = slotRead s.mem.out k) ∧
        (∀ i, i ∈ t.pend ↔ i ∈ s.pend ∧ i ≠ w.idx.toNat) ∧
        t = { s with
          mem := { s.mem with out := t.mem.out }
          pend := t.pend
          wi := some { w with sym := some v, len := some l, pat := some c } }) ∧
    (slotRead s.mem.inp w.idx.toNat = none → RaisesInJob .unwritten w.idx s (exec .emit s)) ∧
    (∀ v : Symbol, slotRead s.mem.inp w.idx.toNat = some v →
      (slotRead s.mem.len v.toNat = none ∨ slotRead s.mem.code v.toNat = none) →
      ∃ info : Word, info.toNat = v.toNat ∧ RaisesInJob .nocode info s (exec .emit s))

/-- R102, R162 "Enabled", log entry 10: where its work-item is not enabled a work-item operation has no step. -/
def Obligations.WorkItemOperationsNeedTheirWorkItem : Prop :=
  ∀ s : State,
    ((¬ ∃ w, s.wi = some w ∧ s.st = .running ∧ s.jobctl = .hist ∧ w.idx.toNat ∈ s.pend) →
      exec .hinc s = .fault .workItemNotEnabled) ∧
    ((¬ ∃ w, s.wi = some w ∧ s.st = .running ∧ s.jobctl = .enc ∧ w.idx.toNat ∈ s.pend) →
      exec .emit s = .fault .workItemNotEnabled)

/-- R58: AtomicInc reads, adds 1 and writes back one slot in one step, loses no update, and touches no other slot. -/
def Obligations.AtomicIncrementLosesNoUpdate : Prop :=
  ∀ (s : State) (u v : Symbol),
    countRead s.mem.hist u.toNat + 2 < 2 ^ s.cfg.cntW → countRead s.mem.hist v.toNat + 2 < 2 ^ s.cfg.cntW →
    let t := atomicInc v (atomicInc u s)
    (∀ x : Symbol, countRead t.mem.hist x.toNat =
      countRead s.mem.hist x.toNat + (if x = u then 1 else 0) + (if x = v then 1 else 0)) ∧
    t = { s with mem := { s.mem with hist := t.mem.hist } }

/-- R190: the completion step: enabled exactly when the job runs and nothing is pending; it seals the job's output and
leaves everything else; the held command, if any, is what can step next. -/
def Obligations.CompletionStepFollowsItsRule : Prop :=
  ∀ s : State,
    (Action.complete ∈ enabledActions s ↔ s.st = .running ∧ s.pend = []) ∧
    (s.jobctl = .hist → act .complete s = .next { s with seals := { s.seals with hist := true }, st := .idle }) ∧
    (s.jobctl = .enc → act .complete s = .next { s with seals := { s.seals with out := true }, st := .idle }) ∧
    (∀ t, s.held ≠ none → act .complete s = .next t → enabledActions t = [.accept])

/-- R225 (b), R232: ENV's failure of a running job raises JOBFAIL with the job kind and has no other effect. -/
def Obligations.RunningJobCanFail : Prop :=
  ∀ s : State, s.st = .running →
    Action.jobFail ∈ enabledActions s ∧
    (s.jobctl = .hist → RaisesInJob .jobfail 1 s (act .jobFail s)) ∧
    (s.jobctl = .enc → RaisesInJob .jobfail 2 s (act .jobFail s))

/-- R105, R166: a job over no element has no work-item; its completion step is enabled at once. -/
def Obligations.EmptyJobsCompleteAtOnce : Prop :=
  ∀ s t : State, Accepts s → t.st = .running → (exec (.submitHist 0) s = .next t ∨ exec (.submitEnc 0) s = .next t) →
    t.pend = [] ∧ Action.complete ∈ enabledActions t ∧ t.mem = s.mem ∧
    ∃ u, act .complete t = .next u ∧ u.st = .idle ∧ u.mem = s.mem ∧
      (t.jobctl = .hist → u.seals.hist = true) ∧ (t.jobctl = .enc → u.seals.out = true)

/-! ## Faults -/

/-- R232: fault entry records the first fault and makes the block FAULTED, and a step that raises a fault has no other
effect: a faulting command writes no slot, launches no job and changes no register except FAULT and ST, and SESSION when
the acquisition succeeded in the same command; a faulting work-item writes no slot and stays pending. The third clause
says it of every step, so of illegal descriptors and ENV's failure too. -/
def Obligations.FaultingStepsHaveNoOtherEffect : Prop :=
  (∀ (x : FaultCause) (info : Word) (s : State),
    (s.cause = .none → faultEntry x info s = { s with cause := x, info := info, st := .faulted }) ∧
    (s.cause ≠ .none → faultEntry x info s = { s with st := .faulted })) ∧
  (∀ (i : Instr) (s t : State), exec i s = .next t → s.st ≠ .faulted → t.st = .faulted →
    t.mem = s.mem ∧ t.seals = s.seals ∧ t.jobctl = s.jobctl ∧ t.jobn = s.jobn ∧ t.jobseq = s.jobseq ∧
    t.pend = s.pend ∧ t.wi = s.wi ∧ t.cfg = s.cfg ∧ t.orch = s.orch ∧
    (Accepts s → t.session = true) ∧ (¬ Accepts s → t.session = s.session) ∧
    (isCommand i = true → t.held = none ∧ ∃ x info, t.response = some (.err x info)) ∧
    (isCommand i = false → t.held = s.held ∧ t.response = s.response)) ∧
  (∀ s t : State, Machine.step s = .next t → s.st ≠ .faulted → t.st = .faulted →
    t.mem = s.mem ∧ t.seals = s.seals ∧ t.jobctl = s.jobctl ∧ t.jobn = s.jobn ∧ t.jobseq = s.jobseq ∧
    t.pend = s.pend ∧ t.cfg = s.cfg ∧ t.orch = s.orch ∧
    ((s.held ≠ none ∧ Accepts s) → t.session = true) ∧ (¬ (s.held ≠ none ∧ Accepts s) → t.session = s.session))

/-- R233, R237, R33: nothing leaves FAULTED and nothing of the block changes there; only the host and the acceptance of
commands still move; the first fault recorded is never overwritten or cleared. -/
def Obligations.FaultsAreFinal : Prop :=
  (∀ s t : State, Machine.step s = .next t → s.st = .faulted →
    t.st = .faulted ∧ t.cause = s.cause ∧ t.info = s.info ∧ t.mem = s.mem ∧ t.seals = s.seals ∧
    t.jobctl = s.jobctl ∧ t.jobn = s.jobn ∧ t.jobseq = s.jobseq ∧ t.session = s.session ∧ t.pend = s.pend) ∧
  (∀ (s : State) (a : Action), s.st = .faulted → a ∈ enabledActions s → a = .accept ∨ a = .host) ∧
  (∀ s t : State, Machine.step s = .next t → s.cause ≠ .none → t.cause = s.cause ∧ t.info = s.info)

/-! ## Whole-machine rules -/

/-- R32, R184: the transitions of `ST` and of `SESSION`, which goes from 0 to 1 only where a held command is accepted and
ENV's draw succeeds; a step into FAULTED leaves a fault recorded; R6, R39: no step changes the parameters. -/
def Obligations.StatusTransitionsAndParameters : Prop :=
  ∀ s t : State, Machine.step s = .next t →
    (s.st = .idle → t.st = .running → t.jobseq = s.jobseq + 1) ∧
    (s.st = .running → t.st = .idle → s.pend = [] ∧ t.seals = sealOutput s.jobctl s.seals) ∧
    (s.st = .faulted → t.st = .faulted) ∧
    (s.st ≠ .faulted → t.st = .faulted → t.cause ≠ .none) ∧
    (s.session = true → t.session = true) ∧
    (s.session = false → t.session = true → s.st = .idle ∧ s.held ≠ none ∧ nextDraw s = true) ∧
    t.cfg = s.cfg

/-- R31: `JOBSEQ` is 0 at reset, each successful SUBMIT adds 1 to it modulo 2^32 and returns the new value, and nothing
else changes it. -/
def Obligations.JobsAreNumbered : Prop :=
  (∀ cfg : Config, (State.resetWith cfg).jobseq = 0) ∧
  ∀ s t : State, Machine.step s = .next t →
    (t.jobseq ≠ s.jobseq ↔ s.st = .idle ∧ t.st = .running) ∧
    (s.st = .idle → t.st = .running →
      t.jobseq.toNat = (s.jobseq.toNat + 1) % 2 ^ 32 ∧ t.response = some (.okHandle t.jobseq))

/-- R53, R161, R195: while a job runs nobody touches IN, CODE or LEN; HIST changes only in a histogram job and OUT only in
an encode job. -/
def Obligations.RunningJobsKeepTheirInputs : Prop :=
  ∀ s t : State, Machine.step s = .next t → s.st = .running →
    t.mem.inp = s.mem.inp ∧ t.mem.code = s.mem.code ∧ t.mem.len = s.mem.len ∧
    (s.jobctl ≠ .hist → t.mem.hist = s.mem.hist) ∧ (s.jobctl ≠ .enc → t.mem.out = s.mem.out)

/-- R41, the launch states have the invariant (R260, R40). -/
def Obligations.LaunchStatesHaveTheInvariant : Prop := ∀ s : State, Launch s → Inv s

/-- R41: every step keeps the invariant, from every state that has it. -/
def Obligations.EveryStepKeepsTheInvariant : Prop := ∀ s t : State, Inv s → Machine.step s = .next t → Inv t

/-- R41: the ten items hold in every reachable state. -/
def Obligations.ReachableStatesSatisfyR41 : Prop := ∀ s : State, Reachable s → R41 s

/-- R26: a sealed buffer is not written: every step leaves a sealed buffer as it is and sealed, but for the acceptance of
RELEASE, after which every buffer and every tag is fresh. -/
def Obligations.SealedBuffersAreFinal : Prop :=
  ∀ s t : State, Inv s → Machine.step s = .next t →
    (ReleaseIsAccepted s ∧ t.mem = Memory.fresh ∧ t.seals = Seals.fresh) ∨
    ((s.seals.inp = true → t.mem.inp = s.mem.inp ∧ t.seals.inp = true) ∧
     (s.seals.hist = true → t.mem.hist = s.mem.hist ∧ t.seals.hist = true) ∧
     (s.seals.code = true → t.mem.code = s.mem.code ∧ t.seals.code = true) ∧
     (s.seals.len = true → t.mem.len = s.mem.len ∧ t.seals.len = true) ∧
     (s.seals.out = true → t.mem.out = s.mem.out ∧ t.seals.out = true))

/-- R21, R67: a written slot of IN, CODE, LEN or OUT keeps its value through every step but the acceptance of
RELEASE. -/
def Obligations.SlotsAreWrittenOncePerRun : Prop :=
  ∀ s t : State, Inv s → RecordsSoFar s → Machine.step s = .next t →
    (ReleaseIsAccepted s ∧ t.mem = Memory.fresh ∧ t.seals = Seals.fresh) ∨
    ((∀ k v, slotRead s.mem.inp k = some v → slotRead t.mem.inp k = some v) ∧
     (∀ k v, slotRead s.mem.code k = some v → slotRead t.mem.code k = some v) ∧
     (∀ k v, slotRead s.mem.len k = some v → slotRead t.mem.len k = some v) ∧
     (∀ k v, slotRead s.mem.out k = some v → slotRead t.mem.out k = some v))

/-- R103: every step keeps the running invariant of the histogram job, and of the encode job (R162). -/
def Obligations.EveryStepKeepsTheJobInvariants : Prop :=
  ∀ s t : State, Inv s → HistogramSoFar s → RecordsSoFar s → Machine.step s = .next t →
    HistogramSoFar t ∧ RecordsSoFar t

/-- R104: in every reachable state in which a histogram job has nothing left to do, HIST holds the number of occurrences of
every symbol, whatever the schedule was. -/
def Obligations.HistogramJobsCountEverySymbol : Prop :=
  ∀ s : State, Reachable s → s.st = .running → s.jobctl = .hist → s.pend = [] →
    ∃ t, act .complete s = .next t ∧ HistogramComplete t ∧ t.seals.hist = true

/-- R164: in every reachable state in which an encode job has nothing left to do, OUT is the table applied to the input,
position by position, and nothing more, whatever the schedule was. -/
def Obligations.EncodeJobsWriteEveryRecord : Prop :=
  ∀ s : State, Reachable s → s.st = .running → s.jobctl = .enc → s.pend = [] →
    ∃ t, act .complete s = .next t ∧ RecordsComplete t ∧ t.seals.out = true

/-- R63, R101, R161: two work-items of one job that do not fault may step in either order: the state reached is the same. -/
def Obligations.WorkItemsCommute : Prop :=
  ∀ (s a b : State) (i j : Nat), Inv s → s.st = .running → i ∈ s.pend → j ∈ s.pend → i ≠ j →
    act (.workItem i) s = .next a → a.st = .running → act (.workItem j) a = .next b → b.st = .running →
    ∃ a', act (.workItem j) s = .next a' ∧ act (.workItem i) a' = .next b

/-- R277, R182: no job stays RUNNING for ever and every execution is weakly fair, whatever the schedule, the draws and the
faults are. A job ends within one step a pending position, one for its end, and the steps the host can take before it
waits for a command; with a command held, within one step a pending position and one more, the command being held till
then. R277 assumes fairness; that it need not be assumed comes from the model's form of the schedule (log entry 3). -/
def Obligations.JobsEndAndExecutionsAreFair : Prop :=
  (∀ s : State, Inv s → s.st = .running →
    ∃ k ≤ s.pend.length + s.orch.script.length + 3, ∃ t,
      Host.Core.run Sys2Proof.core k s = .next t ∧ t.st ≠ .running) ∧
  (∀ s : State, Inv s → s.st = .running → s.held ≠ none →
    ∃ k ≤ s.pend.length + 1, ∃ t, Host.Core.run Sys2Proof.core k s = .next t ∧ t.st ≠ .running ∧ t.held = s.held) ∧
  (∀ e : Nat → State, Execution e → (∀ n, ∃ m, n ≤ m ∧ (e m).st ≠ .running) ∧ WeaklyFair e)

/-- R165: if every position of the job is loaded and every symbol that occurs has both its entries, no EMIT step faults. -/
def Obligations.EncodeJobsWithFullTablesDoNotFault : Prop :=
  ∀ (s : State) (i : Nat), Inv s → s.st = .running → s.jobctl = .enc → i ∈ s.pend →
    (∀ k, k < s.jobn.toNat → ∃ v l c, slotRead s.mem.inp k = some v ∧ slotRead s.mem.len v.toNat = some l ∧
      slotRead s.mem.code v.toNat = some c) →
    ∃ t, act (.workItem i) s = .next t ∧ t.st = .running ∧ t.cause = s.cause

/-! ## The host -/

/-- R194, R240: the host takes no action while a command of its is outstanding; it takes the response first; at `ERR` a host
that aborts drops the rest of its commands; and its steps change nothing of the block, but for the command it issues. That
taking a response is a step of its own, that a host that aborts drops its whole script, where R194 says only "no further
command in this pipeline", and that a host may go on at `ERR`, are the model's (DESIGN CHOICE, log entries 12 and 13). -/
def Obligations.HostWaitsForEachResponse : Prop :=
  (∀ (s : State) (c : Command), s.held = some c → Action.host ∉ enabledActions s) ∧
  (∀ (s : State) (r : Response), s.response = some r →
    (orchStep s).response = none ∧ (orchStep s).held = s.held ∧ (orchStep s).orch.log = s.orch.log ++ [r]) ∧
  (∀ (s : State) (x : FaultCause) (info : Word), s.response = some (.err x info) → s.orch.abortOnErr = true →
    (orchStep s).orch.script = [] ∧ (orchStep s).orch.stop = some (.error x info)) ∧
  (∀ s : State, (orchStep s).mem = s.mem ∧ (orchStep s).seals = s.seals ∧ (orchStep s).st = s.st ∧
    (orchStep s).cause = s.cause ∧ (orchStep s).pend = s.pend ∧ (orchStep s).session = s.session ∧
    (orchStep s).jobctl = s.jobctl ∧ (orchStep s).jobn = s.jobn ∧ (orchStep s).jobseq = s.jobseq ∧
    (orchStep s).info = s.info ∧ (orchStep s).cfg = s.cfg ∧ (orchStep s).wi = s.wi ∧ (orchStep s).env = s.env ∧
    ((orchStep s).held = s.held ∨
      ∃ c b rest, s.response = none ∧ s.orch.script = .issue c b :: rest ∧ (orchStep s).held = some c))

/-- R146, R196 steps 0 and 6: an input longer than CAP, or a code longer than `CODE_W`, ends the PIPELINE with a refusal,
after RELEASE in the second case. R146 and R196 say so of the PIPELINE only; that the refusal also drops whatever the
host's script has after it, and that the host takes step 0 and the refusal in steps of its own, is the model's choice
(DESIGN CHOICE, log entry 14). -/
def Obligations.HostRefusesWhatDoesNotFit : Prop :=
  (∀ (s : State) (text : List Symbol) (rest : List OrchOp), s.response = none →
    s.orch.script = .pipeline text :: rest → s.cfg.cap < text.length →
    (orchStep s).held = s.held ∧ (orchStep (orchStep s)).held = s.held ∧
    (orchStep (orchStep s)).orch.stop = some (.refused .inputTooLong) ∧ (orchStep (orchStep s)).orch.script = []) ∧
  (∀ (s : State) (rest : List OrchOp), s.response = none → s.orch.script = .checkTable :: rest →
    ((∃ p ∈ s.orch.table, s.cfg.codeW < p.2.length) →
      (orchStep s).orch.script =
        [.issue { desc := descriptor 0x40000000 0 0, payload := [] } .discard, .refuse .codeTooLong]) ∧
    ((∀ p ∈ s.orch.table, p.2.length ≤ s.cfg.codeW) → (orchStep s).orch.script = rest))

/-! ## The host procedures -/

/-- R124: `insert` into a queue in non-decreasing order puts the node behind every node of at most its frequency and before
every other, and keeps the order. -/
def Obligations.QueueInsertIsStable : Prop :=
  ∀ (q : List HuffmanNode) (n : HuffmanNode), q.Pairwise (fun a b => a.freq ≤ b.freq) →
    queueInsert q n =
      q.filter (fun a => decide (a.freq ≤ n.freq)) ++ n :: q.filter (fun a => decide (n.freq < a.freq)) ∧
    (queueInsert q n).Pairwise (fun a b => a.freq ≤ b.freq)

/-- R125: "After seeding, the queue lists the present symbols sorted by (frequency, symbol)." -/
def Obligations.SeedingOrdersByFrequencyThenSymbol : Prop :=
  ∀ f : List Nat,
    (seedQueue f).Pairwise (fun a b => ∃ s w t v, a = .leaf s w ∧ b = .leaf t v ∧ (w < v ∨ (w = v ∧ s.toNat < t.toNat))) ∧
    (∀ a, a ∈ seedQueue f ↔ ∃ s : Symbol, a = .leaf s (tableCount f s.toNat) ∧ 0 < tableCount f s.toNat)

/-- R127, R122: what BUILD_TREE answers by the number of present symbols: NoTree, the one leaf, or an internal root, built by
one merge less than there are present symbols; its frequency is the sum of all counts, its leaves are exactly the present
symbols, each once, and every internal frequency is the sum of its children's. -/
def Obligations.BuildTreeHasThePresentSymbolsAsLeaves : Prop :=
  ∀ f : List Nat,
    let present := (List.range 256).filter (fun s => decide (0 < tableCount f s))
    (present.length = 0 → buildTree f = none) ∧
    (∀ s, present = [s] → buildTree f = some (.leaf (BitVec.ofNat 8 s) (tableCount f s))) ∧
    (2 ≤ present.length → ∃ w l r, buildTree f = some (.internal w l r) ∧
      merges (.internal w l r) = present.length - 1) ∧
    (∀ t, buildTree f = some t →
      sumNodes t = true ∧ t.freq = (present.map (tableCount f)).sum ∧
      (leaves t).Perm (present.map (fun s => (BitVec.ofNat 8 s, tableCount f s))))

/-- R143, R144, R141: the two special cases of GEN_CODES, and the traversal of an internal root for a tree of two leaves'
subtrees: the left subtree's codes begin with 0, the right one's with 1. -/
def Obligations.GenCodesSpecialCases : Prop :=
  genCodes none = [] ∧
  (∀ (s : Symbol) (w k : Nat), slotRead (genCodes (some (.leaf s w))) k =
    if k = s.toNat then some { pattern := 0, length := 1 } else none) ∧
  (∀ (s t : Symbol) (u v w : Nat), s ≠ t →
    slotRead (genCodes (some (.internal w (.leaf s u) (.leaf t v)))) s.toNat = some { pattern := 0, length := 1 } ∧
    slotRead (genCodes (some (.internal w (.leaf s u) (.leaf t v)))) t.toNat = some { pattern := 1, length := 1 })

/-- R133, R149: the source's worked example "AABCBAD": the tree and the code table. -/
def Obligations.WorkedExampleTreeAndTable : Prop :=
  let f := (List.range 256).map (fun s => if s = 65 then 3 else if s = 66 then 2 else if s = 67 ∨ s = 68 then 1 else 0)
  buildTree f = some (.internal 7 (.leaf 65 3) (.internal 4 (.leaf 66 2) (.internal 2 (.leaf 67 1) (.leaf 68 1)))) ∧
  codesOf f = [(65, { pattern := 0, length := 1 }), (66, { pattern := 2, length := 2 }),
    (67, { pattern := 6, length := 3 }), (68, { pattern := 7, length := 3 })]

/-- R145 items 1 and 2: the domain of the code table is the set of present symbols, every code has at least one bit and at
most 255, and its pattern fits its length. -/
def Obligations.CodeTableHasThePresentSymbols : Prop :=
  ∀ (f : List Nat) (s : Nat), s < 256 →
    ((∃ w, slotRead (codesOf f) s = some w) ↔ 0 < tableCount f s) ∧
    (∀ w, slotRead (codesOf f) s = some w → 1 ≤ w.length ∧ w.length ≤ 255 ∧ w.pattern < 2 ^ w.length)

/-- R145 item 3, R151 item 1: every code table is prefix-free. -/
def Obligations.CodeTablesArePrefixFree : Prop := ∀ f : List Nat, PrefixFree (codesOf f)

/-- R150, R151 item 2: the round-trip law, for every text over symbols of the table. -/
def Obligations.RoundTripLaw : Prop :=
  ∀ (f : List Nat) (text : List Symbol), (∀ s ∈ text, 0 < tableCount f s.toNat) →
    ∃ w, codeStream (codesOf f) text = some w ∧ decodeStream (codesOf f) w = some text

/-! ## The pipeline -/

/-- R197, R196: a run of PIPELINE from a launch state, under any schedule and any draws, that ends well and was not refused,
gives the host the counts of the text, the code table of those counts, and one record a position holding the pattern of
its symbol, and leaves the block as after reset but for `JOBSEQ` and `SESSION`. -/
def Obligations.PipelineGivesItsResult : Prop :=
  ∀ (s t : State) (text : List Symbol), Launch s → s.orch = { Orchestrator.idle with script := [.pipeline text] } →
    RunsTo s t → EndedWell t → t.orch.stop = none →
    t.orch.counts = (List.range 256).map (fun v => text.countP (fun x => x.toNat == v)) ∧
    t.orch.table = codesOf t.orch.counts ∧
    t.orch.records.length = text.length ∧
    (∀ (i : Nat) (v : Symbol), text[i]? = some v →
      ∃ w, slotRead t.orch.table v.toNat = some w ∧ t.orch.records[i]? = some w.pattern) ∧
    t.mem = Memory.fresh ∧ t.seals = Seals.fresh ∧ t.jobctl = .none ∧ t.jobn = 0 ∧ t.pend = [] ∧
    t.st = .idle ∧ t.info = 0 ∧ t.jobseq = 2 ∧ t.session = true
end

