-- ==== Sys2Proof/Laws/Decode.lean ====
section
/-! SUPPORT. The fields of a descriptor built from its words, the words of a descriptor, and what a legal descriptor looks
like: the small lemmas from which the round trips of R93 follow. -/

namespace Sys2Proof

@[simp] theorem baseOf_descriptor (w b c : Word) : baseOf (descriptor w b c) = b := by
  ext i hi
  simp [baseOf, descriptor]
  grind

@[simp] theorem countOf_descriptor (w b c : Word) : countOf (descriptor w b c) = c := by
  ext i hi
  simp [countOf, descriptor]
  grind

@[simp] theorem w0Of_descriptor (w b c : Word) : w0Of (descriptor w b c) = w := by
  ext i hi
  simp [w0Of, descriptor]
  grind

theorem opcOf_descriptor (w b c : Word) : opcOf (descriptor w b c) = w.extractLsb' 28 4 := by
  ext i hi
  simp [opcOf, descriptor]
  grind

theorem selOf_descriptor (w b c : Word) : selOf (descriptor w b c) = w.extractLsb' 24 4 := by
  ext i hi
  simp [selOf, descriptor]
  grind

theorem rsvOf_descriptor (w b c : Word) : rsvOf (descriptor w b c) = w.extractLsb' 0 24 := by
  ext i hi
  simp [rsvOf, descriptor]
  grind

/-- A descriptor is its three words. -/
theorem descriptor_words (d : Descriptor) : descriptor (w0Of d) (baseOf d) (countOf d) = d := by
  ext i hi
  simp [descriptor, w0Of, baseOf, countOf]
  grind

/-- The first word is its three fields. -/
theorem w0Of_fields (d : Descriptor) : w0Of d = (opcOf d ++ selOf d ++ rsvOf d : BitVec (4 + 4 + 24)) := by
  ext i hi
  simp [opcOf, selOf, w0Of, rsvOf]
  grind

/-! ## The opcode map -/

/-- The `(OPC, SEL)` of a command's W0 select that command, and its reserved bits are 0. -/
theorem selectCommand_w0 (n : CommandName) :
    selectCommand (n.w0.extractLsb' 28 4) (n.w0.extractLsb' 24 4) = .inl n ∧ n.w0.extractLsb' 0 24 = 0 := by
  cases n <;> decide

/-- The fields that select a command are those of its W0. -/
theorem w0_of_selectCommand (opc sel : BitVec 4) (n : CommandName) (h : selectCommand opc sel = .inl n) :
    (opc ++ sel ++ (0 : BitVec 24) : BitVec (4 + 4 + 24)) = n.w0 := by
  revert opc sel
  cases n <;> decide

/-- Decoding a command's descriptor. -/
theorem decodeHeader_descriptor (n : CommandName) (b c : Word) (h : checkOperands n b c = none) :
    decodeHeader (descriptor n.w0 b c) = .legal n b c := by
  have hs := selectCommand_w0 n
  simp [decodeHeader, rsvOf_descriptor, opcOf_descriptor, selOf_descriptor, hs.1, hs.2, h]

/-- A legal descriptor is the one that its command name and operand fields give. -/
theorem descriptor_of_legal {d : Descriptor} {n : CommandName} {b c : Word} (h : decodeHeader d = .legal n b c) :
    d = descriptor n.w0 b c ∧ checkOperands n b c = none := by
  unfold decodeHeader at h
  split at h
  · rename_i hr
    split at h
    · simp at h
    · rename_i m hm
      split at h
      · simp at h
      · rename_i hc
        simp only [Header.legal.injEq] at h
        obtain ⟨rfl, rfl, rfl⟩ := h
        have hw := w0_of_selectCommand _ _ _ hm
        refine ⟨?_, hc⟩
        conv_lhs => rw [← descriptor_words d, w0Of_fields d, hr]
        rw [hw]
  · simp at h

/-- The encoder's command decodes to its name and operand fields. -/
theorem decodeHeader_commandOf (n : CommandName) (b c : Word) (p : List Nat) (h : checkOperands n b c = none) :
    decodeHeader (commandOf n b c p).desc = .legal n b c := decodeHeader_descriptor n b c h

end Sys2Proof
end

