-- ==== Sys2Proof/Laws/State.lean ====
section
/-! SUPPORT. One lemma for each field of State after each update, so that no later proof unfolds a record update. -/

namespace Sys2Proof.Machine

/-! ## Machine/Ops.lean: responses, acquisition and draws -/

@[simp] theorem respond_mem (r : Response) (s : State) : (respond r s).mem = s.mem := rfl
@[simp] theorem respond_seals (r : Response) (s : State) : (respond r s).seals = s.seals := rfl
@[simp] theorem respond_jobctl (r : Response) (s : State) : (respond r s).jobctl = s.jobctl := rfl
@[simp] theorem respond_jobn (r : Response) (s : State) : (respond r s).jobn = s.jobn := rfl
@[simp] theorem respond_jobseq (r : Response) (s : State) : (respond r s).jobseq = s.jobseq := rfl
@[simp] theorem respond_st (r : Response) (s : State) : (respond r s).st = s.st := rfl
@[simp] theorem respond_session (r : Response) (s : State) : (respond r s).session = s.session := rfl
@[simp] theorem respond_cause (r : Response) (s : State) : (respond r s).cause = s.cause := rfl
@[simp] theorem respond_info (r : Response) (s : State) : (respond r s).info = s.info := rfl
@[simp] theorem respond_pend (r : Response) (s : State) : (respond r s).pend = s.pend := rfl
@[simp] theorem respond_held (r : Response) (s : State) : (respond r s).held = none := rfl
@[simp] theorem respond_wi (r : Response) (s : State) : (respond r s).wi = s.wi := rfl
@[simp] theorem respond_cfg (r : Response) (s : State) : (respond r s).cfg = s.cfg := rfl
@[simp] theorem respond_response (r : Response) (s : State) : (respond r s).response = some r := rfl
@[simp] theorem respond_orch (r : Response) (s : State) : (respond r s).orch = s.orch := rfl
@[simp] theorem respond_env (r : Response) (s : State) : (respond r s).env = s.env := rfl
@[simp] theorem openSession_mem (s : State) : (openSession s).mem = s.mem := rfl
@[simp] theorem openSession_seals (s : State) : (openSession s).seals = s.seals := rfl
@[simp] theorem openSession_jobctl (s : State) : (openSession s).jobctl = s.jobctl := rfl
@[simp] theorem openSession_jobn (s : State) : (openSession s).jobn = s.jobn := rfl
@[simp] theorem openSession_jobseq (s : State) : (openSession s).jobseq = s.jobseq := rfl
@[simp] theorem openSession_st (s : State) : (openSession s).st = s.st := rfl
@[simp] theorem openSession_session (s : State) : (openSession s).session = true := rfl
@[simp] theorem openSession_cause (s : State) : (openSession s).cause = s.cause := rfl
@[simp] theorem openSession_info (s : State) : (openSession s).info = s.info := rfl
@[simp] theorem openSession_pend (s : State) : (openSession s).pend = s.pend := rfl
@[simp] theorem openSession_held (s : State) : (openSession s).held = s.held := rfl
@[simp] theorem openSession_wi (s : State) : (openSession s).wi = s.wi := rfl
@[simp] theorem openSession_cfg (s : State) : (openSession s).cfg = s.cfg := rfl
@[simp] theorem openSession_response (s : State) : (openSession s).response = s.response := rfl
@[simp] theorem openSession_orch (s : State) : (openSession s).orch = s.orch := rfl
@[simp] theorem openSession_env (s : State) : (openSession s).env = s.env := rfl
@[simp] theorem dropDraw_mem (s : State) : (dropDraw s).mem = s.mem := by unfold dropDraw; split <;> rfl
@[simp] theorem dropDraw_seals (s : State) : (dropDraw s).seals = s.seals := by unfold dropDraw; split <;> rfl
@[simp] theorem dropDraw_jobctl (s : State) : (dropDraw s).jobctl = s.jobctl := by unfold dropDraw; split <;> rfl
@[simp] theorem dropDraw_jobn (s : State) : (dropDraw s).jobn = s.jobn := by unfold dropDraw; split <;> rfl
@[simp] theorem dropDraw_jobseq (s : State) : (dropDraw s).jobseq = s.jobseq := by unfold dropDraw; split <;> rfl
@[simp] theorem dropDraw_st (s : State) : (dropDraw s).st = s.st := by unfold dropDraw; split <;> rfl
@[simp] theorem dropDraw_session (s : State) : (dropDraw s).session = s.session := by unfold dropDraw; split <;> rfl
@[simp] theorem dropDraw_cause (s : State) : (dropDraw s).cause = s.cause := by unfold dropDraw; split <;> rfl
@[simp] theorem dropDraw_info (s : State) : (dropDraw s).info = s.info := by unfold dropDraw; split <;> rfl
@[simp] theorem dropDraw_pend (s : State) : (dropDraw s).pend = s.pend := by unfold dropDraw; split <;> rfl
@[simp] theorem dropDraw_held (s : State) : (dropDraw s).held = s.held := by unfold dropDraw; split <;> rfl
@[simp] theorem dropDraw_wi (s : State) : (dropDraw s).wi = s.wi := by unfold dropDraw; split <;> rfl
@[simp] theorem dropDraw_cfg (s : State) : (dropDraw s).cfg = s.cfg := by unfold dropDraw; split <;> rfl
@[simp] theorem dropDraw_response (s : State) : (dropDraw s).response = s.response := by unfold dropDraw; split <;> rfl
@[simp] theorem dropDraw_orch (s : State) : (dropDraw s).orch = s.orch := by unfold dropDraw; split <;> rfl

/-! ## Fault entry (R232) -/

@[simp] theorem faultEntry_mem (x : FaultCause) (info : Word) (s : State) : (faultEntry x info s).mem = s.mem := by unfold faultEntry; split <;> rfl
@[simp] theorem faultEntry_seals (x : FaultCause) (info : Word) (s : State) : (faultEntry x info s).seals = s.seals := by unfold faultEntry; split <;> rfl
@[simp] theorem faultEntry_jobctl (x : FaultCause) (info : Word) (s : State) : (faultEntry x info s).jobctl = s.jobctl := by unfold faultEntry; split <;> rfl
@[simp] theorem faultEntry_jobn (x : FaultCause) (info : Word) (s : State) : (faultEntry x info s).jobn = s.jobn := by unfold faultEntry; split <;> rfl
@[simp] theorem faultEntry_jobseq (x : FaultCause) (info : Word) (s : State) : (faultEntry x info s).jobseq = s.jobseq := by unfold faultEntry; split <;> rfl
@[simp] theorem faultEntry_st (x : FaultCause) (info : Word) (s : State) : (faultEntry x info s).st = .faulted := by unfold faultEntry; split <;> rfl
@[simp] theorem faultEntry_session (x : FaultCause) (info : Word) (s : State) : (faultEntry x info s).session = s.session := by unfold faultEntry; split <;> rfl
@[simp] theorem faultEntry_cause (x : FaultCause) (info : Word) (s : State) : (faultEntry x info s).cause = if s.cause = .none then x else s.cause := by unfold faultEntry; split <;> simp_all
@[simp] theorem faultEntry_info (x : FaultCause) (info : Word) (s : State) : (faultEntry x info s).info = if s.cause = .none then info else s.info := by unfold faultEntry; split <;> simp_all
@[simp] theorem faultEntry_pend (x : FaultCause) (info : Word) (s : State) : (faultEntry x info s).pend = s.pend := by unfold faultEntry; split <;> rfl
@[simp] theorem faultEntry_held (x : FaultCause) (info : Word) (s : State) : (faultEntry x info s).held = s.held := by unfold faultEntry; split <;> rfl
@[simp] theorem faultEntry_wi (x : FaultCause) (info : Word) (s : State) : (faultEntry x info s).wi = s.wi := by unfold faultEntry; split <;> rfl
@[simp] theorem faultEntry_cfg (x : FaultCause) (info : Word) (s : State) : (faultEntry x info s).cfg = s.cfg := by unfold faultEntry; split <;> rfl
@[simp] theorem faultEntry_response (x : FaultCause) (info : Word) (s : State) : (faultEntry x info s).response = s.response := by unfold faultEntry; split <;> rfl
@[simp] theorem faultEntry_orch (x : FaultCause) (info : Word) (s : State) : (faultEntry x info s).orch = s.orch := by unfold faultEntry; split <;> rfl
@[simp] theorem faultEntry_env (x : FaultCause) (info : Word) (s : State) : (faultEntry x info s).env = s.env := by unfold faultEntry; split <;> rfl

/-- A fault that is taken is recorded, or an earlier one is (R33). -/
theorem faultEntry_cause_ne {x : FaultCause} (hx : x ≠ .none) (info : Word) (s : State) :
    (faultEntry x info s).cause ≠ .none := by
  unfold faultEntry
  split
  · exact hx
  · assumption

/-! ## Launch, completion, failure (R188 to R190, R225) -/

@[simp] theorem launch_mem (k : JobKind) (n : Word) (s : State) : (launch k n s).mem = s.mem := rfl
@[simp] theorem launch_seals (k : JobKind) (n : Word) (s : State) : (launch k n s).seals = sealInputs k s.seals := rfl
@[simp] theorem launch_jobctl (k : JobKind) (n : Word) (s : State) : (launch k n s).jobctl = k := rfl
@[simp] theorem launch_jobn (k : JobKind) (n : Word) (s : State) : (launch k n s).jobn = n := rfl
@[simp] theorem launch_jobseq (k : JobKind) (n : Word) (s : State) : (launch k n s).jobseq = s.jobseq + 1 := rfl
@[simp] theorem launch_st (k : JobKind) (n : Word) (s : State) : (launch k n s).st = .running := rfl
@[simp] theorem launch_session (k : JobKind) (n : Word) (s : State) : (launch k n s).session = s.session := rfl
@[simp] theorem launch_cause (k : JobKind) (n : Word) (s : State) : (launch k n s).cause = s.cause := rfl
@[simp] theorem launch_info (k : JobKind) (n : Word) (s : State) : (launch k n s).info = s.info := rfl
@[simp] theorem launch_pend (k : JobKind) (n : Word) (s : State) : (launch k n s).pend = List.range n.toNat := rfl
@[simp] theorem launch_held (k : JobKind) (n : Word) (s : State) : (launch k n s).held = none := rfl
@[simp] theorem launch_wi (k : JobKind) (n : Word) (s : State) : (launch k n s).wi = s.wi := rfl
@[simp] theorem launch_cfg (k : JobKind) (n : Word) (s : State) : (launch k n s).cfg = s.cfg := rfl
@[simp] theorem launch_response (k : JobKind) (n : Word) (s : State) : (launch k n s).response = some (.okHandle (s.jobseq + 1)) := rfl
@[simp] theorem launch_orch (k : JobKind) (n : Word) (s : State) : (launch k n s).orch = s.orch := rfl
@[simp] theorem launch_env (k : JobKind) (n : Word) (s : State) : (launch k n s).env = s.env := rfl
@[simp] theorem completeJob_mem (s : State) : (completeJob s).mem = s.mem := rfl
@[simp] theorem completeJob_seals (s : State) : (completeJob s).seals = sealOutput s.jobctl s.seals := rfl
@[simp] theorem completeJob_jobctl (s : State) : (completeJob s).jobctl = s.jobctl := rfl
@[simp] theorem completeJob_jobn (s : State) : (completeJob s).jobn = s.jobn := rfl
@[simp] theorem completeJob_jobseq (s : State) : (completeJob s).jobseq = s.jobseq := rfl
@[simp] theorem completeJob_st (s : State) : (completeJob s).st = .idle := rfl
@[simp] theorem completeJob_session (s : State) : (completeJob s).session = s.session := rfl
@[simp] theorem completeJob_cause (s : State) : (completeJob s).cause = s.cause := rfl
@[simp] theorem completeJob_info (s : State) : (completeJob s).info = s.info := rfl
@[simp] theorem completeJob_pend (s : State) : (completeJob s).pend = s.pend := rfl
@[simp] theorem completeJob_held (s : State) : (completeJob s).held = s.held := rfl
@[simp] theorem completeJob_wi (s : State) : (completeJob s).wi = s.wi := rfl
@[simp] theorem completeJob_cfg (s : State) : (completeJob s).cfg = s.cfg := rfl
@[simp] theorem completeJob_response (s : State) : (completeJob s).response = s.response := rfl
@[simp] theorem completeJob_orch (s : State) : (completeJob s).orch = s.orch := rfl
@[simp] theorem completeJob_env (s : State) : (completeJob s).env = s.env := rfl

/-! ## Teardown (R193) -/

@[simp] theorem releaseBuffers_mem (s : State) : (releaseBuffers s).mem = Memory.fresh := rfl
@[simp] theorem releaseBuffers_seals (s : State) : (releaseBuffers s).seals = Seals.fresh := rfl
@[simp] theorem releaseBuffers_jobctl (s : State) : (releaseBuffers s).jobctl = .none := rfl
@[simp] theorem releaseBuffers_jobn (s : State) : (releaseBuffers s).jobn = 0 := rfl
@[simp] theorem releaseBuffers_jobseq (s : State) : (releaseBuffers s).jobseq = s.jobseq := rfl
@[simp] theorem releaseBuffers_st (s : State) : (releaseBuffers s).st = s.st := rfl
@[simp] theorem releaseBuffers_session (s : State) : (releaseBuffers s).session = s.session := rfl
@[simp] theorem releaseBuffers_cause (s : State) : (releaseBuffers s).cause = s.cause := rfl
@[simp] theorem releaseBuffers_info (s : State) : (releaseBuffers s).info = s.info := rfl
@[simp] theorem releaseBuffers_pend (s : State) : (releaseBuffers s).pend = [] := rfl
@[simp] theorem releaseBuffers_held (s : State) : (releaseBuffers s).held = s.held := rfl
@[simp] theorem releaseBuffers_wi (s : State) : (releaseBuffers s).wi = s.wi := rfl
@[simp] theorem releaseBuffers_cfg (s : State) : (releaseBuffers s).cfg = s.cfg := rfl
@[simp] theorem releaseBuffers_response (s : State) : (releaseBuffers s).response = s.response := rfl
@[simp] theorem releaseBuffers_orch (s : State) : (releaseBuffers s).orch = s.orch := rfl
@[simp] theorem releaseBuffers_env (s : State) : (releaseBuffers s).env = s.env := rfl

/-! ## Work-items (R36, R58, R102, R162) -/

@[simp] theorem beginWorkItem_mem (i : Nat) (s : State) : (beginWorkItem i s).mem = s.mem := rfl
@[simp] theorem beginWorkItem_seals (i : Nat) (s : State) : (beginWorkItem i s).seals = s.seals := rfl
@[simp] theorem beginWorkItem_jobctl (i : Nat) (s : State) : (beginWorkItem i s).jobctl = s.jobctl := rfl
@[simp] theorem beginWorkItem_jobn (i : Nat) (s : State) : (beginWorkItem i s).jobn = s.jobn := rfl
@[simp] theorem beginWorkItem_jobseq (i : Nat) (s : State) : (beginWorkItem i s).jobseq = s.jobseq := rfl
@[simp] theorem beginWorkItem_st (i : Nat) (s : State) : (beginWorkItem i s).st = s.st := rfl
@[simp] theorem beginWorkItem_session (i : Nat) (s : State) : (beginWorkItem i s).session = s.session := rfl
@[simp] theorem beginWorkItem_cause (i : Nat) (s : State) : (beginWorkItem i s).cause = s.cause := rfl
@[simp] theorem beginWorkItem_info (i : Nat) (s : State) : (beginWorkItem i s).info = s.info := rfl
@[simp] theorem beginWorkItem_pend (i : Nat) (s : State) : (beginWorkItem i s).pend = s.pend := rfl
@[simp] theorem beginWorkItem_held (i : Nat) (s : State) : (beginWorkItem i s).held = s.held := rfl
@[simp] theorem beginWorkItem_wi (i : Nat) (s : State) : (beginWorkItem i s).wi = some (newWorkItem i) := rfl
@[simp] theorem beginWorkItem_cfg (i : Nat) (s : State) : (beginWorkItem i s).cfg = s.cfg := rfl
@[simp] theorem beginWorkItem_response (i : Nat) (s : State) : (beginWorkItem i s).response = s.response := rfl
@[simp] theorem beginWorkItem_orch (i : Nat) (s : State) : (beginWorkItem i s).orch = s.orch := rfl
@[simp] theorem beginWorkItem_env (i : Nat) (s : State) : (beginWorkItem i s).env = s.env := rfl
@[simp] theorem endWorkItem_mem (s : State) : (endWorkItem s).mem = s.mem := rfl
@[simp] theorem endWorkItem_seals (s : State) : (endWorkItem s).seals = s.seals := rfl
@[simp] theorem endWorkItem_jobctl (s : State) : (endWorkItem s).jobctl = s.jobctl := rfl
@[simp] theorem endWorkItem_jobn (s : State) : (endWorkItem s).jobn = s.jobn := rfl
@[simp] theorem endWorkItem_jobseq (s : State) : (endWorkItem s).jobseq = s.jobseq := rfl
@[simp] theorem endWorkItem_st (s : State) : (endWorkItem s).st = s.st := rfl
@[simp] theorem endWorkItem_session (s : State) : (endWorkItem s).session = s.session := rfl
@[simp] theorem endWorkItem_cause (s : State) : (endWorkItem s).cause = s.cause := rfl
@[simp] theorem endWorkItem_info (s : State) : (endWorkItem s).info = s.info := rfl
@[simp] theorem endWorkItem_pend (s : State) : (endWorkItem s).pend = s.pend := rfl
@[simp] theorem endWorkItem_held (s : State) : (endWorkItem s).held = s.held := rfl
@[simp] theorem endWorkItem_wi (s : State) : (endWorkItem s).wi = none := rfl
@[simp] theorem endWorkItem_cfg (s : State) : (endWorkItem s).cfg = s.cfg := rfl
@[simp] theorem endWorkItem_response (s : State) : (endWorkItem s).response = s.response := rfl
@[simp] theorem endWorkItem_orch (s : State) : (endWorkItem s).orch = s.orch := rfl
@[simp] theorem endWorkItem_env (s : State) : (endWorkItem s).env = s.env := rfl
@[simp] theorem retire_mem (w : WorkItem) (s : State) : (retire w s).mem = s.mem := rfl
@[simp] theorem retire_seals (w : WorkItem) (s : State) : (retire w s).seals = s.seals := rfl
@[simp] theorem retire_jobctl (w : WorkItem) (s : State) : (retire w s).jobctl = s.jobctl := rfl
@[simp] theorem retire_jobn (w : WorkItem) (s : State) : (retire w s).jobn = s.jobn := rfl
@[simp] theorem retire_jobseq (w : WorkItem) (s : State) : (retire w s).jobseq = s.jobseq := rfl
@[simp] theorem retire_st (w : WorkItem) (s : State) : (retire w s).st = s.st := rfl
@[simp] theorem retire_session (w : WorkItem) (s : State) : (retire w s).session = s.session := rfl
@[simp] theorem retire_cause (w : WorkItem) (s : State) : (retire w s).cause = s.cause := rfl
@[simp] theorem retire_info (w : WorkItem) (s : State) : (retire w s).info = s.info := rfl
@[simp] theorem retire_pend (w : WorkItem) (s : State) : (retire w s).pend = s.pend.filter (fun i => i != position w) := rfl
@[simp] theorem retire_held (w : WorkItem) (s : State) : (retire w s).held = s.held := rfl
@[simp] theorem retire_wi (w : WorkItem) (s : State) : (retire w s).wi = some w := rfl
@[simp] theorem retire_cfg (w : WorkItem) (s : State) : (retire w s).cfg = s.cfg := rfl
@[simp] theorem retire_response (w : WorkItem) (s : State) : (retire w s).response = s.response := rfl
@[simp] theorem retire_orch (w : WorkItem) (s : State) : (retire w s).orch = s.orch := rfl
@[simp] theorem retire_env (w : WorkItem) (s : State) : (retire w s).env = s.env := rfl
@[simp] theorem writeRecord_mem (i v : Nat) (s : State) : (writeRecord i v s).mem = { s.mem with out := slotWrite s.mem.out i v } := rfl
@[simp] theorem writeRecord_seals (i v : Nat) (s : State) : (writeRecord i v s).seals = s.seals := rfl
@[simp] theorem writeRecord_jobctl (i v : Nat) (s : State) : (writeRecord i v s).jobctl = s.jobctl := rfl
@[simp] theorem writeRecord_jobn (i v : Nat) (s : State) : (writeRecord i v s).jobn = s.jobn := rfl
@[simp] theorem writeRecord_jobseq (i v : Nat) (s : State) : (writeRecord i v s).jobseq = s.jobseq := rfl
@[simp] theorem writeRecord_st (i v : Nat) (s : State) : (writeRecord i v s).st = s.st := rfl
@[simp] theorem writeRecord_session (i v : Nat) (s : State) : (writeRecord i v s).session = s.session := rfl
@[simp] theorem writeRecord_cause (i v : Nat) (s : State) : (writeRecord i v s).cause = s.cause := rfl
@[simp] theorem writeRecord_info (i v : Nat) (s : State) : (writeRecord i v s).info = s.info := rfl
@[simp] theorem writeRecord_pend (i v : Nat) (s : State) : (writeRecord i v s).pend = s.pend := rfl
@[simp] theorem writeRecord_held (i v : Nat) (s : State) : (writeRecord i v s).held = s.held := rfl
@[simp] theorem writeRecord_wi (i v : Nat) (s : State) : (writeRecord i v s).wi = s.wi := rfl
@[simp] theorem writeRecord_cfg (i v : Nat) (s : State) : (writeRecord i v s).cfg = s.cfg := rfl
@[simp] theorem writeRecord_response (i v : Nat) (s : State) : (writeRecord i v s).response = s.response := rfl
@[simp] theorem writeRecord_orch (i v : Nat) (s : State) : (writeRecord i v s).orch = s.orch := rfl
@[simp] theorem writeRecord_env (i v : Nat) (s : State) : (writeRecord i v s).env = s.env := rfl
@[simp] theorem atomicInc_seals (v : Symbol) (s : State) : (atomicInc v s).seals = s.seals := by unfold atomicInc; dsimp only; split <;> rfl
@[simp] theorem atomicInc_jobctl (v : Symbol) (s : State) : (atomicInc v s).jobctl = s.jobctl := by unfold atomicInc; dsimp only; split <;> rfl
@[simp] theorem atomicInc_jobn (v : Symbol) (s : State) : (atomicInc v s).jobn = s.jobn := by unfold atomicInc; dsimp only; split <;> rfl
@[simp] theorem atomicInc_jobseq (v : Symbol) (s : State) : (atomicInc v s).jobseq = s.jobseq := by unfold atomicInc; dsimp only; split <;> rfl
@[simp] theorem atomicInc_st (v : Symbol) (s : State) : (atomicInc v s).st = s.st := by unfold atomicInc; dsimp only; split <;> rfl
@[simp] theorem atomicInc_session (v : Symbol) (s : State) : (atomicInc v s).session = s.session := by unfold atomicInc; dsimp only; split <;> rfl
@[simp] theorem atomicInc_cause (v : Symbol) (s : State) : (atomicInc v s).cause = s.cause := by unfold atomicInc; dsimp only; split <;> rfl
@[simp] theorem atomicInc_info (v : Symbol) (s : State) : (atomicInc v s).info = s.info := by unfold atomicInc; dsimp only; split <;> rfl
@[simp] theorem atomicInc_pend (v : Symbol) (s : State) : (atomicInc v s).pend = s.pend := by unfold atomicInc; dsimp only; split <;> rfl
@[simp] theorem atomicInc_held (v : Symbol) (s : State) : (atomicInc v s).held = s.held := by unfold atomicInc; dsimp only; split <;> rfl
@[simp] theorem atomicInc_wi (v : Symbol) (s : State) : (atomicInc v s).wi = s.wi := by unfold atomicInc; dsimp only; split <;> rfl
@[simp] theorem atomicInc_cfg (v : Symbol) (s : State) : (atomicInc v s).cfg = s.cfg := by unfold atomicInc; dsimp only; split <;> rfl
@[simp] theorem atomicInc_response (v : Symbol) (s : State) : (atomicInc v s).response = s.response := by unfold atomicInc; dsimp only; split <;> rfl
@[simp] theorem atomicInc_orch (v : Symbol) (s : State) : (atomicInc v s).orch = s.orch := by unfold atomicInc; dsimp only; split <;> rfl
@[simp] theorem atomicInc_mem_inp (v : Symbol) (s : State) : (atomicInc v s).mem.inp = s.mem.inp := by unfold atomicInc; dsimp only; split <;> rfl
@[simp] theorem atomicInc_mem_code (v : Symbol) (s : State) : (atomicInc v s).mem.code = s.mem.code := by unfold atomicInc; dsimp only; split <;> rfl
@[simp] theorem atomicInc_mem_len (v : Symbol) (s : State) : (atomicInc v s).mem.len = s.mem.len := by unfold atomicInc; dsimp only; split <;> rfl
@[simp] theorem atomicInc_mem_out (v : Symbol) (s : State) : (atomicInc v s).mem.out = s.mem.out := by unfold atomicInc; dsimp only; split <;> rfl

/-! ## The host and the schedule (R60, R194) -/

@[simp] theorem takeResponse_mem (r : Response) (s : State) : (takeResponse r s).mem = s.mem := rfl
@[simp] theorem takeResponse_seals (r : Response) (s : State) : (takeResponse r s).seals = s.seals := rfl
@[simp] theorem takeResponse_jobctl (r : Response) (s : State) : (takeResponse r s).jobctl = s.jobctl := rfl
@[simp] theorem takeResponse_jobn (r : Response) (s : State) : (takeResponse r s).jobn = s.jobn := rfl
@[simp] theorem takeResponse_jobseq (r : Response) (s : State) : (takeResponse r s).jobseq = s.jobseq := rfl
@[simp] theorem takeResponse_st (r : Response) (s : State) : (takeResponse r s).st = s.st := rfl
@[simp] theorem takeResponse_session (r : Response) (s : State) : (takeResponse r s).session = s.session := rfl
@[simp] theorem takeResponse_cause (r : Response) (s : State) : (takeResponse r s).cause = s.cause := rfl
@[simp] theorem takeResponse_info (r : Response) (s : State) : (takeResponse r s).info = s.info := rfl
@[simp] theorem takeResponse_pend (r : Response) (s : State) : (takeResponse r s).pend = s.pend := rfl
@[simp] theorem takeResponse_held (r : Response) (s : State) : (takeResponse r s).held = s.held := rfl
@[simp] theorem takeResponse_wi (r : Response) (s : State) : (takeResponse r s).wi = s.wi := rfl
@[simp] theorem takeResponse_cfg (r : Response) (s : State) : (takeResponse r s).cfg = s.cfg := rfl
@[simp] theorem takeResponse_response (r : Response) (s : State) : (takeResponse r s).response = none := rfl
@[simp] theorem takeResponse_env (r : Response) (s : State) : (takeResponse r s).env = s.env := rfl
@[simp] theorem dropChoice_mem (s : State) : (dropChoice s).mem = s.mem := by unfold dropChoice; split <;> rfl
@[simp] theorem dropChoice_seals (s : State) : (dropChoice s).seals = s.seals := by unfold dropChoice; split <;> rfl
@[simp] theorem dropChoice_jobctl (s : State) : (dropChoice s).jobctl = s.jobctl := by unfold dropChoice; split <;> rfl
@[simp] theorem dropChoice_jobn (s : State) : (dropChoice s).jobn = s.jobn := by unfold dropChoice; split <;> rfl
@[simp] theorem dropChoice_jobseq (s : State) : (dropChoice s).jobseq = s.jobseq := by unfold dropChoice; split <;> rfl
@[simp] theorem dropChoice_st (s : State) : (dropChoice s).st = s.st := by unfold dropChoice; split <;> rfl
@[simp] theorem dropChoice_session (s : State) : (dropChoice s).session = s.session := by unfold dropChoice; split <;> rfl
@[simp] theorem dropChoice_cause (s : State) : (dropChoice s).cause = s.cause := by unfold dropChoice; split <;> rfl
@[simp] theorem dropChoice_info (s : State) : (dropChoice s).info = s.info := by unfold dropChoice; split <;> rfl
@[simp] theorem dropChoice_pend (s : State) : (dropChoice s).pend = s.pend := by unfold dropChoice; split <;> rfl
@[simp] theorem dropChoice_held (s : State) : (dropChoice s).held = s.held := by unfold dropChoice; split <;> rfl
@[simp] theorem dropChoice_wi (s : State) : (dropChoice s).wi = s.wi := by unfold dropChoice; split <;> rfl
@[simp] theorem dropChoice_cfg (s : State) : (dropChoice s).cfg = s.cfg := by unfold dropChoice; split <;> rfl
@[simp] theorem dropChoice_response (s : State) : (dropChoice s).response = s.response := by unfold dropChoice; split <;> rfl
@[simp] theorem dropChoice_orch (s : State) : (dropChoice s).orch = s.orch := by unfold dropChoice; split <;> rfl

end Sys2Proof.Machine
end

