-- ==== Sys2Proof/Laws/Ops.lean ====
section
/-! SUPPORT. What the shared operations do: acceptance (R180), fault entry (R232), and the fields of the state in which a
command's rule runs. -/

namespace Sys2Proof.Machine

/-! ## Configurations (R6) -/

theorem cfg_wf_iff (c : Config) :
    c.wf = true ↔ 1 ≤ c.cntW ∧ 1 ≤ c.codeW ∧ 1 ≤ c.lenW ∧ c.codeW < 2 ^ c.lenW ∧ c.cap ≤ 2 ^ 32 - 1 ∧
      c.cap < 2 ^ c.cntW := by
  simp [Config.wf, and_assoc]

/-! ## `mapNext` -/

@[simp] theorem mapNext_next (f : State → State) (s : State) : mapNext f (.next s) = .next (f s) := rfl
@[simp] theorem mapNext_fault (f : State → State) (x : Fault) : mapNext f (.fault x) = .fault x := rfl
@[simp] theorem mapNext_refused (f : State → State) (x : Refusal) : mapNext f (.refused x) = .refused x := rfl

theorem mapNext_eq_next {f : State → State} {r : Result} {t : State} (h : mapNext f r = .next t) :
    ∃ u, r = .next u ∧ t = f u := by
  cases r with
  | next u => exact ⟨u, rfl, by simpa using h.symm⟩
  | fault x => simp at h
  | refused x => simp at h

/-! ## The state in which a command's rule runs -/

theorem accepted_eq (s : State) :
    accepted s = { s with session := true, env := if s.session then s.env else (dropDraw s).env } := by
  unfold accepted
  cases h : s.session with
  | true => cases s; simp_all
  | false =>
    simp only [Bool.false_eq_true, if_false, openSession, dropDraw]
    split <;> rfl

@[simp] theorem accepted_mem (s : State) : (accepted s).mem = s.mem := by simp [accepted_eq]
@[simp] theorem accepted_seals (s : State) : (accepted s).seals = s.seals := by simp [accepted_eq]
@[simp] theorem accepted_jobctl (s : State) : (accepted s).jobctl = s.jobctl := by simp [accepted_eq]
@[simp] theorem accepted_jobn (s : State) : (accepted s).jobn = s.jobn := by simp [accepted_eq]
@[simp] theorem accepted_jobseq (s : State) : (accepted s).jobseq = s.jobseq := by simp [accepted_eq]
@[simp] theorem accepted_st (s : State) : (accepted s).st = s.st := by simp [accepted_eq]
@[simp] theorem accepted_session (s : State) : (accepted s).session = true := by simp [accepted_eq]
@[simp] theorem accepted_cause (s : State) : (accepted s).cause = s.cause := by simp [accepted_eq]
@[simp] theorem accepted_info (s : State) : (accepted s).info = s.info := by simp [accepted_eq]
@[simp] theorem accepted_pend (s : State) : (accepted s).pend = s.pend := by simp [accepted_eq]
@[simp] theorem accepted_held (s : State) : (accepted s).held = s.held := by simp [accepted_eq]
@[simp] theorem accepted_wi (s : State) : (accepted s).wi = s.wi := by simp [accepted_eq]
@[simp] theorem accepted_cfg (s : State) : (accepted s).cfg = s.cfg := by simp [accepted_eq]
@[simp] theorem accepted_response (s : State) : (accepted s).response = s.response := by simp [accepted_eq]
@[simp] theorem accepted_orch (s : State) : (accepted s).orch = s.orch := by simp [accepted_eq]

/-! ## Acceptance (R180) -/

theorem accept_running (rule : State → Result) {s : State} (h : s.st = .running) : accept rule s = .next s := by
  simp [accept, h]

theorem accept_faulted (rule : State → Result) {s : State} (h : s.st = .faulted) :
    accept rule s = .next (respond (.err s.cause s.info) s) := by
  simp [accept, h]

theorem accept_accepts (rule : State → Result) {s : State} (h : Accepts s) : accept rule s = rule (accepted s) := by
  obtain ⟨h1, h2⟩ := h
  unfold accept accepted
  rw [h1]
  cases hs : s.session with
  | true => simp
  | false => simp_all

theorem accept_unavailable (rule : State → Result) {s : State} (h : s.st = .idle) (hs : s.session = false)
    (hd : nextDraw s = false) : accept rule s = .next (raiseInCommand .unavail 0 (dropDraw s)) := by
  simp [accept, h, hs, hd]

/-- Everything acceptance can do. -/
theorem accept_cases (rule : State → Result) (s : State) :
    (s.st = .running ∧ accept rule s = .next s) ∨
    (s.st = .faulted ∧ accept rule s = .next (respond (.err s.cause s.info) s)) ∨
    (Accepts s ∧ accept rule s = rule (accepted s)) ∨
    (s.st = .idle ∧ s.session = false ∧ nextDraw s = false ∧
      accept rule s = .next (raiseInCommand .unavail 0 (dropDraw s))) := by
  cases h : s.st with
  | running => exact .inl ⟨rfl, accept_running rule h⟩
  | faulted => exact .inr (.inl ⟨rfl, accept_faulted rule h⟩)
  | idle =>
    cases hs : s.session with
    | true => exact .inr (.inr (.inl ⟨⟨h, .inl hs⟩, accept_accepts rule ⟨h, .inl hs⟩⟩))
    | false =>
      cases hd : nextDraw s with
      | true => exact .inr (.inr (.inl ⟨⟨h, .inr hd⟩, accept_accepts rule ⟨h, .inr hd⟩⟩))
      | false => exact .inr (.inr (.inr ⟨rfl, rfl, rfl, accept_unavailable rule h hs hd⟩))

/-! ## Fault entry (R232) -/

theorem faultEntry_eq (x : FaultCause) (info : Word) (s : State) :
    faultEntry x info s =
      { s with
        cause := if s.cause = .none then x else s.cause
        info := if s.cause = .none then info else s.info
        st := .faulted } := by
  unfold faultEntry
  split <;> simp_all

theorem raisesInJob_faultEntry (x : FaultCause) (info : Word) (s : State) :
    RaisesInJob x info s (.next (faultEntry x info s)) := by
  rw [RaisesInJob, faultEntry_eq]

theorem raisesInCommand_raise (x : FaultCause) (info : Word) (s : State) :
    RaisesInCommand x info s (.next (raiseInCommand x info s)) := by
  rw [RaisesInCommand, raiseInCommand, faultEntry_eq, respond]

@[simp] theorem raiseInCommand_eq (x : FaultCause) (info : Word) (s : State) :
    raiseInCommand x info s = respond (.err x info) (faultEntry x info s) := rfl

end Sys2Proof.Machine
end

