-- ==== Sys2Proof/Laws/Slots.lean ====
section
/-! SUPPORT. The laws of slot-indexed buffers: a read after a write, the canonical form kept by every operation, and
equal reads give equal buffers. -/

namespace Sys2Proof.Machine

variable {α : Type}

/-! ## Reads after writes -/

@[simp] theorem slotRead_nil (k : Nat) : slotRead ([] : Slots α) k = none := rfl

theorem slotRead_write (m : Slots α) (k j : Nat) (v : α) :
    slotRead (slotWrite m k v) j = if j = k then some v else slotRead m j := by
  induction m with
  | nil => simp [slotWrite, slotRead]
  | cons p m ih =>
    obtain ⟨a, w⟩ := p
    simp only [slotWrite]
    split
    · simp [slotRead]
    · split
      · subst_vars
        simp only [slotRead]
        split <;> simp_all
      · simp only [slotRead, ih]
        split <;> split <;> simp_all

@[simp] theorem slotRead_write_same (m : Slots α) (k : Nat) (v : α) : slotRead (slotWrite m k v) k = some v := by
  simp [slotRead_write]

theorem slotRead_write_other (m : Slots α) {k j : Nat} (v : α) (h : j ≠ k) :
    slotRead (slotWrite m k v) j = slotRead m j := by
  simp [slotRead_write, h]

theorem slotRead_erase (m : Slots α) (k j : Nat) :
    slotRead (slotErase m k) j = if j = k then none else slotRead m j := by
  induction m with
  | nil => simp [slotErase]
  | cons p m ih =>
    obtain ⟨a, w⟩ := p
    simp only [slotErase] at ih ⊢
    by_cases h : a = k
    · subst h
      simp only [List.filter, bne_self_eq_false, ih, slotRead]
      split <;> simp_all
    · have hb : (a != k) = true := by simpa using h
      simp only [List.filter, hb, slotRead, ih]
      split <;> split <;> simp_all

theorem slotRead_writeList (vs : List α) (m : Slots α) (base j : Nat) :
    slotRead (slotWriteList m base vs) j =
      if base ≤ j ∧ j < base + vs.length then vs[j - base]? else slotRead m j := by
  induction vs generalizing m base with
  | nil =>
    have : ¬ (base ≤ j ∧ j < base + ([] : List α).length) := by simp
    simp only [slotWriteList, if_neg this]
  | cons v vs ih =>
    simp only [slotWriteList, ih, slotRead_write, List.length_cons]
    by_cases h : j = base
    · subst h
      simp
    · by_cases h1 : base + 1 ≤ j ∧ j < base + 1 + vs.length
      · have h2 : base ≤ j ∧ j < base + (vs.length + 1) := by omega
        have h3 : j - base = (j - (base + 1)) + 1 := by omega
        simp [h1, h2, h3]
      · have h2 : ¬ (base ≤ j ∧ j < base + (vs.length + 1)) := by omega
        rw [if_neg h1, if_neg h2, if_neg h]

theorem slotRead_eq_none_iff (m : Slots α) (k : Nat) : slotRead m k = none ↔ ∀ p ∈ m, p.1 ≠ k := by
  induction m with
  | nil => simp
  | cons p m ih =>
    obtain ⟨a, w⟩ := p
    simp only [slotRead, List.mem_cons, forall_eq_or_imp]
    split
    · subst_vars; simp
    · simp only [ih]
      constructor
      · intro h; exact ⟨by omega, h⟩
      · exact fun h => h.2

/-- The range test of the LOAD commands, read slot by slot. -/
theorem slotAnyWritten_iff (m : Slots α) (base count : Nat) :
    slotAnyWritten m base count = true ↔ ∃ k, k < count ∧ slotRead m (base + k) ≠ none := by
  simp only [slotAnyWritten, List.any_eq_true, Bool.and_eq_true, decide_eq_true_eq, ne_eq, slotRead_eq_none_iff]
  constructor
  · rintro ⟨p, hp, h1, h2⟩
    exact ⟨p.1 - base, by omega, fun h => h p hp (by omega)⟩
  · rintro ⟨k, hk, h⟩
    push Not at h
    obtain ⟨p, hp, h⟩ := h
    exact ⟨p, hp, by omega, by omega⟩

theorem slotAnyWritten_eq_false_iff (m : Slots α) (base count : Nat) :
    slotAnyWritten m base count = false ↔ ∀ k, k < count → slotRead m (base + k) = none := by
  rw [← Bool.not_eq_true, slotAnyWritten_iff]
  push Not
  rfl

theorem slotRead_mem {m : Slots α} {k : Nat} {v : α} (h : slotRead m k = some v) : (k, v) ∈ m := by
  induction m with
  | nil => simp at h
  | cons p m ih =>
    obtain ⟨a, w⟩ := p
    simp only [slotRead] at h
    split at h
    · simp_all
    · exact List.mem_cons_of_mem _ (ih h)

/-! ## The canonical form -/

theorem slotsWf_cons (a : Nat) (v : α) (m : Slots α) :
    slotsWf ((a, v) :: m) = true ↔ (∀ p ∈ m, a < p.1) ∧ slotsWf m = true := by
  simp [slotsWf]

theorem slotRead_of_mem {m : Slots α} {k : Nat} {v : α} (hw : slotsWf m = true) (h : (k, v) ∈ m) :
    slotRead m k = some v := by
  induction m with
  | nil => simp at h
  | cons p m ih =>
    obtain ⟨a, w⟩ := p
    rw [slotsWf_cons] at hw
    simp only [slotRead]
    rcases List.mem_cons.1 h with h | h
    · simp_all
    · have := hw.1 _ h
      rw [if_neg (by simp only at this; omega)]
      exact ih hw.2 h

theorem slotRead_below {m : Slots α} {k : Nat} (h : ∀ p ∈ m, k < p.1) : slotRead m k = none := by
  rw [slotRead_eq_none_iff]
  intro p hp
  have := h p hp
  omega

theorem mem_slotWrite {m : Slots α} {k : Nat} {v : α} {p : Nat × α} (h : p ∈ slotWrite m k v) :
    p = (k, v) ∨ p ∈ m := by
  induction m with
  | nil => simpa [slotWrite] using h
  | cons q m ih =>
    obtain ⟨a, w⟩ := q
    simp only [slotWrite] at h
    split at h
    · simpa using h
    · split at h
      · rcases List.mem_cons.1 h with h | h <;> simp [h]
      · rcases List.mem_cons.1 h with h | h
        · simp [h]
        · rcases ih h with h | h <;> simp [h]

theorem slotsWf_write {m : Slots α} (k : Nat) (v : α) (h : slotsWf m = true) : slotsWf (slotWrite m k v) = true := by
  induction m with
  | nil => simp [slotWrite, slotsWf]
  | cons p m ih =>
    obtain ⟨a, w⟩ := p
    have hc := (slotsWf_cons a w m).1 h
    simp only [slotWrite]
    split
    · rw [slotsWf_cons]
      refine ⟨?_, h⟩
      intro p hp
      rcases List.mem_cons.1 hp with hp | hp
      · simpa [hp] using ‹k < a›
      · have := hc.1 p hp
        omega
    · split
      · subst_vars
        exact (slotsWf_cons _ v m).2 hc
      · rw [slotsWf_cons]
        refine ⟨?_, ih hc.2⟩
        intro p hp
        rcases mem_slotWrite hp with hp | hp
        · simp only [hp]
          omega
        · exact hc.1 p hp

theorem slotsWf_writeList (vs : List α) {m : Slots α} (base : Nat) (h : slotsWf m = true) :
    slotsWf (slotWriteList m base vs) = true := by
  induction vs generalizing m base with
  | nil => exact h
  | cons v vs ih => exact ih _ (slotsWf_write base v h)

theorem slotsWf_erase {m : Slots α} (k : Nat) (h : slotsWf m = true) : slotsWf (slotErase m k) = true := by
  induction m with
  | nil => exact h
  | cons p m ih =>
    obtain ⟨a, w⟩ := p
    have hc := (slotsWf_cons a w m).1 h
    have ih' := ih hc.2
    simp only [slotErase] at ih' ⊢
    by_cases ha : (a != k) = true
    · rw [List.filter_cons_of_pos (by simpa using ha), slotsWf_cons]
      exact ⟨fun p hp => hc.1 p (List.mem_of_mem_filter hp), ih'⟩
    · rw [List.filter_cons_of_neg (by simpa using ha)]
      exact ih'

/-- Equal reads give equal data: the canonical form is unique. -/
theorem slots_ext {m n : Slots α} (hm : slotsWf m = true) (hn : slotsWf n = true)
    (h : ∀ k, slotRead m k = slotRead n k) : m = n := by
  induction m generalizing n with
  | nil =>
    cases n with
    | nil => rfl
    | cons q n => have := h q.1; simp [slotRead] at this
  | cons p m ih =>
    obtain ⟨a, v⟩ := p
    cases n with
    | nil => have := h a; simp [slotRead] at this
    | cons q n =>
      obtain ⟨b, w⟩ := q
      have h1 := (slotsWf_cons a v m).1 hm
      have h2 := (slotsWf_cons b w n).1 hn
      have hab : a = b := by
        rcases Nat.lt_trichotomy a b with hl | he | hl
        · have := h a
          rw [slotRead, if_pos rfl, slotRead_below (by
            intro p hp
            rcases List.mem_cons.1 hp with hp | hp
            · simpa [hp] using hl
            · have := h2.1 p hp
              omega)] at this
          simp at this
        · exact he
        · have := h b
          rw [slotRead_below (by
            intro p hp
            rcases List.mem_cons.1 hp with hp | hp
            · simpa [hp] using hl
            · have := h1.1 p hp
              omega), slotRead, if_pos rfl] at this
          simp at this
      subst hab
      have hv : v = w := by simpa [slotRead] using h a
      subst hv
      congr 1
      refine ih h1.2 h2.2 fun k => ?_
      have hk := h k
      simp only [slotRead] at hk
      split at hk
      · subst_vars
        rw [slotRead_below h1.1, slotRead_below h2.1]
      · exact hk

/-! ## Bounds -/

theorem slotsFit_write {size : Nat} {ok : α → Bool} {m : Slots α} {k : Nat} {v : α}
    (h : slotsFit size ok m = true) (hk : k < size) (hv : ok v = true) :
    slotsFit size ok (slotWrite m k v) = true := by
  simp only [slotsFit, List.all_eq_true, Bool.and_eq_true, decide_eq_true_eq] at h ⊢
  intro p hp
  rcases mem_slotWrite hp with hp | hp
  · simp [hp, hk, hv]
  · exact h p hp

theorem slotsFit_writeList {size : Nat} {ok : α → Bool} (vs : List α) {m : Slots α} {base : Nat}
    (h : slotsFit size ok m = true) (hk : base + vs.length ≤ size) (hv : ∀ v ∈ vs, ok v = true) :
    slotsFit size ok (slotWriteList m base vs) = true := by
  induction vs generalizing m base with
  | nil => exact h
  | cons v vs ih =>
    simp only [List.length_cons] at hk
    exact ih (slotsFit_write h (by omega) (hv v (by simp))) (by omega) (fun w hw => hv w (by simp [hw]))

theorem slotsFit_erase {size : Nat} {ok : α → Bool} {m : Slots α} (k : Nat) (h : slotsFit size ok m = true) :
    slotsFit size ok (slotErase m k) = true := by
  simp only [slotsFit, slotErase, List.all_eq_true] at h ⊢
  exact fun p hp => h p (List.mem_of_mem_filter hp)

theorem slotsFit_read {size : Nat} {ok : α → Bool} {m : Slots α} {k : Nat} {v : α}
    (h : slotsFit size ok m = true) (hr : slotRead m k = some v) : k < size ∧ ok v = true := by
  simp only [slotsFit, List.all_eq_true, Bool.and_eq_true, decide_eq_true_eq] at h
  exact h _ (slotRead_mem hr)

/-! ## HIST: slots that always hold a value -/

@[simp] theorem countRead_nil (k : Nat) : countRead [] k = 0 := rfl

theorem countRead_write (m : Slots Nat) (k j v : Nat) :
    countRead (countWrite m k v) j = if j = k then v else countRead m j := by
  simp only [countRead, countWrite]
  by_cases hv : v = 0
  · simp only [hv, if_true, slotRead_erase]
    split <;> rfl
  · simp only [hv, if_false, slotRead_write]
    split <;> rfl

@[simp] theorem countRead_write_same (m : Slots Nat) (k v : Nat) : countRead (countWrite m k v) k = v := by
  simp [countRead_write]

theorem countRead_write_other (m : Slots Nat) {k j : Nat} (v : Nat) (h : j ≠ k) :
    countRead (countWrite m k v) j = countRead m j := by
  simp [countRead_write, h]

theorem countsWf_write {m : Slots Nat} (k v : Nat) (h : countsWf m = true) : countsWf (countWrite m k v) = true := by
  simp only [countsWf, countWrite, Bool.and_eq_true, List.all_eq_true] at h ⊢
  by_cases hv : v = 0
  · simp only [hv, if_true]
    exact ⟨slotsWf_erase k h.1, fun p hp => h.2 p (List.mem_of_mem_filter hp)⟩
  · simp only [hv, if_false]
    refine ⟨slotsWf_write k v h.1, fun p hp => ?_⟩
    rcases mem_slotWrite hp with hp | hp
    · simpa [hp] using hv
    · exact h.2 p hp

theorem countsFit_write {size : Nat} {ok : Nat → Bool} {m : Slots Nat} {k v : Nat}
    (h : slotsFit size ok m = true) (hk : k < size) (hv : ok v = true) :
    slotsFit size ok (countWrite m k v) = true := by
  simp only [countWrite]
  split
  · exact slotsFit_erase k h
  · exact slotsFit_write h hk hv

/-- Equal counts give equal data. -/
theorem counts_ext {m n : Slots Nat} (hm : countsWf m = true) (hn : countsWf n = true)
    (h : ∀ k, countRead m k = countRead n k) : m = n := by
  simp only [countsWf, Bool.and_eq_true, List.all_eq_true, bne_iff_ne] at hm hn
  refine slots_ext hm.1 hn.1 fun k => ?_
  have hk := h k
  simp only [countRead] at hk
  cases hmk : slotRead m k with
  | none =>
    cases hnk : slotRead n k with
    | none => rfl
    | some w =>
      have := hn.2 _ (slotRead_mem hnk)
      simp_all
  | some v =>
    cases hnk : slotRead n k with
    | none =>
      have := hm.2 _ (slotRead_mem hmk)
      simp_all
    | some w => simp_all

theorem countTotal_cons (a v : Nat) (m : Slots Nat) : countTotal ((a, v) :: m) = v + countTotal m := by
  simp [countTotal]

theorem countTotal_erase {m : Slots Nat} (k : Nat) (h : slotsWf m = true) :
    countTotal (slotErase m k) + countRead m k = countTotal m := by
  induction m with
  | nil => simp [slotErase, countTotal]
  | cons p m ih =>
    obtain ⟨a, w⟩ := p
    have hc := (slotsWf_cons a w m).1 h
    have ih' := ih hc.2
    simp only [slotErase, countRead, slotRead] at ih' ⊢
    by_cases ha : a = k
    · subst ha
      rw [List.filter_cons_of_neg (by simp), countTotal_cons]
      have hz : slotRead m a = none := slotRead_below hc.1
      simp only [hz, Option.getD_none] at ih'
      simp
      omega
    · rw [List.filter_cons_of_pos (by simpa using ha), countTotal_cons, countTotal_cons, if_neg (by omega)]
      omega

theorem countTotal_slotWrite {m : Slots Nat} (k v : Nat) (h : slotsWf m = true) :
    countTotal (slotWrite m k v) + countRead m k = countTotal m + v := by
  induction m with
  | nil => simp [slotWrite, countTotal]
  | cons p m ih =>
    obtain ⟨a, w⟩ := p
    have hc := (slotsWf_cons a w m).1 h
    have ih' := ih hc.2
    simp only [slotWrite, countRead, slotRead] at ih' ⊢
    split
    · have hz : slotRead m k = none := slotRead_below fun p hp => by have := hc.1 p hp; omega
      rw [countTotal_cons, countTotal_cons, if_neg (by omega), hz]
      simp
      omega
    · split
      · simp only [countTotal_cons, Option.getD_some]
        omega
      · simp only [countTotal_cons]
        omega

/-- Writing one count changes the sum by that slot's change. -/
theorem countTotal_write {m : Slots Nat} (k v : Nat) (h : countsWf m = true) :
    countTotal (countWrite m k v) + countRead m k = countTotal m + v := by
  simp only [countsWf, Bool.and_eq_true] at h
  simp only [countWrite]
  split
  · have := countTotal_erase k h.1
    omega
  · exact countTotal_slotWrite k v h.1

/-- One count is at most the sum. -/
theorem countRead_le_total (m : Slots Nat) (k : Nat) : countRead m k ≤ countTotal m := by
  induction m with
  | nil => simp [countTotal]
  | cons p m ih =>
    obtain ⟨a, w⟩ := p
    rw [countTotal_cons]
    simp only [countRead, slotRead] at ih ⊢
    split
    · simp
    · omega

end Sys2Proof.Machine
end

