-- ==== Sys2Proof/Laws/Commands.lean ====
section
/-! SUPPORT. One lemma for each command that says once everything its rule can do, and what the acceptance of a command can
do, for every command. -/

namespace Sys2Proof.Machine

/-! ## The rules -/

theorem loadFault_eq_none_iff {α : Type} (b : Bool) (size : Nat) (buf : Slots α) (base count : Word) :
    loadFault b size buf base count = none ↔
      b = false ∧ base.toNat + count.toNat ≤ size ∧
        ∀ k, k < count.toNat → slotRead buf (base.toNat + k) = none := by
  unfold loadFault rangeExceeds
  rw [← slotAnyWritten_eq_false_iff]
  cases b <;> simp
  split <;> rename_i h
  · simp; omega
  · split <;> simp_all

/-- A LOAD raises no NONE and no UNAVAIL. -/
theorem loadFault_cause {α : Type} {b : Bool} {size : Nat} {buf : Slots α} {base count : Word} {x : FaultCause}
    (h : loadFault b size buf base count = some x) : x ≠ .none ∧ x ≠ .unavail := by
  unfold loadFault at h
  split at h
  · simp only [Option.some.injEq] at h
    simp [← h]
  · split at h
    · simp only [Option.some.injEq] at h
      simp [← h]
    · split at h
      · simp only [Option.some.injEq] at h
        simp [← h]
      · simp at h

/-- The effect of a command when its rule runs in `a` and raises nothing. -/
inductive Effect (a : State) : Instr → State → Prop where
  | loadIn (base count : Word) (payload : List Symbol) (hs : a.seals.inp = false) (hl : payload.length = count.toNat)
      (hr : base.toNat + count.toNat ≤ a.cfg.cap)
      (hn : ∀ k, k < count.toNat → slotRead a.mem.inp (base.toNat + k) = none) :
      Effect a (.loadIn base count payload)
        (respond .ok { a with mem := { a.mem with inp := slotWriteList a.mem.inp base.toNat payload } })
  | loadCode (base count : Word) (payload : List Nat) (hs : a.seals.code = false) (hl : payload.length = count.toNat)
      (hw : ∀ v ∈ payload, v < 2 ^ a.cfg.codeW) (hr : base.toNat + count.toNat ≤ alpha)
      (hn : ∀ k, k < count.toNat → slotRead a.mem.code (base.toNat + k) = none) :
      Effect a (.loadCode base count payload)
        (respond .ok { a with mem := { a.mem with code := slotWriteList a.mem.code base.toNat payload } })
  | loadLen (base count : Word) (payload : List Nat) (hs : a.seals.len = false) (hl : payload.length = count.toNat)
      (hw : ∀ v ∈ payload, v < 2 ^ a.cfg.lenW) (hr : base.toNat + count.toNat ≤ alpha)
      (hn : ∀ k, k < count.toNat → slotRead a.mem.len (base.toNat + k) = none) :
      Effect a (.loadLen base count payload)
        (respond .ok { a with mem := { a.mem with len := slotWriteList a.mem.len base.toNat payload } })
  | submitHist (n : Word) (hs : a.seals.hist = false) (hn : n.toNat ≤ a.cfg.cap) :
      Effect a (.submitHist n) (launch .hist n (dropDraw a))
  | submitEnc (n : Word) (hs : a.seals.out = false) (hn : n.toNat ≤ a.cfg.cap) :
      Effect a (.submitEnc n) (launch .enc n (dropDraw a))
  | readbackHist (base count : Word) (hs : a.seals.hist = true) (hr : base.toNat + count.toNat ≤ alpha) :
      Effect a (.readbackHist base count) (respond (.okList (countRange a.mem.hist base count)) a)
  | readbackOut (base count : Word) (hs : a.seals.out = true) (hr : base.toNat + count.toNat ≤ a.cfg.cap)
      (hn : firstUnwritten a.mem.out base count = none) :
      Effect a (.readbackOut base count) (respond (.okList (slotRange a.mem.out base count)) a)
  | release : Effect a .release (respond .ok (releaseBuffers a))

/-- What the rule of command `i` answers in `a`: a fault raised in `a`, perhaps after a draw, or its effect. -/
def RuleAnswers (i : Instr) (a : State) (r : Result) : Prop :=
  (∃ x info u, (x ≠ FaultCause.none ∧ x ≠ .unavail) ∧ (u = a ∨ u = dropDraw a) ∧ r = .next (raiseInCommand x info u)) ∨
  (∃ t, Effect a i t ∧ r = .next t)

theorem raise_answers {i : Instr} {a : State} (x : FaultCause) (info : Word) (hx : x ≠ .none ∧ x ≠ .unavail) :
    RuleAnswers i a (.next (raiseInCommand x info a)) := .inl ⟨x, info, a, hx, .inl rfl, rfl⟩

theorem payloadFits_iff (width : Nat) (count : Word) (payload : List Nat) :
    payloadFits width count payload = true ↔ payload.length = count.toNat ∧ ∀ v ∈ payload, v < 2 ^ width := by
  simp [payloadFits]

theorem loadInRule_answers (base count : Word) (payload : List Symbol) (a : State)
    (h : payload.length = count.toNat) : RuleAnswers (.loadIn base count payload) a (loadInRule base count payload a) := by
  unfold loadInRule finishLoad
  split
  · rename_i x hx
    exact raise_answers _ _ (loadFault_cause hx)
  · rename_i hx
    obtain ⟨h1, h2, h3⟩ := (loadFault_eq_none_iff _ _ _ _ _).1 hx
    exact .inr ⟨_, .loadIn base count payload h1 h h2 h3, rfl⟩

theorem loadCodeRule_answers (base count : Word) (payload : List Nat) (a : State)
    (h : payloadFits a.cfg.codeW count payload = true) : RuleAnswers (.loadCode base count payload) a (loadCodeRule base count payload a) := by
  rw [payloadFits_iff] at h
  unfold loadCodeRule finishLoad
  split
  · rename_i x hx
    exact raise_answers _ _ (loadFault_cause hx)
  · rename_i hx
    obtain ⟨h1, h2, h3⟩ := (loadFault_eq_none_iff _ _ _ _ _).1 hx
    exact .inr ⟨_, .loadCode base count payload h1 h.1 h.2 h2 h3, rfl⟩

theorem loadLenRule_answers (base count : Word) (payload : List Nat) (a : State)
    (h : payloadFits a.cfg.lenW count payload = true) : RuleAnswers (.loadLen base count payload) a (loadLenRule base count payload a) := by
  rw [payloadFits_iff] at h
  unfold loadLenRule finishLoad
  split
  · rename_i x hx
    exact raise_answers _ _ (loadFault_cause hx)
  · rename_i hx
    obtain ⟨h1, h2, h3⟩ := (loadFault_eq_none_iff _ _ _ _ _).1 hx
    exact .inr ⟨_, .loadLen base count payload h1 h.1 h.2 h2 h3, rfl⟩

theorem submit_answers (kind : JobKind) (i : Instr) (w0 n : Word) (a : State)
    (h : outputSealed kind a.seals = false → n.toNat ≤ a.cfg.cap → Effect a i (launch kind n (dropDraw a))) :
    RuleAnswers i a (submit kind w0 n a) := by
  unfold submit
  split
  · exact raise_answers _ _ (by simp)
  · split
    · exact raise_answers _ _ (by simp)
    · rename_i hs hn
      split
      · exact .inr ⟨_, h (by simpa using hs) (by simpa [countExceeds] using hn), rfl⟩
      · exact .inl ⟨_, _, _, by simp, .inr rfl, rfl⟩

theorem readbackHistRule_answers (base count : Word) (a : State) : RuleAnswers (.readbackHist base count) a (readbackHistRule base count a) := by
  unfold readbackHistRule
  split
  · split
    · exact raise_answers _ _ (by simp)
    · rename_i hs hr
      exact .inr ⟨_, .readbackHist base count hs (by simpa [rangeExceeds] using hr), rfl⟩
  · exact raise_answers _ _ (by simp)

theorem readbackOutRule_answers (base count : Word) (a : State) : RuleAnswers (.readbackOut base count) a (readbackOutRule base count a) := by
  unfold readbackOutRule
  split
  · split
    · exact raise_answers _ _ (by simp)
    · rename_i hs hr
      split
      · exact raise_answers _ _ (by simp)
      · rename_i hn
        exact .inr ⟨_, .readbackOut base count hs (by simpa [rangeExceeds] using hr) hn, rfl⟩
  · exact raise_answers _ _ (by simp)

/-! ## Commands in a state that accepts them -/

theorem exec_accepts (i : Instr) {s : State} (hc : isCommand i = true) (hw : i.wf s.cfg = true) (ha : Accepts s) :
    RuleAnswers i (accepted s) (exec i s) := by
  cases i with
  | loadIn base count payload =>
    rw [exec, execLoadIn, ifExpressible, if_pos hw, accept_accepts _ ha]
    exact loadInRule_answers _ _ _ _ (by simpa [Instr.wf] using hw)
  | loadCode base count payload =>
    rw [exec, execLoadCode, ifExpressible, if_pos hw, accept_accepts _ ha]
    exact loadCodeRule_answers _ _ _ _ (by simpa [Instr.wf] using hw)
  | loadLen base count payload =>
    rw [exec, execLoadLen, ifExpressible, if_pos hw, accept_accepts _ ha]
    exact loadLenRule_answers _ _ _ _ (by simpa [Instr.wf] using hw)
  | submitHist n =>
    rw [exec, execSubmitHist, accept_accepts _ ha]
    exact submit_answers _ _ _ _ _ (.submitHist n)
  | submitEnc n =>
    rw [exec, execSubmitEnc, accept_accepts _ ha]
    exact submit_answers _ _ _ _ _ (.submitEnc n)
  | readbackHist base count =>
    rw [exec, execReadbackHist, accept_accepts _ ha]
    exact readbackHistRule_answers _ _ _
  | readbackOut base count =>
    rw [exec, execReadbackOut, accept_accepts _ ha]
    exact readbackOutRule_answers _ _ _
  | release =>
    rw [exec, execRelease, accept_accepts _ ha]
    exact .inr ⟨_, .release, rfl⟩
  | hinc => simp [isCommand] at hc
  | emit => simp [isCommand] at hc

/-- A command is its rule behind acceptance. -/
theorem exec_command_is_accept (i : Instr) (cfg : Config) (hc : isCommand i = true) (hw : i.wf cfg = true) :
    ∃ rule, ∀ s : State, s.cfg = cfg → exec i s = accept rule s := by
  cases i with
  | loadIn base count payload => exact ⟨_, fun s h => by rw [exec, execLoadIn, ifExpressible, if_pos (h ▸ hw)]⟩
  | loadCode base count payload => exact ⟨_, fun s h => by rw [exec, execLoadCode, ifExpressible, if_pos (h ▸ hw)]⟩
  | loadLen base count payload => exact ⟨_, fun s h => by rw [exec, execLoadLen, ifExpressible, if_pos (h ▸ hw)]⟩
  | submitHist n => exact ⟨_, fun s _ => rfl⟩
  | submitEnc n => exact ⟨_, fun s _ => rfl⟩
  | readbackHist base count => exact ⟨_, fun s _ => rfl⟩
  | readbackOut base count => exact ⟨_, fun s _ => rfl⟩
  | release => exact ⟨_, fun s _ => rfl⟩
  | hinc => simp [isCommand] at hc
  | emit => simp [isCommand] at hc

/-- A LOAD whose payload cannot be expressed is refused (R91). -/
theorem exec_inexpressible (i : Instr) {s : State} (h : i.wf s.cfg = false) :
    exec i s = .refused .payloadNotExpressible := by
  cases i with
  | loadIn base count payload => rw [exec, execLoadIn, ifExpressible, if_neg (by simp [h])]
  | loadCode base count payload => rw [exec, execLoadCode, ifExpressible, if_neg (by simp [h])]
  | loadLen base count payload => rw [exec, execLoadLen, ifExpressible, if_neg (by simp [h])]
  | submitHist n => simp [Instr.wf] at h
  | submitEnc n => simp [Instr.wf] at h
  | readbackHist base count => simp [Instr.wf] at h
  | readbackOut base count => simp [Instr.wf] at h
  | release => simp [Instr.wf] at h
  | hinc => simp [Instr.wf] at h
  | emit => simp [Instr.wf] at h

/-- Decoding a command never gives a work-item operation. -/
theorem isCommand_of_decode {cfg : Config} {c : Command} {i : Instr} (h : decodeCommand cfg c = .instr i) :
    isCommand i = true := by
  unfold decodeCommand at h
  split at h
  · simp at h
  · split at h
    · rename_i n b k _ _
      simp only [Decoded.instr.injEq] at h
      subst h
      cases n <;> rfl
    · simp at h

/-- Everything CP's acceptance of a command can do when no job runs. -/
theorem acceptCommand_cases {c : Command} {s t : State} (h : acceptCommand c s = .next t) (hs : s.st ≠ .running) :
    (s.st = .faulted ∧ t = respond (.err s.cause s.info) s) ∨
    (s.st = .idle ∧ s.session = false ∧ nextDraw s = false ∧ t = raiseInCommand .unavail 0 (dropDraw s)) ∨
    (Accepts s ∧ ∃ x info u, (x ≠ FaultCause.none ∧ x ≠ .unavail) ∧ (u = accepted s ∨ u = dropDraw (accepted s)) ∧
      t = raiseInCommand x info u) ∨
    (Accepts s ∧ ∃ i, decodeCommand s.cfg c = .instr i ∧ Effect (accepted s) i t) := by
  unfold acceptCommand at h
  split at h
  · rename_i i hi
    have hc := isCommand_of_decode hi
    by_cases hw : i.wf s.cfg = true
    · obtain ⟨rule, hrule⟩ := exec_command_is_accept i s.cfg hc hw
      rcases accept_cases rule s with ⟨h1, -⟩ | ⟨h1, h2⟩ | ⟨h1, -⟩ | ⟨h1, h2, h3, h4⟩
      · exact absurd h1 hs
      · rw [hrule s rfl, h2] at h
        exact .inl ⟨h1, by simpa using h.symm⟩
      · rcases exec_accepts i hc hw h1 with ⟨x, info, u, hx, hu, he⟩ | ⟨u, hu, he⟩
        · rw [he] at h
          exact .inr (.inr (.inl ⟨h1, x, info, u, hx, hu, by simpa using h.symm⟩))
        · rw [he] at h
          simp only [Host.Outcome.next.injEq] at h
          exact .inr (.inr (.inr ⟨h1, i, hi, h ▸ hu⟩))
      · rw [hrule s rfl, h4] at h
        exact .inr (.inl ⟨h1, h2, h3, by simpa using h.symm⟩)
    · rw [exec_inexpressible i (by simpa using hw)] at h
      simp at h
  · unfold acceptIllegal at h
    rcases accept_cases (fun s => .next (raiseInCommand .illegal (w0Of c.desc) s)) s with
      ⟨h1, -⟩ | ⟨h1, h2⟩ | ⟨h1, h2⟩ | ⟨h1, h2, h3, h4⟩
    · exact absurd h1 hs
    · rw [h2] at h
      exact .inl ⟨h1, by simpa using h.symm⟩
    · rw [h2] at h
      exact .inr (.inr (.inl ⟨h1, .illegal, w0Of c.desc, _, by simp, .inl rfl, by simpa using h.symm⟩))
    · rw [h4] at h
      exact .inr (.inl ⟨h1, h2, h3, by simpa using h.symm⟩)
  · simp at h
  · simp at h

end Sys2Proof.Machine
end

