-- ==== Sys2Proof/Laws/Host.lean ====
section
/-! SUPPORT. What the host's data operations do: filling the table of counts, and the decoder oracle. -/

namespace Sys2Proof.Machine

/-- Storing the counts read from `base` on: exactly the entries read change (R270, log entry 20). -/
theorem tableCount_storeCounts (f : List Nat) (base : Nat) (vs : List Nat) (k : Nat) :
    tableCount (storeCounts f base vs) k =
      if base ≤ k ∧ k < base + vs.length then tableCount vs (k - base) else tableCount f k := by
  have hlen : ((f ++ List.replicate (base - f.length) 0).take base).length = base := by
    simp; omega
  unfold storeCounts tableCount
  simp only [List.getD_eq_getElem?_getD]
  by_cases h1 : k < base
  · rw [if_neg (by omega), List.append_assoc, List.getElem?_append_left (by omega), List.getElem?_take, if_pos h1]
    by_cases h2 : k < f.length
    · rw [List.getElem?_append_left h2]
    · rw [List.getElem?_append_right (by omega), List.getElem?_replicate, List.getElem?_eq_none (by omega : f.length ≤ k)]
      split <;> rfl
  · by_cases h2 : k < base + vs.length
    · rw [if_pos ⟨by omega, h2⟩, List.append_assoc, List.getElem?_append_right (by omega), hlen,
        List.getElem?_append_left (by omega)]
    · rw [if_neg (by omega), List.getElem?_append_right (by simp [hlen]; omega), List.getElem?_drop]
      congr 2
      simp [hlen]
      omega

/-- A whole read into an empty table is what was read. -/
@[simp] theorem storeCounts_nil (vs : List Nat) : storeCounts [] 0 vs = vs := by simp [storeCounts]

/-- The decoder takes the one symbol that matches. -/
theorem decodeBits_unique {c : CodeTable} {k : Nat} {b : Bool} {w : List Bool} {p : Nat × CodeWord}
    (h : c.filter (fun q => (codeBits q.2).isPrefixOf (b :: w)) = [p]) :
    decodeBits c (k + 1) (b :: w) =
      (decodeBits c k ((b :: w).drop p.2.length)).map (fun text => BitVec.ofNat 8 p.1 :: text) := by
  simp only [decodeBits, h]
  cases decodeBits c k ((b :: w).drop p.2.length) <;> simp

end Sys2Proof.Machine
end

