-- ==== Sys2Proof/Laws/PerInstr.lean ====
section
/-! SUPPORT. Laws of every instruction, one lemma per constructor. The family `TableRow`: the encoder sets the fixed bits of
the instruction's row of spec/opcode_table.json, its "match" under its "mask" for format C and its "encoding" for format
K. -/

namespace Sys2Proof.Laws.TableRow

open Sys2Proof

/-- The fixed bits of a row of the opcode table. -/
inductive FixedBits where
  | formatC (mask bits : Descriptor)
  | formatK (bits : BitVec 4)
  deriving DecidableEq, Repr

/-- The rows of spec/opcode_table.json. -/
def rowOf : Instr → FixedBits
  | .loadIn _ _ _ => .formatC 0xFFFFFFFF0000000000000000 0x100000000000000000000000
  | .loadCode _ _ _ => .formatC 0xFFFFFFFF0000000000000000 0x120000000000000000000000
  | .loadLen _ _ _ => .formatC 0xFFFFFFFF0000000000000000 0x130000000000000000000000
  | .submitHist _ => .formatC 0xFFFFFFFFFFFFFFFF00000000 0x210000000000000000000000
  | .submitEnc _ => .formatC 0xFFFFFFFFFFFFFFFF00000000 0x220000000000000000000000
  | .readbackHist _ _ => .formatC 0xFFFFFFFF0000000000000000 0x310000000000000000000000
  | .readbackOut _ _ => .formatC 0xFFFFFFFF0000000000000000 0x340000000000000000000000
  | .release => .formatC 0xFFFFFFFFFFFFFFFFFFFFFFFF 0x400000000000000000000000
  | .hinc => .formatK 0b0001
  | .emit => .formatK 0b0010

/-- The encoding of an instruction has the fixed bits. -/
def Agrees : FixedBits → Encoded → Prop
  | .formatC mask bits, .command c => c.desc &&& mask = bits
  | .formatK bits, .kind k => k = bits
  | .formatC _ _, .kind _ => False
  | .formatK _, .command _ => False

/-- The encoding of an instruction agrees with its row. -/
def Statement (i : Instr) : Prop := Agrees (rowOf i) (encode i)

theorem descriptor_masked (w0 base count : Word) :
    descriptor w0 base count &&& 0xFFFFFFFF0000000000000000 = descriptor w0 0 0 := by
  show (w0 ++ base ++ count : BitVec (32 + 32 + 32)) &&&
    (BitVec.allOnes 32 ++ (0 : Word) ++ (0 : Word) : BitVec (32 + 32 + 32)) = _
  rw [BitVec.and_append, BitVec.and_append, BitVec.and_allOnes]
  simp [descriptor]

theorem descriptor_masked_base (w0 count : Word) :
    descriptor w0 0 count &&& 0xFFFFFFFFFFFFFFFF00000000 = descriptor w0 0 0 := by
  show (w0 ++ (0 : Word) ++ count : BitVec (32 + 32 + 32)) &&&
    (BitVec.allOnes 32 ++ BitVec.allOnes 32 ++ (0 : Word) : BitVec (32 + 32 + 32)) = _
  rw [BitVec.and_append, BitVec.and_append, BitVec.and_allOnes]
  simp [descriptor]

theorem loadIn (base count : Word) (payload : List Symbol) : Statement (.loadIn base count payload) := by
  exact (descriptor_masked _ base count).trans (by decide)
theorem loadCode (base count : Word) (payload : List Nat) : Statement (.loadCode base count payload) := by
  exact (descriptor_masked _ base count).trans (by decide)
theorem loadLen (base count : Word) (payload : List Nat) : Statement (.loadLen base count payload) := by
  exact (descriptor_masked _ base count).trans (by decide)
theorem submitHist (n : Word) : Statement (.submitHist n) := by
  exact (descriptor_masked_base _ n).trans (by decide)
theorem submitEnc (n : Word) : Statement (.submitEnc n) := by
  exact (descriptor_masked_base _ n).trans (by decide)
theorem readbackHist (base count : Word) : Statement (.readbackHist base count) := by
  exact (descriptor_masked _ base count).trans (by decide)
theorem readbackOut (base count : Word) : Statement (.readbackOut base count) := by
  exact (descriptor_masked _ base count).trans (by decide)
theorem release : Statement .release := by
  show descriptor 0x40000000 0 0 &&& 0xFFFFFFFFFFFFFFFFFFFFFFFF = (0x400000000000000000000000 : Descriptor)
  decide
theorem hinc : Statement .hinc := by exact rfl
theorem emit : Statement .emit := by exact rfl

end Sys2Proof.Laws.TableRow
end

