-- ==== Sys2Proof/Laws/Step.lean ====
section
/-! SUPPORT. What a step can do, said once: the step of a work-item, and the cases of the whole step. -/

namespace Sys2Proof.Machine

/-! ## Work-items -/

theorem position_newWorkItem {i : Nat} (h : i < 2 ^ 32) : position (newWorkItem i) = i := by
  rw [position, newWorkItem, BitVec.toNat_ofNat, Nat.mod_eq_of_lt h]

/-- The other registers do not matter for the position. -/
@[simp] theorem position_update (w : WorkItem) (sym : Option Symbol) (len pat : Option Nat) :
    position { idx := w.idx, sym := sym, len := len, pat := pat } = position w := rfl

theorem workItemStep_next {kind : JobKind} {body : WorkItem → State → State} {s t : State}
    (h : workItemStep kind body s = .next t) :
    ∃ w, s.wi = some w ∧ s.st = .running ∧ s.jobctl = kind ∧ position w ∈ s.pend ∧ t = body w s := by
  unfold workItemStep at h
  split at h
  · simp at h
  · rename_i w hw
    split at h
    · rename_i he
      simp only [workItemEnabled, Bool.and_eq_true, decide_eq_true_eq, List.contains_iff_mem] at he
      exact ⟨w, hw, he.1.1, he.1.2, he.2, by simpa using h.symm⟩
    · simp at h

theorem workItemStep_enabled {kind : JobKind} {body : WorkItem → State → State} {s : State} {w : WorkItem}
    (hw : s.wi = some w) (h1 : s.st = .running) (h2 : s.jobctl = kind) (h3 : position w ∈ s.pend) :
    workItemStep kind body s = .next (body w s) := by
  simp [workItemStep, hw, workItemEnabled, h1, h2, h3]

/-- Everything HINC can do to a state. -/
theorem hincBody_cases (w : WorkItem) (s : State) :
    (slotRead s.mem.inp (position w) = none ∧ hincBody w s = faultEntry .unwritten w.idx s) ∨
    (∃ v, slotRead s.mem.inp (position w) = some v ∧ hincBody w s = retire { w with sym := some v } (atomicInc v s)) := by
  unfold hincBody
  cases h : slotRead s.mem.inp (position w) with
  | none => exact .inl ⟨rfl, rfl⟩
  | some v => exact .inr ⟨v, rfl, rfl⟩

/-- Everything EMIT can do to a state. -/
theorem emitBody_cases (w : WorkItem) (s : State) :
    (slotRead s.mem.inp (position w) = none ∧ emitBody w s = faultEntry .unwritten w.idx s) ∨
    (∃ v, slotRead s.mem.inp (position w) = some v ∧
      (slotRead s.mem.len v.toNat = none ∨ slotRead s.mem.code v.toNat = none) ∧
      emitBody w s = faultEntry .nocode (v.setWidth 32) s) ∨
    (∃ v l c, slotRead s.mem.inp (position w) = some v ∧ slotRead s.mem.len v.toNat = some l ∧
      slotRead s.mem.code v.toNat = some c ∧
      emitBody w s = retire { w with sym := some v, len := some l, pat := some c } (writeRecord (position w) c s)) := by
  unfold emitBody
  cases h : slotRead s.mem.inp (position w) with
  | none => exact .inl ⟨rfl, rfl⟩
  | some v =>
    refine .inr ?_
    simp only
    cases hl : slotRead s.mem.len v.toNat with
    | none => exact .inl ⟨v, rfl, .inl hl, rfl⟩
    | some l =>
      cases hc : slotRead s.mem.code v.toNat with
      | none => exact .inl ⟨v, rfl, .inr hc, rfl⟩
      | some c => exact .inr ⟨v, l, c, rfl, hl, hc, rfl⟩

/-- The atomic increment where the count fits. -/
theorem atomicInc_fits {v : Symbol} {s : State} (h : countRead s.mem.hist v.toNat + 1 < 2 ^ s.cfg.cntW) :
    atomicInc v s =
      { s with mem := { s.mem with hist := countWrite s.mem.hist v.toNat (countRead s.mem.hist v.toNat + 1) } } := by
  simp [atomicInc, h]

/-! ## The step of a pending work-item -/

/-- The step of a pending work-item of a histogram job. -/
theorem stepWorkItem_hist {i : Nat} {s : State} (hst : s.st = .running) (hk : s.jobctl = .hist) (hi : i ∈ s.pend)
    (hb : i < 2 ^ 32) :
    stepWorkItem i s = .next (endWorkItem (hincBody (newWorkItem i) (beginWorkItem i s))) := by
  simp only [stepWorkItem, hk, workItemOperation, exec, execHinc]
  rw [workItemStep_enabled (w := newWorkItem i) (by simp) (by simpa using hst) (by simpa using hk)
    (by rw [position_newWorkItem hb]; simpa using hi)]
  rfl

/-- The step of a pending work-item of an encode job. -/
theorem stepWorkItem_enc {i : Nat} {s : State} (hst : s.st = .running) (hk : s.jobctl = .enc) (hi : i ∈ s.pend)
    (hb : i < 2 ^ 32) :
    stepWorkItem i s = .next (endWorkItem (emitBody (newWorkItem i) (beginWorkItem i s))) := by
  simp only [stepWorkItem, hk, workItemOperation, exec, execEmit]
  rw [workItemStep_enabled (w := newWorkItem i) (by simp) (by simpa using hst) (by simpa using hk)
    (by rw [position_newWorkItem hb]; simpa using hi)]
  rfl

theorem stepWorkItem_next {i : Nat} {s t : State} (h : stepWorkItem i s = .next t) :
    s.st = .running ∧ position (newWorkItem i) ∈ s.pend ∧
    ((s.jobctl = .hist ∧ t = endWorkItem (hincBody (newWorkItem i) (beginWorkItem i s))) ∨
     (s.jobctl = .enc ∧ t = endWorkItem (emitBody (newWorkItem i) (beginWorkItem i s)))) := by
  unfold stepWorkItem at h
  cases hk : s.jobctl with
  | none => simp [hk, workItemOperation] at h
  | hist =>
    simp only [hk, workItemOperation, exec, execHinc] at h
    obtain ⟨u, hu, rfl⟩ := mapNext_eq_next h
    obtain ⟨w, hw, h1, -, h3, rfl⟩ := workItemStep_next hu
    simp only [beginWorkItem_wi, Option.some.injEq] at hw
    subst hw
    exact ⟨by simpa using h1, by simpa using h3, .inl ⟨rfl, rfl⟩⟩
  | enc =>
    simp only [hk, workItemOperation, exec, execEmit] at h
    obtain ⟨u, hu, rfl⟩ := mapNext_eq_next h
    obtain ⟨w, hw, h1, -, h3, rfl⟩ := workItemStep_next hu
    simp only [beginWorkItem_wi, Option.some.injEq] at hw
    subst hw
    exact ⟨by simpa using h1, by simpa using h3, .inr ⟨rfl, rfl⟩⟩

/-! ## The step -/

/-- The enabled steps of a block that is not running and holds a command. -/
theorem enabledActions_held {s : State} {c : Command} (hh : s.held = some c) (hst : s.st ≠ .running) :
    enabledActions s = [.accept] := by
  simp [enabledActions, hst, hh, orchReady]

/-- The step taken is an enabled one. -/
theorem pickAction_mem (a : Action) (as : List Action) (s : State) : pickAction a as s ∈ a :: as := by
  unfold pickAction
  split
  · exact List.mem_cons_self
  · have hl : nextChoice s % (as.length + 1) < (a :: as).length := Nat.mod_lt _ (Nat.succ_pos _)
    rw [List.getD_eq_getElem _ _ hl]
    exact List.getElem_mem hl

/-- Everything a step can do: one enabled action of the state itself, or of the state with one choice of the schedule used
up, which differs in `env` only; the acceptance of a command is never one of several. -/
theorem step_cases {s t : State} (h : step s = .next t) :
    s.cfg.wf = true ∧ ∃ u, (u = s ∨ u = dropChoice s) ∧
      ((∃ i, s.st = .running ∧ i ∈ s.pend ∧ stepWorkItem i u = .next t) ∨
       (s.st = .running ∧ s.pend = [] ∧ t = completeJob u) ∨
       (s.st = .running ∧ t = failJob u) ∨
       (s.st ≠ .running ∧ u = s ∧ ∃ c, s.held = some c ∧ acceptCommand c s = .next t) ∨
       (s.held = none ∧ t = orchStep u)) := by
  have key : ∀ (a : Action) (u : State), a ∈ enabledActions s → (u = s ∨ u = dropChoice s) → act a u = .next t →
      (enabledActions s = [.accept] → u = s) →
      (∃ i, s.st = .running ∧ i ∈ s.pend ∧ stepWorkItem i u = .next t) ∨
       (s.st = .running ∧ s.pend = [] ∧ t = completeJob u) ∨
       (s.st = .running ∧ t = failJob u) ∨
       (s.st ≠ .running ∧ u = s ∧ ∃ c, s.held = some c ∧ acceptCommand c s = .next t) ∨
       (s.held = none ∧ t = orchStep u) := by
    intro a u ha hu hact hone
    have hheld : u.held = s.held := by rcases hu with rfl | rfl <;> simp
    cases a with
    | workItem i =>
      unfold enabledActions jobActions orchReady at ha
      refine .inl ⟨i, ?_, ?_, hact⟩ <;> (split at ha <;> simp_all)
    | complete =>
      unfold enabledActions jobActions orchReady at ha
      refine .inr (.inl ⟨?_, ?_, by simpa [act] using hact.symm⟩) <;> (split at ha <;> simp_all)
    | jobFail =>
      unfold enabledActions jobActions orchReady at ha
      refine .inr (.inr (.inl ⟨?_, by simpa [act] using hact.symm⟩))
      split at ha <;> simp_all
    | accept =>
      refine .inr (.inr (.inr (.inl ?_)))
      simp only [act, hheld] at hact
      split at hact
      · rename_i c hc
        have hst : s.st ≠ .running := by
          intro hr
          simp [enabledActions, jobActions, hr] at ha
        have hus := hone (enabledActions_held hc hst)
        exact ⟨hst, hus, c, hc, hus ▸ hact⟩
      · simp at hact
    | host =>
      unfold enabledActions jobActions orchReady at ha
      refine .inr (.inr (.inr (.inr ⟨?_, by simpa [act] using hact.symm⟩)))
      split at ha <;> simp at ha <;> simp_all
  unfold step stepAny at h
  split at h
  · rename_i hw
    refine ⟨hw, ?_⟩
    split at h
    · simp at h
    · rename_i a as he
      have hmem : pickAction a as s ∈ enabledActions s := by rw [he]; exact pickAction_mem a as s
      rw [chooseAction] at h
      cases as with
      | nil => exact ⟨s, .inl rfl, key _ s hmem (.inl rfl) h (fun _ => rfl)⟩
      | cons b as => exact ⟨dropChoice s, .inr rfl, key _ _ hmem (.inr rfl) h (fun h1 => by simp [he] at h1)⟩
  · simp at h

end Sys2Proof.Machine
end

