-- ==== Sys2Proof/Tests/Slice0.lean ====
section
/-! SUPPORT. The model's own tests, each about one step or one table. Expected values come from the spec's examples, its
vectors V1 to V32 and its programs P1 to P5 (95_test_vectors.md), at its parameters (widths 32, 32, 8, `CAP = 16`). The
second half holds one witness for each statement with hypotheses: a concrete state and operands that meet them all. -/

namespace Sys2Proof.Tests

open Sys2Proof Sys2Proof.Machine

/-! ## Small states -/

/-- The next state, where there is one. -/
def after (r : Result) : Option State :=
  match r with
  | .next t => some t
  | .fault _ => none
  | .refused _ => none

/-- Reset, the accelerator acquired, every draw listed succeeding. -/
def acquired : State :=
  { State.reset with session := true, env := { draws := [true, true], choices := [], fresh := 0 } }

/-- "AABCBAD" in IN (R185). -/
def text : List Symbol := [65, 65, 66, 67, 66, 65, 68]
def inText : Slots Symbol := [(0, 65), (1, 65), (2, 66), (3, 67), (4, 66), (5, 65), (6, 68)]

/-- P1 after command 15: both jobs of "AABCBAD" done. -/
def done : State :=
  { acquired with
    mem := { inp := inText, hist := [(65, 3), (66, 2), (67, 1), (68, 1)], code := [(65, 0), (66, 2), (67, 6), (68, 7)]
             len := [(65, 1), (66, 2), (67, 3), (68, 3)]
             out := [(0, 0), (1, 0), (2, 2), (3, 6), (4, 2), (5, 0), (6, 7)] }
    seals := { inp := true, hist := true, code := true, len := true, out := true }
    jobctl := .enc, jobn := 7, jobseq := 2 }

/-- A histogram job over "AABCBAD" with position 2 taking its step and "B" counted once (R102, example). -/
def histogramming : State :=
  { acquired with
    mem := { Memory.fresh with inp := inText, hist := [(65, 1), (66, 1)] }
    seals := { Seals.fresh with inp := true }
    jobctl := .hist, jobn := 7, jobseq := 1, st := .running, pend := [1, 2, 3, 5, 6]
    wi := some { idx := 2, sym := none, len := none, pat := none } }

/-- An encode job over "AABCBAD" with position 3 taking its step (R162, example). -/
def encoding : State :=
  { done with
    mem := { done.mem with out := [] }, seals := { done.seals with out := false }
    st := .running, pend := [0, 1, 2, 3, 4, 5, 6]
    wi := some { idx := 3, sym := none, len := none, pat := none } }

/-! ## Reset (R40) -/

theorem test_reset_memory_is_canonical : State.reset.mem.wf = true ∧ State.reset.mem.fits State.reset.cfg = true := by decide

/-! ## WellFormed: an ill-formed term for each check (R91), and a configuration for each constraint (R6) -/

theorem test_wf_accepts : (Instr.loadIn 0 1 [65]).wf Config.default = true ∧
    (Instr.loadCode 0 1 [2 ^ 32 - 1]).wf Config.default = true ∧ (Instr.loadLen 0 1 [255]).wf Config.default = true := by
  decide
theorem test_wf_refuses_loadIn_length : (Instr.loadIn 0 2 [65]).wf Config.default = false := by decide
theorem test_wf_refuses_loadCode_length : (Instr.loadCode 0 1 []).wf Config.default = false := by decide
theorem test_wf_refuses_loadCode_width : (Instr.loadCode 0 1 [2 ^ 32]).wf Config.default = false := by decide
theorem test_wf_refuses_loadLen_length : (Instr.loadLen 0 0 [1]).wf Config.default = false := by decide
theorem test_wf_refuses_loadLen_width : (Instr.loadLen 0 1 [256]).wf Config.default = false := by decide

theorem test_config_wf_accepts : Config.default.wf = true ∧
    ({ cntW := 32, codeW := 32, lenW := 8, cap := 2 ^ 32 - 1 } : Config).wf = true ∧
    ({ cntW := 1, codeW := 1, lenW := 1, cap := 1 } : Config).wf = true := by decide
theorem test_config_refuses_cntW : ({ cntW := 0, codeW := 32, lenW := 8, cap := 0 } : Config).wf = false := by decide
theorem test_config_refuses_codeW : ({ cntW := 32, codeW := 0, lenW := 8, cap := 16 } : Config).wf = false := by decide
theorem test_config_refuses_lenW : ({ cntW := 32, codeW := 1, lenW := 0, cap := 16 } : Config).wf = false := by decide
theorem test_config_refuses_short_lengths : ({ cntW := 32, codeW := 32, lenW := 5, cap := 16 } : Config).wf = false := by
  decide
theorem test_config_refuses_cap_above_field : ({ cntW := 40, codeW := 32, lenW := 8, cap := 2 ^ 32 } : Config).wf = false := by
  decide
theorem test_config_refuses_cap_above_count : ({ cntW := 4, codeW := 32, lenW := 8, cap := 16 } : Config).wf = false := by
  decide

/-! ## Decoding: the descriptors of V28, from the fields of R86 and R88 -/

theorem test_decode_loadIn : decodeHeader 0x100000000000000000000007 = .legal .loadIn 0 7 ∧
    decodeHeader 0x100000000000000200000001 = .legal .loadIn 2 1 := by decide
theorem test_decode_loadCode : decodeHeader 0x120000000000004100000004 = .legal .loadCode 65 4 ∧
    decodeHeader 0x120000000000004300000001 = .legal .loadCode 67 1 := by decide
theorem test_decode_loadLen : decodeHeader 0x130000000000004100000004 = .legal .loadLen 65 4 := by decide
theorem test_decode_submitHist : decodeHeader 0x210000000000000000000007 = .legal .submitHist 0 7 ∧
    decodeHeader 0x210000000000000000000000 = .legal .submitHist 0 0 := by decide
theorem test_decode_submitEnc : decodeHeader 0x220000000000000000000007 = .legal .submitEnc 0 7 := by decide
theorem test_decode_readbackHist : decodeHeader 0x310000000000000000000100 = .legal .readbackHist 0 256 := by decide
theorem test_decode_readbackOut : decodeHeader 0x340000000000000000000007 = .legal .readbackOut 0 7 := by decide
theorem test_decode_release : decodeHeader 0x400000000000000000000000 = .legal .release 0 0 := by decide
theorem test_decode_work_items : decodeKind 0b0001 = .instr .hinc ∧ decodeKind 0b0010 = .instr .emit ∧
    decodeKind 0b0000 = .noOperation := by decide

/-- The instructions with their operands and payload (R91). -/
theorem test_decode_commands :
    decodeCommand Config.default { desc := 0x100000000000000200000001, payload := [67] } = .instr (.loadIn 2 1 [67]) ∧
    decodeCommand Config.default { desc := 0x120000000000004100000002, payload := [0, 2] } = .instr (.loadCode 65 2 [0, 2]) ∧
    decodeCommand Config.default { desc := 0x130000000000004100000002, payload := [1, 2] } = .instr (.loadLen 65 2 [1, 2]) ∧
    decodeCommand Config.default { desc := 0x210000000000000000000007, payload := [] } = .instr (.submitHist 7) ∧
    decodeCommand Config.default { desc := 0x220000000000000000000007, payload := [] } = .instr (.submitEnc 7) ∧
    decodeCommand Config.default { desc := 0x310000000000000000000100, payload := [] } = .instr (.readbackHist 0 256) ∧
    decodeCommand Config.default { desc := 0x340000000000000000000007, payload := [] } = .instr (.readbackOut 0 7) ∧
    decodeCommand Config.default { desc := 0x400000000000000000000000, payload := [] } = .instr .release := by decide

/-- V29. -/
theorem test_decode_illegal :
    decodeHeader 0x000000000000000000000000 = .illegal .opcode ∧ decodeHeader 0x500000000000000000000000 = .illegal .opcode ∧
    decodeHeader 0x110000000000000000000001 = .illegal .selector ∧ decodeHeader 0x140000000000000000000000 = .illegal .selector ∧
    decodeHeader 0x300000000000000000000001 = .illegal .selector ∧ decodeHeader 0x200000000000000000000001 = .illegal .selector ∧
    decodeHeader 0x230000000000000000000001 = .illegal .selector ∧
    decodeHeader 0x210000000000000100000007 = .illegal .baseNotZero ∧
    decodeHeader 0x400000000000000000000001 = .illegal .countNotZero ∧
    decodeHeader 0x210000010000000000000007 = .illegal .reservedBits := by decide

/-- The rows of the opcode table, as the host words them. -/
theorem test_table_words :
    decodeTableWord 96 0x100000000000000000000000 = some (.loadIn 0 0 []) ∧
    decodeTableWord 96 0x120000000000000000000002 = some (.loadCode 0 2 [0, 0]) ∧
    decodeTableWord 96 0x130000000000000000000000 = some (.loadLen 0 0 []) ∧
    decodeTableWord 8 1 = some .hinc ∧ decodeTableWord 8 2 = some .emit ∧ decodeTableWord 8 0x11 = none ∧
    decodeTableWord 96 0 = none := by decide

/-- A command placed by withFetchWord is the next step, and so is a work-item operation. -/
theorem test_fetch_runs_the_word :
    (after (step (State.reset.withFetchWord 96 0x400000000000000000000000))).map (fun t => (t.response, t.session)) =
      some (some .ok, true) ∧
    (after (step (State.reset.withFetchWord 8 1))).map (fun t => (t.st, t.cause, t.info)) =
      some (.faulted, .unwritten, 0) := by decide

/-! ## LOAD.IN (R185 example; V30) -/

theorem test_loadIn_writes : (after (exec (.loadIn 0 7 text) acquired)).map (fun t => (t.mem.inp, t.response)) =
    some (inText, some .ok) := by decide
theorem test_loadIn_range : (after (exec (.loadIn 15 2 [65, 66]) acquired)).map (fun t => (t.mem, t.cause, t.info, t.response)) =
    some (Memory.fresh, .range, 0x10000000, some (.err .range 0x10000000)) := by decide

/-! ## LOAD.CODE (R186 example; V31: PROTOCOL before RANGE) -/

theorem test_loadCode_writes : (after (exec (.loadCode 65 4 [0, 2, 6, 7]) acquired)).map (fun t => (t.mem.code, t.st)) =
    some ([(65, 0), (66, 2), (67, 6), (68, 7)], .idle) := by decide
theorem test_loadCode_sealed_before_range : (after (exec (.loadCode 255 2 [0, 0]) done)).map (fun t => (t.cause, t.info)) =
    some (.protocol, 0x12000000) := by decide

/-! ## LOAD.LEN (R187 example; V30: a second LOAD of a slot) -/

theorem test_loadLen_writes : (after (exec (.loadLen 65 4 [1, 2, 3, 3]) acquired)).map (fun t => t.mem.len) =
    some [(65, 1), (66, 2), (67, 3), (68, 3)] := by decide
theorem test_loadLen_twice : (after (exec (.loadLen 65 1 [1]) { acquired with mem := { Memory.fresh with len := [(65, 1)] } })).map
    (fun t => (t.cause, t.info)) = some (.protocol, 0x13000000) := by decide

/-! ## SUBMIT.HIST (R188 example; V30: JOBFAIL) -/

theorem test_submitHist_launches : (after (exec (.submitHist 7) acquired)).map
    (fun t => (t.pend, t.jobctl, t.jobn, t.st, t.response)) =
    some ([0, 1, 2, 3, 4, 5, 6], .hist, 7, .running, some (.okHandle 1)) := by decide
theorem test_submitHist_jobfail : (after (exec (.submitHist 3) { acquired with env := { acquired.env with draws := [false] } })).map
    (fun t => (t.cause, t.info, t.seals.inp, t.jobseq, t.st)) = some (.jobfail, 1, false, 0, .faulted) := by decide

/-! ## SUBMIT.ENC (R189 example; V30: a second encode job) -/

theorem test_submitEnc_launches :
    (after (exec (.submitEnc 7) { done with jobctl := .hist, jobseq := 1, seals := { Seals.fresh with inp := true, hist := true } })).map
      (fun t => (t.pend, t.jobctl, t.response, t.seals)) =
    some ([0, 1, 2, 3, 4, 5, 6], .enc, some (.okHandle 2),
      { inp := true, hist := true, code := true, len := true, out := false }) := by decide
theorem test_submitEnc_twice : (after (exec (.submitEnc 0) done)).map (fun t => (t.cause, t.info, t.jobseq)) =
    some (.protocol, 0x22000000, 2) := by decide

/-! ## READBACK.HIST (R191 example; V5: RANGE) -/

theorem test_readbackHist_returns : (after (exec (.readbackHist 65 4) done)).map (fun t => t.response) =
    some (some (.okList [3, 2, 1, 1])) := by decide
theorem test_readbackHist_range : (after (exec (.readbackHist 255 2) done)).map (fun t => (t.cause, t.info)) =
    some (.range, 0x31000000) := by decide

/-! ## READBACK.OUT (V22) -/

theorem test_readbackOut_returns : (after (exec (.readbackOut 2 3) done)).map (fun t => t.response) =
    some (some (.okList [2, 6, 2])) := by decide
theorem test_readbackOut_unwritten : (after (exec (.readbackOut 0 8) done)).map (fun t => (t.cause, t.info)) =
    some (.unwritten, 7) := by decide

/-! ## RELEASE (P1 command 16; R193: keeps SEQ) -/

theorem test_release_clears : (after (exec .release done)).map
    (fun t => (t.mem, t.seals, t.jobctl, t.jobn, t.jobseq, t.session)) =
    some (Memory.fresh, Seals.fresh, .none, 0, 2, true) := by decide

/-! ## HINC (R102 example; V8: UNWRITTEN) -/

theorem test_hinc_counts : (after (exec .hinc histogramming)).map (fun t => (t.mem.hist, t.pend)) =
    some ([(65, 1), (66, 2)], [1, 3, 5, 6]) := by decide
theorem test_hinc_unwritten : (after (exec .hinc { histogramming with mem := { Memory.fresh with inp := [(0, 65)] } })).map
    (fun t => (t.cause, t.info, t.mem.hist, t.pend)) = some (.unwritten, 2, [], [1, 2, 3, 5, 6]) := by decide

/-! ## EMIT (R162 example; V26: LEN missing) -/

theorem test_emit_writes : (after (exec .emit encoding)).map (fun t => (t.mem.out, t.pend)) =
    some ([(3, 6)], [0, 1, 2, 4, 5, 6]) := by decide
theorem test_emit_nocode : (after (exec .emit { encoding with mem := { encoding.mem with len := [(65, 1)] } })).map
    (fun t => (t.cause, t.info, t.mem.out)) = some (.nocode, 67, []) := by decide

/-! ## Acceptance, completion -/

/-- V31: an illegal descriptor with the acquisition draw failing is UNAVAIL; acquired, it is ILLEGAL with `W0` (R226). -/
theorem test_illegal_and_unavail :
    (after (acceptCommand { desc := 0x500000000000000000000000, payload := [] }
      { State.reset with env := { draws := [false], choices := [], fresh := 0 } })).map (fun t => (t.cause, t.info)) =
      some (.unavail, 0) ∧
    (after (acceptCommand { desc := 0x210000000000000100000063, payload := [] } acquired)).map (fun t => (t.cause, t.info)) =
      some (.illegal, 0x21000000) := by decide

/-- V7: the completion step of an empty histogram job. -/
theorem test_completion : (after (act .complete { acquired with jobctl := .hist, st := .running })).map
    (fun t => (t.seals.hist, t.seals.out, t.st)) = some (true, false, .idle) := by decide

/-! ## The host procedures -/

/-- The counts of a text. -/
def countsOf (t : List Nat) : List Nat := (List.range 256).map (fun s => t.count s)

/-- V1, R133, R149. -/
theorem test_aabcbad : buildTree (countsOf [65, 65, 66, 67, 66, 65, 68]) =
      some (.internal 7 (.leaf 65 3) (.internal 4 (.leaf 66 2) (.internal 2 (.leaf 67 1) (.leaf 68 1)))) ∧
    codesOf (countsOf [65, 65, 66, 67, 66, 65, 68]) = [(65, ⟨0, 1⟩), (66, ⟨2, 2⟩), (67, ⟨6, 3⟩), (68, ⟨7, 3⟩)] := by
  decide +kernel

/-- V2, V3. -/
theorem test_single_and_empty : codesOf (countsOf [65, 65, 65, 65]) = [(65, ⟨0, 1⟩)] ∧ buildTree (countsOf []) = none := by
  decide +kernel

/-- V23: three symbols with the pattern 1. -/
theorem test_equal_patterns : codesOf (countsOf [65, 65, 65, 65, 65, 65, 66, 66, 66, 67, 68]) =
    [(65, ⟨1, 1⟩), (66, ⟨1, 2⟩), (67, ⟨0, 3⟩), (68, ⟨1, 3⟩)] := by decide +kernel

/-- V21: the stream of "AABCBAD" and its decoding. -/
theorem test_round_trip :
    let c : CodeTable := [(65, ⟨0, 1⟩), (66, ⟨2, 2⟩), (67, ⟨6, 3⟩), (68, ⟨7, 3⟩)]
    let w := [false, false, true, false, true, true, false, true, false, false, true, true, true]
    codeStream c text = some w ∧ decodeStream c w = some text := by decide +kernel

/-- R150, log entry 21: with a hand-made table that is not prefix-free no symbol is "the unique" one, and the decoder
answers nothing; with one match it goes on. -/
theorem test_decoder_needs_the_unique_symbol :
    decodeStream [(65, ⟨0, 1⟩), (66, ⟨0, 2⟩)] [false, false] = none ∧
    decodeStream [(65, ⟨0, 1⟩), (66, ⟨1, 2⟩)] [false, false] = some [65, 65] := by decide +kernel

/-- R191's example read in two parts, log entry 20: `READBACK.HIST 67, 2` returns [1, 1] and `READBACK.HIST 65, 2` returns
[3, 2]; the host then has the four counts, and 0 elsewhere. -/
theorem test_partial_reads_join :
    let o := bindResponse (.counts 65) (.okList [3, 2]) (bindResponse (.counts 67) (.okList [1, 1]) Orchestrator.idle)
    [64, 65, 66, 67, 68, 69].map (tableCount o.counts) = [0, 3, 2, 1, 1, 0] := by decide

/-! ## Witnesses: for each statement with hypotheses, a state and operands that meet them all, clause by clause -/

/-- A property of the next state, found by evaluation. -/
theorem exists_next {r : Result} (P : State → Prop) [DecidablePred P]
    (h : (match r with | .next t => decide (P t) | .fault _ => false | .refused _ => false) = true) :
    ∃ t, r = .next t ∧ P t := by
  cases r with
  | next t => exact ⟨t, rfl, by simpa using h⟩
  | fault _ => simp at h
  | refused _ => simp at h

theorem runsTo_head {s t u : State} (h : Machine.step s = .next t) (hr : RunsTo t u) : RunsTo s u := by
  induction hr with
  | refl => exact .step .refl h
  | step _ hs ih => exact .step ih hs

/-- `n` steps. -/
def runSteps : Nat → State → Result
  | 0, s => .next s
  | n + 1, s =>
    match Machine.step s with
    | .next t => runSteps n t
    | .fault x => .fault x
    | .refused x => .refused x

theorem runsTo_of_run {n : Nat} {s t : State} (h : runSteps n s = .next t) : RunsTo s t := by
  induction n generalizing s with
  | zero => cases h; exact .refl
  | succ n ih =>
    unfold runSteps at h
    split at h
    · next hs => exact runsTo_head hs (ih h)
    · cases h
    · cases h

/-- The block FAULTED by an unwritten position 2 (V8). -/
def broken : State := { acquired with st := .faulted, cause := .unwritten, info := 2, response := none }

/-- A histogram and an encode job between two steps, the schedule's next choice listed. -/
def midHist : State := { histogramming with wi := none, env := { draws := [], choices := [0, 0, 0], fresh := 0 } }
def midEnc : State := { encoding with wi := none, env := { draws := [], choices := [0, 0, 0], fresh := 0 } }

/-- Both jobs with every position stepped, and a command held. -/
def lastHist : State :=
  { midHist with
    mem := { midHist.mem with hist := [(65, 3), (66, 2), (67, 1), (68, 1)] }, pend := []
    held := some (commandOf .readbackHist 0 256 []) }
def lastEnc : State := { midEnc with mem := done.mem, pend := [], held := some (commandOf .readbackOut 0 7 []) }

/-- The first command after reset, READBACK.HIST before any job, with the given acquisition draw. -/
def firstCommand (ok : Bool) : State :=
  { State.reset with
    held := some (commandOf .readbackHist 0 256 [])
    env := { draws := [ok], choices := [], fresh := 0 } }

theorem acquired_inv : Inv acquired := by constructor <;> decide
theorem done_inv : Inv done := by constructor <;> decide
theorem midHist_inv : Inv midHist := by constructor <;> decide
theorem midEnc_inv : Inv midEnc := by constructor <;> decide
theorem broken_inv : Inv broken := by constructor <;> decide
theorem acquired_accepts : Accepts acquired := by exact ⟨rfl, .inl rfl⟩
theorem done_accepts : Accepts done := by exact ⟨rfl, .inl rfl⟩

theorem witness_DecodeOfEncodeIsTheInstruction :
    (Instr.loadCode 255 1 [2 ^ 32 - 1]).wf Config.default = true ∧ (Instr.loadIn 0 0 []).wf Config.default = true ∧
    Instr.hinc.wf Config.default = true := by decide
theorem witness_EncodeOfDecodeIsTheDescriptor :
    decodeCommand Config.default { desc := 0x12000000000000FF00000001, payload := [2 ^ 32 - 1] } =
      .instr (.loadCode 255 1 [2 ^ 32 - 1]) := by decide
theorem witness_IllegalDescriptorsExactly :
    decodeHeader (Command.mk 0x210000000000000100000007 []).desc = .illegal .baseNotZero ∧ Accepts acquired := by
  exact ⟨by decide, acquired_accepts⟩
theorem witness_StepRunsTheDecodedInstruction :
    (let s : State := { acquired with held := some { desc := 0x340000000000000000000000, payload := [] } }
     s.cfg.wf = true ∧ s.held = some { desc := 0x340000000000000000000000, payload := [] } ∧ s.st ≠ .running ∧
       decodeCommand s.cfg { desc := 0x340000000000000000000000, payload := [] } = .instr (.readbackOut 0 0)) ∧
    workItemOperation midHist.jobctl = some .hinc ∧ workItemOperation midEnc.jobctl = some .emit := by decide
theorem witness_EveryEnabledStepCanBeNext :
    (midHist.cfg.wf = true ∧ Action.workItem 6 ∈ enabledActions midHist ∧ Action.jobFail ∈ enabledActions midHist) ∧
    (∃ t, Machine.step midHist = .next t ∧ t.pend = [2, 3, 5, 6]) := by
  exact ⟨by decide, exists_next (fun t => t.pend = [2, 3, 5, 6]) (by decide)⟩
theorem witness_QuiescentExactlyAtTheEnd :
    State.reset.cfg.wf = true ∧ State.reset.st ≠ .running ∧ State.reset.held = none ∧ State.reset.response = none ∧
    State.reset.orch.script = [] := by decide
theorem witness_CommandsAreHeldWhileAJobRuns :
    (isCommand .release = true ∧ Instr.release.wf lastHist.cfg = true ∧ lastHist.st = .running) ∧
    (∃ t, Machine.step lastHist = .next t ∧ t.st = .idle ∧ t.held = lastHist.held) := by
  exact ⟨by decide, exists_next (fun t => t.st = .idle ∧ t.held = lastHist.held) (by decide)⟩
theorem witness_FaultedBlockReportsTheRecordedFault :
    broken.st = .faulted ∧ isCommand (.readbackHist 0 256) = true ∧ (Instr.readbackHist 0 256).wf broken.cfg = true := by decide
theorem witness_AcquisitionByTheFirstCommand :
    (let s : State := { State.reset with env := { draws := [false], choices := [], fresh := 0 } }
     s.st = .idle ∧ s.session = false ∧ nextDraw s = false) ∧
    (let s : State := { State.reset with env := { draws := [true], choices := [], fresh := 0 } }
     s.st = .idle ∧ nextDraw s = true) ∧
    (∃ t, Machine.step midHist = .next t ∧ midHist.session = true) := by
  exact ⟨by decide, by decide, exists_next (fun _ => midHist.session = true) (by decide)⟩
theorem witness_EveryCommandEndsWithOneResponse :
    isCommand (.readbackOut 0 7) = true ∧ (Instr.readbackOut 0 7).wf done.cfg = true ∧ done.st ≠ .running ∧
    broken.st ≠ .running ∧ acquired.st ≠ .running := by decide

/-! The four clauses of a LOAD: effect up to the last slot and on the empty range at the end, PROTOCOL on the tag, RANGE one
slot too far, PROTOCOL on a written slot. -/

theorem witness_LoadInFollowsItsRule : Accepts acquired ∧ Accepts done ∧
    ([65, 66] : List Symbol).length = (2 : Word).toNat ∧
    (acquired.seals.inp = false ∧ (14 : Word).toNat + (2 : Word).toNat ≤ acquired.cfg.cap ∧
      ∀ k, k < (2 : Word).toNat → slotRead acquired.mem.inp ((14 : Word).toNat + k) = none) ∧
    (acquired.seals.inp = false ∧ (16 : Word).toNat + (0 : Word).toNat ≤ acquired.cfg.cap) ∧
    done.seals.inp = true ∧
    (acquired.seals.inp = false ∧ acquired.cfg.cap < (15 : Word).toNat + (2 : Word).toNat) ∧
    (let s : State := { acquired with mem := { Memory.fresh with inp := [(15, 65)] } }
     Accepts s ∧ s.seals.inp = false ∧ (14 : Word).toNat + (2 : Word).toNat ≤ s.cfg.cap ∧
       ∃ k, k < (2 : Word).toNat ∧ slotRead s.mem.inp ((14 : Word).toNat + k) ≠ none) := by
  exact ⟨acquired_accepts, done_accepts, by decide, by decide, by decide, by decide, by decide,
    ⟨rfl, .inl rfl⟩, by decide, by decide, 1, by decide, by decide⟩

theorem witness_LoadCodeFollowsItsRule : Accepts acquired ∧ Accepts done ∧
    ([2 ^ 32 - 1, 0] : List Nat).length = (2 : Word).toNat ∧ (∀ v ∈ [2 ^ 32 - 1, 0], v < 2 ^ acquired.cfg.codeW) ∧
    (acquired.seals.code = false ∧ (254 : Word).toNat + (2 : Word).toNat ≤ 256 ∧
      ∀ k, k < (2 : Word).toNat → slotRead acquired.mem.code ((254 : Word).toNat + k) = none) ∧
    done.seals.code = true ∧
    (acquired.seals.code = false ∧ 256 < (255 : Word).toNat + (2 : Word).toNat) ∧
    (let s : State := { acquired with mem := { Memory.fresh with code := [(255, 0)] } }
     Accepts s ∧ s.seals.code = false ∧ ∃ k, k < (2 : Word).toNat ∧ slotRead s.mem.code ((254 : Word).toNat + k) ≠ none) := by
  exact ⟨acquired_accepts, done_accepts, by decide, by decide, by decide, by decide, by decide,
    ⟨rfl, .inl rfl⟩, by decide, 1, by decide, by decide⟩

theorem witness_LoadLenFollowsItsRule : Accepts acquired ∧ Accepts done ∧
    ([255, 0] : List Nat).length = (2 : Word).toNat ∧ (∀ v ∈ [255, 0], v < 2 ^ acquired.cfg.lenW) ∧
    (acquired.seals.len = false ∧ (254 : Word).toNat + (2 : Word).toNat ≤ 256 ∧
      ∀ k, k < (2 : Word).toNat → slotRead acquired.mem.len ((254 : Word).toNat + k) = none) ∧
    done.seals.len = true ∧
    (acquired.seals.len = false ∧ 256 < (255 : Word).toNat + (2 : Word).toNat) ∧
    (let s : State := { acquired with mem := { Memory.fresh with len := [(255, 0)] } }
     Accepts s ∧ s.seals.len = false ∧ ∃ k, k < (2 : Word).toNat ∧ slotRead s.mem.len ((254 : Word).toNat + k) ≠ none) := by
  exact ⟨acquired_accepts, done_accepts, by decide, by decide, by decide, by decide, by decide,
    ⟨rfl, .inl rfl⟩, by decide, 1, by decide, by decide⟩

theorem witness_InexpressiblePayloadsAreRefused :
    (Instr.loadIn 0 1 []).wf acquired.cfg = false ∧ (Instr.loadCode 0 1 [2 ^ 32]).wf acquired.cfg = false ∧
    (Instr.loadLen 0 1 [256]).wf acquired.cfg = false := by decide

/-! The clauses of a SUBMIT: launch with `n = CAP`, PROTOCOL, RANGE with `n = CAP + 1`, JOBFAIL. -/

theorem witness_SubmitHistFollowsItsRule : Accepts acquired ∧ Accepts done ∧
    (acquired.seals.hist = false ∧ (16 : Word).toNat ≤ acquired.cfg.cap ∧ nextDraw (accepted acquired) = true) ∧
    done.seals.hist = true ∧
    (acquired.seals.hist = false ∧ acquired.cfg.cap < (17 : Word).toNat) ∧
    (let s : State := { acquired with env := { draws := [false], choices := [], fresh := 0 } }
     Accepts s ∧ s.seals.hist = false ∧ (16 : Word).toNat ≤ s.cfg.cap ∧ nextDraw (accepted s) = false) := by
  exact ⟨acquired_accepts, done_accepts, by decide, by decide, by decide, ⟨rfl, .inl rfl⟩, by decide, by decide, by decide⟩

theorem witness_SubmitEncFollowsItsRule : Accepts acquired ∧ Accepts done ∧
    (acquired.seals.out = false ∧ (16 : Word).toNat ≤ acquired.cfg.cap ∧ nextDraw (accepted acquired) = true) ∧
    done.seals.out = true ∧
    (acquired.seals.out = false ∧ acquired.cfg.cap < (17 : Word).toNat) ∧
    (let s : State := { acquired with env := { draws := [false], choices := [], fresh := 0 } }
     Accepts s ∧ s.seals.out = false ∧ (16 : Word).toNat ≤ s.cfg.cap ∧ nextDraw (accepted s) = false) := by
  exact ⟨acquired_accepts, done_accepts, by decide, by decide, by decide, ⟨rfl, .inl rfl⟩, by decide, by decide, by decide⟩

theorem witness_ReadbackHistFollowsItsRule : Accepts acquired ∧ Accepts done ∧
    (done.seals.hist = true ∧ (0 : Word).toNat + (256 : Word).toNat ≤ 256) ∧
    acquired.seals.hist = false ∧
    (done.seals.hist = true ∧ 256 < (1 : Word).toNat + (256 : Word).toNat) := by
  exact ⟨acquired_accepts, done_accepts, by decide, by decide, by decide⟩

theorem witness_ReadbackOutFollowsItsRule : Accepts acquired ∧ Accepts done ∧ done.cfg.cap ≤ 2 ^ 32 - 1 ∧
    (done.seals.out = true ∧ (0 : Word).toNat + (7 : Word).toNat ≤ done.cfg.cap ∧
      ∀ k, k < (7 : Word).toNat → slotRead done.mem.out ((0 : Word).toNat + k) ≠ none) ∧
    acquired.seals.out = false ∧
    (done.seals.out = true ∧ done.cfg.cap < (10 : Word).toNat + (7 : Word).toNat) ∧
    (done.seals.out = true ∧ (0 : Word).toNat + (8 : Word).toNat ≤ done.cfg.cap ∧ 7 < (8 : Word).toNat ∧
      slotRead done.mem.out ((0 : Word).toNat + 7) = none ∧
      ∀ j, j < 7 → slotRead done.mem.out ((0 : Word).toNat + j) ≠ none) := by
  exact ⟨acquired_accepts, done_accepts, by decide, by decide, by decide, by decide, by decide⟩

theorem witness_ReleaseFollowsItsRule : Accepts done ∧ Accepts acquired := by exact ⟨done_accepts, acquired_accepts⟩

theorem witness_HincFollowsItsRule :
    (histogramming.wi = some { idx := 2, sym := none, len := none, pat := none } ∧ histogramming.st = .running ∧
      histogramming.jobctl = .hist ∧ (2 : Word).toNat ∈ histogramming.pend ∧
      slotRead histogramming.mem.inp (2 : Word).toNat = some 66 ∧
      countRead histogramming.mem.hist (66 : Symbol).toNat + 1 < 2 ^ histogramming.cfg.cntW) ∧
    slotRead ({ histogramming with mem := Memory.fresh } : State).mem.inp (2 : Word).toNat = none := by decide

theorem witness_HincOverflowLeavesAFreeCount :
    let s : State := { histogramming with cfg := { Config.default with cntW := 1 } }
    s.wi = some { idx := 2, sym := none, len := none, pat := none } ∧ s.st = .running ∧ s.jobctl = .hist ∧
    (2 : Word).toNat ∈ s.pend ∧ slotRead s.mem.inp (2 : Word).toNat = some 66 ∧
    2 ^ s.cfg.cntW ≤ countRead s.mem.hist (66 : Symbol).toNat + 1 := by decide

theorem witness_CountsNeverOverflow : Inv midHist ∧ midHist.st = .running ∧ midHist.jobctl = .hist ∧ 2 ∈ midHist.pend ∧
    slotRead midHist.mem.inp 2 = some 66 := by
  exact ⟨midHist_inv, by decide⟩

theorem witness_EmitFollowsItsRule :
    (encoding.wi = some { idx := 3, sym := none, len := none, pat := none } ∧ encoding.st = .running ∧
      encoding.jobctl = .enc ∧ (3 : Word).toNat ∈ encoding.pend ∧ slotRead encoding.mem.inp (3 : Word).toNat = some 67 ∧
      slotRead encoding.mem.len (67 : Symbol).toNat = some 3 ∧ slotRead encoding.mem.code (67 : Symbol).toNat = some 6) ∧
    slotRead ({ encoding with mem := Memory.fresh } : State).mem.inp (3 : Word).toNat = none ∧
    slotRead ({ encoding with mem := { encoding.mem with len := [] } } : State).mem.len (67 : Symbol).toNat = none ∧
    slotRead ({ encoding with mem := { encoding.mem with code := [] } } : State).mem.code (67 : Symbol).toNat = none := by
  decide

theorem witness_WorkItemOperationsNeedTheirWorkItem :
    (¬ ∃ w, midHist.wi = some w ∧ midHist.st = .running ∧ midHist.jobctl = .hist ∧ w.idx.toNat ∈ midHist.pend) ∧
    (¬ ∃ w, histogramming.wi = some w ∧ histogramming.st = .running ∧ histogramming.jobctl = .enc ∧
      w.idx.toNat ∈ histogramming.pend) := by
  refine ⟨fun ⟨w, h, _⟩ => ?_, fun ⟨w, _, _, h, _⟩ => ?_⟩
  · exact absurd h (by simp [midHist])
  · exact absurd h (by decide)

theorem witness_AtomicIncrementLosesNoUpdate :
    countRead histogramming.mem.hist (65 : Symbol).toNat + 2 < 2 ^ histogramming.cfg.cntW ∧
    countRead histogramming.mem.hist (255 : Symbol).toNat + 2 < 2 ^ histogramming.cfg.cntW := by decide
theorem witness_CompletionStepFollowsItsRule :
    lastHist.st = .running ∧ lastHist.pend = [] ∧ lastHist.jobctl = .hist ∧ lastEnc.jobctl = .enc ∧ lastEnc.held ≠ none ∧
    (∃ t, act .complete lastHist = .next t ∧ t.st = .idle) := by
  exact ⟨by decide, by decide, by decide, by decide, by decide, exists_next (fun t => t.st = .idle) (by decide)⟩
theorem witness_RunningJobCanFail : midHist.st = .running ∧ midHist.jobctl = .hist ∧ midEnc.st = .running ∧
    midEnc.jobctl = .enc := by decide
theorem witness_EmptyJobsCompleteAtOnce : Accepts acquired ∧
    (∃ t, exec (.submitHist 0) acquired = .next t ∧ t.st = .running) ∧
    (∃ t, exec (.submitEnc 0) acquired = .next t ∧ t.st = .running) := by
  exact ⟨acquired_accepts, exists_next (fun t => t.st = .running) (by decide), exists_next (fun t => t.st = .running) (by decide)⟩
theorem witness_FaultingStepsHaveNoOtherEffect :
    acquired.cause = .none ∧ broken.cause ≠ .none ∧ acquired.st ≠ .faulted ∧
    (∃ t, exec (.readbackHist 0 256) acquired = .next t ∧ t.st = .faulted) ∧
    (Accepts (firstCommand true) ∧ ∃ t, Machine.step (firstCommand true) = .next t ∧ t.st = .faulted) ∧
    (¬ Accepts (firstCommand false) ∧ ∃ t, Machine.step (firstCommand false) = .next t ∧ t.st = .faulted) := by
  exact ⟨by decide, by decide, by decide, exists_next (fun t => t.st = .faulted) (by decide),
    ⟨⟨rfl, .inr rfl⟩, exists_next (fun t => t.st = .faulted) (by decide)⟩,
    ⟨fun h => by simpa [firstCommand, nextDraw, State.reset, State.resetWith] using h.2,
      exists_next (fun t => t.st = .faulted) (by decide)⟩⟩
theorem witness_FaultsAreFinal :
    let s : State := { broken with held := some (commandOf .release 0 0 []) }
    s.st = .faulted ∧ s.cause ≠ .none ∧ Action.accept ∈ enabledActions s ∧
    ∃ t, Machine.step s = .next t ∧ t.response = some (.err .unwritten 2) := by
  exact ⟨by decide, by decide, by decide, exists_next (fun t => t.response = some (.err .unwritten 2)) (by decide)⟩
theorem witness_StatusTransitionsAndParameters :
    (∃ t, Machine.step { acquired with held := some (commandOf .submitHist 0 0 []) } = .next t ∧ t.st = .running) ∧
    (∃ t, Machine.step lastEnc = .next t ∧ t.st = .idle) ∧
    ((firstCommand true).session = false ∧
      ∃ t, Machine.step (firstCommand true) = .next t ∧ t.session = true ∧ t.st = .faulted) := by
  exact ⟨exists_next (fun t => t.st = .running) (by decide), exists_next (fun t => t.st = .idle) (by decide), rfl,
    exists_next (fun t => t.session = true ∧ t.st = .faulted) (by decide)⟩
theorem witness_JobsAreNumbered :
    ∃ t, Machine.step { acquired with jobseq := 0xFFFFFFFF, held := some (commandOf .submitEnc 0 16 []) } = .next t ∧
      t.st = .running ∧ t.jobseq = 0 := by
  exact exists_next (fun t => t.st = .running ∧ t.jobseq = 0) (by decide)
theorem witness_RunningJobsKeepTheirInputs :
    (midHist.st = .running ∧ midHist.jobctl ≠ .enc ∧ ∃ t, Machine.step midHist = .next t ∧ t.mem.hist = [(65, 2), (66, 1)]) ∧
    (midEnc.st = .running ∧ midEnc.jobctl ≠ .hist ∧ ∃ t, Machine.step midEnc = .next t ∧ t.mem.out = [(0, 0)]) := by
  exact ⟨⟨by decide, by decide, exists_next (fun t => t.mem.hist = [(65, 2), (66, 1)]) (by decide)⟩,
    ⟨by decide, by decide, exists_next (fun t => t.mem.out = [(0, 0)]) (by decide)⟩⟩

theorem witness_LaunchStatesHaveTheInvariant : Launch State.reset := by exact ⟨by decide, _, _, rfl⟩
theorem witness_EveryStepKeepsTheInvariant :
    (Inv midHist ∧ ∃ t, Machine.step midHist = .next t ∧ t.pend = [2, 3, 5, 6]) ∧
    (Inv midEnc ∧ ∃ t, Machine.step midEnc = .next t ∧ t.mem.out = [(0, 0)]) := by
  exact ⟨⟨midHist_inv, exists_next (fun t => t.pend = [2, 3, 5, 6]) (by decide)⟩,
    ⟨midEnc_inv, exists_next (fun t => t.mem.out = [(0, 0)]) (by decide)⟩⟩
theorem witness_ReachableStatesSatisfyR41 : Reachable State.reset := by
  exact ⟨_, witness_LaunchStatesHaveTheInvariant, .refl⟩
/-- RELEASE held after both jobs. -/
def releasing : State := { done with held := some (commandOf .release 0 0 []) }
theorem releasing_inv : Inv releasing := by constructor <;> decide
theorem releasing_releases : ReleaseIsAccepted releasing ∧
    ∃ t, Machine.step releasing = .next t ∧ t.mem = Memory.fresh ∧ t.seals = Seals.fresh := by
  exact ⟨⟨⟨rfl, .inl rfl⟩, _, rfl, by decide⟩, exists_next (fun t => t.mem = Memory.fresh ∧ t.seals = Seals.fresh) (by decide)⟩

theorem witness_SealedBuffersAreFinal :
    (Inv midEnc ∧ midEnc.seals.inp = true ∧ midEnc.seals.hist = true ∧ midEnc.seals.code = true ∧ midEnc.seals.len = true ∧
      ∃ t, Machine.step midEnc = .next t ∧ t.mem.out = [(0, 0)]) ∧
    (Inv releasing ∧ releasing.seals.out = true ∧ ReleaseIsAccepted releasing) := by
  exact ⟨⟨midEnc_inv, by decide, by decide, by decide, by decide, exists_next (fun t => t.mem.out = [(0, 0)]) (by decide)⟩,
    releasing_inv, by decide, releasing_releases.1⟩

theorem midHist_soFar : HistogramSoFar midHist ∧ RecordsSoFar midHist := by
  refine ⟨fun _ _ => ?_, fun _ h => absurd h (by decide)⟩
  decide +kernel
theorem midEnc_soFar : HistogramSoFar midEnc ∧ RecordsSoFar midEnc := by
  refine ⟨fun _ h => absurd h (by decide), fun _ _ => ⟨fun i h hp => ?_, fun _ _ => rfl⟩⟩
  exact absurd hp ((by decide : ∀ i, i < midEnc.jobn.toNat → ¬ i ∉ midEnc.pend) i h)

theorem witness_SlotsAreWrittenOncePerRun :
    Inv midEnc ∧ RecordsSoFar midEnc ∧ slotRead midEnc.mem.inp 0 = some 65 ∧
    (∃ t, Machine.step midEnc = .next t ∧ t.mem.out = [(0, 0)]) ∧
    (Inv releasing ∧ RecordsSoFar releasing ∧ ReleaseIsAccepted releasing) := by
  exact ⟨midEnc_inv, midEnc_soFar.2, by decide, exists_next (fun t => t.mem.out = [(0, 0)]) (by decide),
    releasing_inv, fun h => absurd h (by decide), releasing_releases.1⟩
theorem witness_EveryStepKeepsTheJobInvariants :
    (Inv midHist ∧ HistogramSoFar midHist ∧ RecordsSoFar midHist ∧
      ∃ t, Machine.step midHist = .next t ∧ t.st = .running ∧ t.jobctl = .hist) ∧
    (Inv midEnc ∧ HistogramSoFar midEnc ∧ RecordsSoFar midEnc ∧
      ∃ t, Machine.step midEnc = .next t ∧ t.st = .running ∧ t.jobctl = .enc) := by
  exact ⟨⟨midHist_inv, midHist_soFar.1, midHist_soFar.2, exists_next (fun t => t.st = .running ∧ t.jobctl = .hist) (by decide)⟩,
    ⟨midEnc_inv, midEnc_soFar.1, midEnc_soFar.2, exists_next (fun t => t.st = .running ∧ t.jobctl = .enc) (by decide)⟩⟩

/-- The launch state of a host with a script, every draw succeeding, the first enabled step chosen. -/
def launching (script : List OrchOp) : State :=
  { State.reset with
    orch := { Orchestrator.idle with script := script }
    env := { draws := [true, true, true], choices := List.replicate 20 0, fresh := 0 } }

theorem launching_launch (script : List OrchOp) : Launch (launching script) := by
  exact ⟨(by decide : Config.default.wf = true), _, _, rfl⟩

theorem reaches {script : List OrchOp} (n : Nat) (P : State → Prop) [DecidablePred P]
    (h : (match runSteps n (launching script) with
      | .next t => decide (P t) | .fault _ => false | .refused _ => false) = true) :
    ∃ t, RunsTo (launching script) t ∧ P t := by
  obtain ⟨t, ht, hp⟩ := exists_next P h
  exact ⟨t, runsTo_of_run ht, hp⟩

/-- Six steps: the host issues and the block accepts LOAD.IN of "A", the host takes the response, issues SUBMIT.HIST 1, the
block accepts it, the work-item steps. -/
theorem witness_HistogramJobsCountEverySymbol :
    ∃ t, Reachable t ∧ t.st = .running ∧ t.jobctl = .hist ∧ t.pend = [] ∧ t.jobn = 1 := by
  obtain ⟨t, hr, hp⟩ := reaches
    (script := [issueOp .loadIn 0 1 [65] .discard, issueOp .submitHist 0 1 [] .discard]) 6
    (fun t => t.st = .running ∧ t.jobctl = .hist ∧ t.pend = [] ∧ t.jobn = 1) (by decide)
  exact ⟨t, ⟨_, launching_launch _, hr⟩, hp⟩

theorem witness_EncodeJobsWriteEveryRecord :
    ∃ t, Reachable t ∧ t.st = .running ∧ t.jobctl = .enc ∧ t.pend = [] := by
  obtain ⟨t, hr, hp⟩ := reaches (script := [issueOp .submitEnc 0 0 [] .discard]) 2
    (fun t => t.st = .running ∧ t.jobctl = .enc ∧ t.pend = []) (by decide)
  exact ⟨t, ⟨_, launching_launch _, hr⟩, hp⟩

theorem witness_WorkItemsCommute :
    (Inv midHist ∧ midHist.st = .running ∧ 1 ∈ midHist.pend ∧ 5 ∈ midHist.pend ∧
      ∃ a, act (.workItem 1) midHist = .next a ∧ a.st = .running ∧
        ∃ b, act (.workItem 5) a = .next b ∧ b.st = .running) ∧
    (Inv midEnc ∧ ∃ a, act (.workItem 6) midEnc = .next a ∧ a.st = .running ∧
        ∃ b, act (.workItem 0) a = .next b ∧ b.st = .running) := by
  refine ⟨⟨midHist_inv, by decide, by decide, by decide, _, rfl, by decide, _, rfl, by decide⟩,
    midEnc_inv, _, rfl, by decide, _, rfl, by decide⟩
/-- Every launch state has an execution. -/
theorem execution_from {s : State} (h : Launch s) : ∃ e : Nat → State, e 0 = s ∧ Execution e := by
  refine ⟨fun n => Nat.rec s (fun _ u => match Machine.step u with | .next t => t | .fault _ => u | .refused _ => u) n,
    rfl, h, fun n => ?_⟩
  simp only
  split
  · next hs => exact .inl hs
  · next hs => exact .inr ⟨by simp [hs], rfl⟩
  · next hs => exact .inr ⟨by simp [hs], rfl⟩

/-- A running job with no command held, one with a command held, and an execution of PIPELINE. -/
theorem witness_JobsEndAndExecutionsAreFair :
    (Inv midHist ∧ midHist.st = .running ∧ midHist.held = none) ∧
    (Inv lastHist ∧ lastHist.st = .running ∧ lastHist.held ≠ none) ∧
    (∃ e, e 0 = launching [.pipeline text] ∧ Execution e) := by
  refine ⟨⟨midHist_inv, by decide⟩, ⟨?_, by decide⟩, execution_from (launching_launch _)⟩
  constructor <;> decide
theorem witness_EncodeJobsWithFullTablesDoNotFault :
    Inv midEnc ∧ midEnc.st = .running ∧ midEnc.jobctl = .enc ∧ 6 ∈ midEnc.pend ∧
    ∀ k, k < midEnc.jobn.toNat → ∃ v l c, slotRead midEnc.mem.inp k = some v ∧ slotRead midEnc.mem.len v.toNat = some l ∧
      slotRead midEnc.mem.code v.toNat = some c := by
  refine ⟨midEnc_inv, by decide, by decide, by decide, fun k hk => ?_⟩
  have h := (by decide : ∀ k, k < midEnc.jobn.toNat →
    (match slotRead midEnc.mem.inp k with
    | none => false
    | some v => (slotRead midEnc.mem.len v.toNat).isSome && (slotRead midEnc.mem.code v.toNat).isSome) = true) k hk
  split at h
  · simp at h
  · next v hv =>
    rw [Bool.and_eq_true] at h
    obtain ⟨l, hl⟩ := Option.isSome_iff_exists.mp h.1
    obtain ⟨c, hc⟩ := Option.isSome_iff_exists.mp h.2
    exact ⟨v, l, c, hv, hl, hc⟩
theorem witness_HostWaitsForEachResponse :
    lastHist.held = some (commandOf .readbackHist 0 256 []) ∧
    (let s : State := { broken with response := some (.err .unwritten 2) }
     s.response = some (.err .unwritten 2) ∧ s.orch.abortOnErr = true) := by decide
theorem witness_HostRefusesWhatDoesNotFit :
    (let s := launching [.pipeline (List.replicate 17 65)]
     s.response = none ∧ s.orch.script = .pipeline (List.replicate 17 65) :: [] ∧ s.cfg.cap < (List.replicate 17 (65 : Symbol)).length) ∧
    (let s : State := { launching [.checkTable, .loadTable] with
       orch := { (launching [.checkTable, .loadTable]).orch with table := [(0, ⟨0, 33⟩)] } }
     s.response = none ∧ s.orch.script = .checkTable :: [.loadTable] ∧ ∃ p ∈ s.orch.table, s.cfg.codeW < p.2.length) ∧
    (let s : State := { launching [.checkTable, .loadTable] with
       orch := { (launching [.checkTable, .loadTable]).orch with table := [(0, ⟨0, 32⟩)] } }
     s.response = none ∧ ∀ p ∈ s.orch.table, p.2.length ≤ s.cfg.codeW) := by decide
theorem witness_QueueInsertIsStable :
    [HuffmanNode.leaf 66 2, .leaf 67 2, .leaf 65 3].Pairwise (fun a b => a.freq ≤ b.freq) := by decide
theorem witness_GenCodesSpecialCases : (67 : Symbol) ≠ 68 := by decide
theorem witness_RoundTripLaw : ∀ s ∈ ([65, 0] : List Symbol), 0 < tableCount (1 :: List.replicate 255 2) s.toNat := by decide

/-- PIPELINE of the empty text (P3), the schedule always taking the first enabled step. -/
theorem witness_PipelineGivesItsResult :
    ∃ t, Launch (launching [.pipeline []]) ∧
      (launching [.pipeline []]).orch = { Orchestrator.idle with script := [.pipeline []] } ∧
      RunsTo (launching [.pipeline []]) t ∧ EndedWell t ∧ t.orch.stop = none := by
  obtain ⟨t, hr, h1, h2, h3, h4, h5, h6⟩ := reaches (script := [.pipeline []]) 25
    (fun t => t.orch.script = [] ∧ t.response = none ∧ t.held = none ∧ t.st = .idle ∧ t.cause = .none ∧ t.orch.stop = none)
    (by decide +kernel)
  exact ⟨t, launching_launch _, rfl, hr, ⟨⟨h1, h2, h3, .inl h4⟩, h5⟩, h6⟩

end Sys2Proof.Tests
end

section
/-! SUPPORT. When a step answers `.refused`: a command has a next state or cannot be expressed, a work-item operation is
never refused, so the check of the configuration alone refuses a step as ill-configured. -/

namespace Sys2Proof.Machine

/-! ## Commands that can be expressed have a next state -/

theorem RuleAnswers.exists_next {i : Instr} {a : State} {r : Result} (h : RuleAnswers i a r) : ∃ t, r = .next t := by
  obtain ⟨x, info, u, -, -, hr⟩ | ⟨t, -, hr⟩ := h
  · exact ⟨_, hr⟩
  · exact ⟨t, hr⟩

theorem accept_exists_next {rule : State → Result} {s : State}
    (h : Accepts s → ∃ t, rule (accepted s) = .next t) : ∃ t, accept rule s = .next t := by
  obtain ⟨-, hr⟩ | ⟨-, hr⟩ | ⟨ha, hr⟩ | ⟨-, -, -, hr⟩ := accept_cases rule s
  · exact ⟨_, hr⟩
  · exact ⟨_, hr⟩
  · exact hr ▸ h ha
  · exact ⟨_, hr⟩

theorem exec_command_exists_next {i : Instr} {s : State} (hc : isCommand i = true) (hw : i.wf s.cfg = true) :
    ∃ t, exec i s = .next t := by
  obtain ⟨rule, hrule⟩ := exec_command_is_accept i s.cfg hc hw
  rw [hrule s rfl]
  refine accept_exists_next fun ha => ?_
  rw [← accept_accepts rule ha, ← hrule s rfl]
  exact (exec_accepts i hc hw ha).exists_next

theorem acceptIllegal_exists_next (w0 : Word) (s : State) : ∃ t, acceptIllegal w0 s = .next t :=
  accept_exists_next fun _ => ⟨_, rfl⟩

/-! ## What refuses, and why -/

theorem workItemStep_ne_refused (kind : JobKind) (body : WorkItem → State → State) (s : State) (x : Refusal) :
    workItemStep kind body s ≠ .refused x := by
  unfold workItemStep
  split
  · simp
  · split <;> simp

/-- The one refusal of an operation is that of a payload that cannot be expressed (R91). -/
theorem exec_refused {i : Instr} {s : State} {x : Refusal} (h : exec i s = .refused x) : x = .payloadNotExpressible := by
  cases hw : i.wf s.cfg with
  | false => simpa [exec_inexpressible i hw] using h.symm
  | true =>
    cases hc : isCommand i with
    | true =>
      obtain ⟨t, ht⟩ := exec_command_exists_next hc hw
      simp [ht] at h
    | false =>
      cases i with
      | hinc => exact absurd h (workItemStep_ne_refused _ _ _ _)
      | emit => exact absurd h (workItemStep_ne_refused _ _ _ _)
      | _ => simp [isCommand] at hc

theorem mapNext_eq_refused {f : State → State} {r : Result} {x : Refusal} (h : mapNext f r = .refused x) :
    r = .refused x := by
  cases r with
  | next u => simp at h
  | fault y => simp at h
  | refused y => exact h

theorem stepWorkItem_refused {i : Nat} {s : State} {x : Refusal} (h : stepWorkItem i s = .refused x) :
    x = .payloadNotExpressible := by
  unfold stepWorkItem at h
  split at h
  · simp at h
  · exact exec_refused (mapNext_eq_refused h)

theorem acceptCommand_refused {c : Command} {s : State} {x : Refusal} (h : acceptCommand c s = .refused x) :
    x = .payloadNotExpressible := by
  unfold acceptCommand at h
  split at h
  · exact exec_refused h
  · obtain ⟨t, ht⟩ := acceptIllegal_exists_next (w0Of c.desc) s
    simp [ht] at h
  · simpa using h.symm
  · simpa using h.symm

theorem act_refused {a : Action} {s : State} {x : Refusal} (h : act a s = .refused x) : x = .payloadNotExpressible := by
  cases a with
  | workItem i => exact stepWorkItem_refused h
  | complete => simp [act] at h
  | jobFail => simp [act] at h
  | accept =>
    simp only [act] at h
    split at h
    · exact acceptCommand_refused h
    · simp at h
  | host => simp [act] at h

/-! ## The refusal of a configuration (R6, R59) -/

theorem step_illFormedConfig_iff (s : State) : step s = .refused .illFormedConfig ↔ s.cfg.wf = false := by
  constructor
  · intro h
    by_contra hw
    simp only [Bool.not_eq_false] at hw
    rw [step, stepAny, if_pos hw] at h
    split at h
    · simp at h
    · exact absurd (act_refused h) (by simp)
  · intro hw
    simp [step, stepAny, hw]

theorem cfg_wf_eq_false_iff (c : Config) :
    c.wf = false ↔ c.cntW = 0 ∨ c.codeW = 0 ∨ c.lenW = 0 ∨ 2 ^ c.lenW ≤ c.codeW ∨ 2 ^ 32 - 1 < c.cap ∨
      2 ^ c.cntW - 1 < c.cap := by
  have hpos : 1 ≤ 2 ^ c.cntW := Nat.one_le_two_pow
  rw [← Bool.not_eq_true, cfg_wf_iff]
  omega

/-- Settles O11: past the check of the configuration no agent's step is refused as ill-configured, and the check fails
exactly when one of R6's constraints is broken. -/
theorem illFormedConfigurationsAreRefused : Obligations.IllFormedConfigurationsAreRefused := by
  unfold Obligations.IllFormedConfigurationsAreRefused
  intro s
  rw [step_illFormedConfig_iff, cfg_wf_eq_false_iff]

end Sys2Proof.Machine
end

section
/-! SUPPORT. Everything one step can do to the block, said once (`step_outcome`): the agents' steps of `step_cases`
with what each of them answers, the schedule's own bookkeeping gathered in `env`. -/

namespace Sys2Proof.Machine

/-! ## Operations that touch the environment or the host only -/

theorem dropDraw_eq (s : State) : dropDraw s = { s with env := (dropDraw s).env } := by
  unfold dropDraw
  split <;> rfl

theorem dropChoice_eq (s : State) : dropChoice s = { s with env := (dropChoice s).env } := by
  unfold dropChoice
  split <;> rfl

/-- A step of the host leaves no response in transit; of the block it touches at most the command it issues (R194). -/
theorem orchStep_eq (s : State) :
    ∃ orch held, orchStep s = { s with orch := orch, held := held, response := none } := by
  unfold orchStep
  split
  · exact ⟨_, s.held, rfl⟩
  · rename_i hr
    have hs : s = { s with response := none } := by cases s; simp_all
    split
    · exact ⟨s.orch, s.held, hs⟩
    · rename_i op rest _
      rw [hs]
      cases op <;> exact ⟨_, _, rfl⟩

/-! ## The outcomes of a step -/

/-- The next states of one step from `s`, one constructor for each thing that can happen. -/
inductive StepOutcome (s : State) : State → Prop
  /-- HINC of a pending position (R102) -/
  | incremented (env : Environment) (i : Nat) (w : WorkItem) (v : Symbol) (hst : s.st = .running)
      (hk : s.jobctl = .hist) (hp : position w ∈ s.pend) (hv : slotRead s.mem.inp (position w) = some v) :
      StepOutcome s (endWorkItem (retire w (atomicInc v (beginWorkItem i { s with env := env }))))
  /-- EMIT of a pending position (R162) -/
  | emitted (env : Environment) (i : Nat) (w : WorkItem) (v : Symbol) (c : Nat) (hst : s.st = .running)
      (hk : s.jobctl = .enc) (hp : position w ∈ s.pend) (hv : slotRead s.mem.inp (position w) = some v)
      (hc : slotRead s.mem.code v.toNat = some c) :
      StepOutcome s (endWorkItem (retire w (writeRecord (position w) c (beginWorkItem i { s with env := env }))))
  /-- a work-item of the running job, or ENV, raises a fault (R102, R162, R225 b) -/
  | jobFaulted (env : Environment) (wi : Option WorkItem) (x : FaultCause) (info : Word) (hst : s.st = .running)
      (hx : x ≠ .none) (hw : wi = none ∨ wi = s.wi) :
      StepOutcome s { faultEntry x info { s with env := env } with wi := wi }
  /-- the completion step (R190) -/
  | completed (env : Environment) (hst : s.st = .running) (hp : s.pend = []) :
      StepOutcome s (completeJob { s with env := env })
  /-- a FAULTED block answers the held command with the recorded fault (R183) -/
  | rejected (hst : s.st = .faulted) (hh : s.held ≠ none) : StepOutcome s (respond (.err s.cause s.info) s)
  /-- ENV does not grant the acquisition (R184, R224) -/
  | unavailable (hst : s.st = .idle) (hh : s.held ≠ none) (hs : s.session = false) (hd : nextDraw s = false) :
      StepOutcome s (raiseInCommand .unavail 0 (dropDraw s))
  /-- the held command, once accepted, raises a fault -/
  | raised (x : FaultCause) (info : Word) (u : State) (ha : Accepts s) (hh : s.held ≠ none) (hx : x ≠ .none)
      (hu : u = accepted s ∨ u = dropDraw (accepted s)) : StepOutcome s (raiseInCommand x info u)
  /-- the held command is executed by its rule (R180) -/
  | executed (c : Command) (i : Instr) (t : State) (ha : Accepts s) (hh : s.held = some c)
      (hd : decodeCommand s.cfg c = .instr i) (he : Effect (accepted s) i t) : StepOutcome s t
  /-- a step of the host (R194) -/
  | hostMoved (env : Environment) (hh : s.held = none) : StepOutcome s (orchStep { s with env := env })

/-- A fault of the work-item that takes its step touches no more than FAULT and `ST`, and its registers end with it. -/
theorem endWorkItem_faultEntry (x : FaultCause) (info : Word) (i : Nat) (s : State) :
    endWorkItem (faultEntry x info (beginWorkItem i s)) = { faultEntry x info s with wi := none } := by
  simp [faultEntry_eq, endWorkItem, beginWorkItem]

/-- ENV's failure leaves the work-item registers as they are. -/
theorem failJob_eq (s : State) :
    failJob s = { faultEntry .jobfail ((kindCode s.jobctl).setWidth 32) s with wi := s.wi } := by
  simp [failJob, faultEntry_eq]

theorem StepOutcome.of_workItem {s t : State} {env : Environment} {i : Nat}
    (h : stepWorkItem i { s with env := env } = .next t) : StepOutcome s t := by
  obtain ⟨hst, hp, ⟨hk, rfl⟩ | ⟨hk, rfl⟩⟩ := stepWorkItem_next h
  · rcases hincBody_cases (newWorkItem i) (beginWorkItem i { s with env := env }) with ⟨-, hb⟩ | ⟨v, hv, hb⟩ <;> rw [hb]
    · rw [endWorkItem_faultEntry]
      exact .jobFaulted env none _ _ hst (by simp) (.inl rfl)
    · exact .incremented env i _ v hst hk hp hv
  · rcases emitBody_cases (newWorkItem i) (beginWorkItem i { s with env := env }) with
      ⟨-, hb⟩ | ⟨v, -, -, hb⟩ | ⟨v, l, c, hv, -, hc, hb⟩ <;> rw [hb]
    · rw [endWorkItem_faultEntry]
      exact .jobFaulted env none _ _ hst (by simp) (.inl rfl)
    · rw [endWorkItem_faultEntry]
      exact .jobFaulted env none _ _ hst (by simp) (.inl rfl)
    · exact .emitted env i { newWorkItem i with sym := some v, len := some l, pat := some c } v c hst hk hp hv hc

theorem StepOutcome.of_acceptCommand {s t : State} {c : Command} (hh : s.held = some c) (hst : s.st ≠ .running)
    (h : acceptCommand c s = .next t) : StepOutcome s t := by
  have hne : s.held ≠ none := by simp [hh]
  rcases acceptCommand_cases h hst with ⟨hf, rfl⟩ | ⟨hi, hs, hd, rfl⟩ | ⟨ha, x, info, u, hx, hu, rfl⟩ | ⟨ha, i, hd, he⟩
  · exact .rejected hf hne
  · exact .unavailable hi hne hs hd
  · exact .raised x info u ha hne hx.1 hu
  · exact .executed c i t ha hh hd he

/-- Everything a step can do. -/
theorem step_outcome {s t : State} (h : step s = .next t) : StepOutcome s t := by
  obtain ⟨-, u, hu, hcases⟩ := step_cases h
  obtain ⟨env, rfl⟩ : ∃ env, u = { s with env := env } := by
    rcases hu with rfl | rfl
    · exact ⟨u.env, rfl⟩
    · exact ⟨_, dropChoice_eq s⟩
  rcases hcases with ⟨i, -, -, hi⟩ | ⟨hst, hp, rfl⟩ | ⟨hst, rfl⟩ | ⟨hst, -, c, hh, hc⟩ | ⟨hh, rfl⟩
  · exact .of_workItem hi
  · exact .completed env hst hp
  · rw [failJob_eq]
    exact .jobFaulted env s.wi _ _ hst (by simp) (.inr rfl)
  · exact .of_acceptCommand hh hst hc
  · exact .hostMoved env hh

end Sys2Proof.Machine
end

section
/-! SUPPORT. Registers: the reset values and the control register fields, then the transitions of `ST`, `SESSION` and
`JOBSEQ` and the constancy of the parameters, read off the outcomes of a step. -/

namespace Sys2Proof.Machine

/-! ## Reset and control registers (R28 to R33, R40) -/

/-- Settles O1: every field of the reset state is a literal of `State.resetWith`, and a buffer that lists nothing holds
no value. -/
theorem resetLeavesTheStatedValues : Obligations.ResetLeavesTheStatedValues := by
  unfold Obligations.ResetLeavesTheStatedValues
  intro cfg
  refine ⟨slotRead_nil, countRead_nil, slotRead_nil, slotRead_nil, slotRead_nil, ?_⟩
  simp [State.resetWith, Seals.fresh, kindCode, stCode, causeCode]

theorem cr3Status_session (s : State) : (cr3Status s).getLsbD 2 = s.session := by
  rw [cr3Status, BitVec.getLsbD_append]
  simp

/-- Settles O2: CR3 and CR4 are their two fields side by side, so extracting either gives it back. -/
theorem controlRegisterFieldsAndCodes : Obligations.ControlRegisterFieldsAndCodes := by
  unfold Obligations.ControlRegisterFieldsAndCodes
  exact ⟨fun s => ⟨rfl, rfl, rfl, BitVec.extractLsb'_append_eq_right, cr3Status_session s,
    BitVec.extractLsb'_append_eq_left, BitVec.extractLsb'_append_eq_right⟩, by decide⟩

/-! ## The effect of a command on the registers -/

/-- A command's effect keeps the acquisition, the parameters and the recorded fault. -/
theorem Effect.frame {a t : State} {i : Instr} (h : Effect a i t) :
    t.session = a.session ∧ t.cfg = a.cfg ∧ t.cause = a.cause ∧ t.info = a.info := by
  cases h <;> simp

/-- A command's effect is a launch, which makes the block RUNNING and answers the next job number, or keeps both. -/
theorem Effect.launches_or_keeps {a t : State} {i : Instr} (h : Effect a i t) :
    (t.st = .running ∧ t.jobseq = a.jobseq + 1 ∧ t.response = some (.okHandle t.jobseq)) ∨
    (t.st = a.st ∧ t.jobseq = a.jobseq) := by
  cases h with
  | submitHist n _ _ => exact .inl (by simp)
  | submitEnc n _ _ => exact .inl (by simp)
  | _ => exact .inr (by simp)

/-- The fields of the state in which a raising command's rule stands, the failed draw of a SUBMIT used up or not. -/
theorem raised_state_eq {s u : State} (hu : u = accepted s ∨ u = dropDraw (accepted s)) :
    ∃ env, u = { s with session := true, env := env } := by
  rcases hu with rfl | rfl
  · exact ⟨_, accepted_eq s⟩
  · exact ⟨_, by rw [dropDraw_eq, accepted_eq]⟩

/-! ## Transitions (R32, R184) -/

/-- A block that accepts a command without being acquired acquires the accelerator by ENV's draw. -/
theorem Accepts.draws {s : State} (h : Accepts s) (hs : s.session = false) : nextDraw s = true := by
  obtain ⟨-, ha | hd⟩ := h
  · simp [hs] at ha
  · exact hd

/-- Settles O36, outcome by outcome. -/
theorem statusTransitionsAndParameters : Obligations.StatusTransitionsAndParameters := by
  unfold Obligations.StatusTransitionsAndParameters
  intro s t h
  cases step_outcome h with
  | incremented env i w v hst => simp [hst]
  | emitted env i w v c hst => simp [hst]
  | jobFaulted env wi x info hst hx => simpa [hst] using faultEntry_cause_ne hx info { s with env := env }
  | completed env hst hp => simp [hst, hp]
  | rejected hst => simp [hst]
  | unavailable hst hh hs hd => simpa [hst, hs] using faultEntry_cause_ne (by simp) 0 (dropDraw s)
  | raised x info u ha hh hx hu =>
    obtain ⟨env, rfl⟩ := raised_state_eq hu
    simpa [ha.1, hh] using And.intro (faultEntry_cause_ne hx info { s with session := true, env := env }) ha.draws
  | executed c i t ha hh hd he =>
    obtain ⟨hsession, hcfg, -, -⟩ := he.frame
    have hi := ha.1
    have hdraws := ha.draws
    rcases he.launches_or_keeps with ⟨hst, hseq, -⟩ | ⟨hst, -⟩ <;> simp_all
  | hostMoved env hh =>
    obtain ⟨orch, held, ho⟩ := orchStep_eq { s with env := env }
    rw [ho]
    simp_all

/-! ## Job numbers (R31) -/

/-- A step that keeps JOBSEQ and launches no job meets R31. -/
theorem jobseq_kept {s t : State} (hseq : t.jobseq = s.jobseq) (hst : ¬ (s.st = .idle ∧ t.st = .running)) :
    (t.jobseq ≠ s.jobseq ↔ s.st = .idle ∧ t.st = .running) ∧
    (s.st = .idle → t.st = .running →
      t.jobseq.toNat = (s.jobseq.toNat + 1) % 2 ^ 32 ∧ t.response = some (.okHandle t.jobseq)) :=
  ⟨⟨fun h => absurd hseq h, fun h => absurd h hst⟩, fun h1 h2 => absurd ⟨h1, h2⟩ hst⟩

/-- Settles O37: only a SUBMIT's effect is not of the kind of `jobseq_kept`. -/
theorem jobsAreNumbered : Obligations.JobsAreNumbered := by
  unfold Obligations.JobsAreNumbered
  refine ⟨fun _ => rfl, fun s t h => ?_⟩
  cases step_outcome h with
  | incremented env i w v hst => exact jobseq_kept (by simp) (by simp [hst])
  | emitted env i w v c hst => exact jobseq_kept (by simp) (by simp [hst])
  | jobFaulted env wi x info hst hx => exact jobseq_kept (by simp) (by simp)
  | completed env hst hp => exact jobseq_kept (by simp) (by simp)
  | rejected hst => exact jobseq_kept (by simp) (by simp [hst])
  | unavailable => exact jobseq_kept (by simp) (by simp)
  | raised x info u ha hh hx hu =>
    obtain ⟨env, rfl⟩ := raised_state_eq hu
    exact jobseq_kept (by simp) (by simp)
  | executed c i t ha hh hd he =>
    obtain ⟨hi, -⟩ := ha
    rcases he.launches_or_keeps with ⟨hst, hseq, hr⟩ | ⟨hst, hseq⟩
    · rw [accepted_jobseq] at hseq
      exact ⟨by simp [hi, hst, hseq], fun _ _ => ⟨by simp [hseq, BitVec.toNat_add], hr⟩⟩
    · exact jobseq_kept (by simpa using hseq) (by simp [hst, hi])
  | hostMoved env hh =>
    obtain ⟨orch, held, ho⟩ := orchStep_eq { s with env := env }
    rw [ho]
    exact jobseq_kept rfl (by simp_all)

end Sys2Proof.Machine
end

section
/-! SUPPORT. The inductive invariant: the launch states have it, every operation of the model keeps it where the
operation applies, so every step keeps it and the ten items of R41 hold in every reachable state. -/

namespace Sys2Proof.Machine

/-! ## Buffers -/

theorem memory_wf_iff (m : Memory) :
    m.wf = true ↔ slotsWf m.inp = true ∧ countsWf m.hist = true ∧ slotsWf m.code = true ∧ slotsWf m.len = true ∧
      slotsWf m.out = true := by
  simp [Memory.wf, and_assoc]

theorem memory_fits_iff (cfg : Config) (m : Memory) :
    m.fits cfg = true ↔ slotsFit cfg.cap (fun _ => true) m.inp = true ∧
      slotsFit alpha (fun v => decide (v < 2 ^ cfg.cntW)) m.hist = true ∧
      slotsFit alpha (fun v => decide (v < 2 ^ cfg.codeW)) m.code = true ∧
      slotsFit alpha (fun v => decide (v < 2 ^ cfg.lenW)) m.len = true ∧
      slotsFit cfg.cap (fun v => decide (v < 2 ^ cfg.recW)) m.out = true := by
  simp [Memory.fits, and_assoc]

theorem fresh_fits (cfg : Config) : Memory.fresh.fits cfg = true := by
  simp [memory_fits_iff, Memory.fresh, slotsFit]

/-! ## PEND (R34) -/

theorem length_filter_ne_of_mem {l : List Nat} (hl : l.Pairwise (· < ·)) {p : Nat} (hp : p ∈ l) :
    (l.filter (fun i => i != p)).length + 1 = l.length := by
  have hnodup : l.Nodup := hl.imp Nat.ne_of_lt
  rw [← hnodup.erase_eq_filter, List.length_erase_add_one hp]

/-! ## Operations that keep the invariant in any state -/

variable {s : State}

/-- The invariant says nothing of the draws and the schedule. -/
theorem Inv.withEnv (h : Inv s) (env : Environment) : Inv { s with env := env } := { h with }

theorem Inv.dropDraw (h : Inv s) : Inv (dropDraw s) := by
  rw [dropDraw_eq]
  exact h.withEnv _

theorem Inv.accepted (h : Inv s) : Inv (accepted s) := by
  rw [accepted_eq]
  exact { h with beforeSession := by simp }

theorem Inv.respond (h : Inv s) (r : Response) : Inv (respond r s) :=
  { h with oneCommandOutstanding := by simp }

theorem Inv.orchStep (h : Inv s) : Inv (orchStep s) := by
  obtain ⟨orch, held, ho⟩ := orchStep_eq s
  rw [ho]
  exact { h with oneCommandOutstanding := fun _ => rfl }

/-- A block without a recorded fault is not FAULTED. -/
theorem Inv.cause_eq_none (h : Inv s) (hst : s.st ≠ .faulted) : s.cause = .none := by
  by_contra hc
  exact hst (h.faultIffFaulted.1 hc)

/-- Fault entry (R232): before the acquisition UNAVAIL is the only cause. -/
theorem Inv.faultEntry (h : Inv s) {x : FaultCause} {info : Word} (hst : s.st ≠ .faulted) (hx : x ≠ .none)
    (hs : s.session = false → x = .unavail ∧ info = 0) : Inv (faultEntry x info s) := by
  rw [faultEntry_eq, if_pos (h.cause_eq_none hst), if_pos (h.cause_eq_none hst)]
  exact { h with
    faultIffFaulted := by simp [hx]
    noPendingWhenIdle := by simp
    runningSealsInput := by simp
    encodeSeals := by simp
    histogramFresh := by simp
    histUntouched := by simp
    outUntouched := by simp
    histogramTotal := by simp
    beforeSession := fun hsession => by
      obtain ⟨-, hmem, hseals, hkind, hn, hseq, hpend, -, -⟩ := h.beforeSession hsession
      obtain ⟨hunavail, hinfo⟩ := hs hsession
      exact ⟨by simp, hmem, hseals, hkind, hn, hseq, hpend, .inr hunavail, hinfo⟩
    infoOnlyWithFault := fun hc => absurd hc hx }

/-! ## Commands (R185 to R189, R193) -/

/-- A running job has been acquired. -/
theorem Inv.session_of_running (h : Inv s) (hst : s.st = .running) : s.session = true := by
  by_contra hs
  exact (h.beforeSession (by simpa using hs)).1 hst

/-- Replacing IN, CODE and LEN of an acquired IDLE block. -/
theorem Inv.withMem (h : Inv s) (hst : s.st = .idle) (hs : s.session = true) {m : Memory} (hw : m.wf = true)
    (hf : m.fits s.cfg = true) (hhist : m.hist = s.mem.hist) (hout : m.out = s.mem.out) :
    Inv { s with mem := m } :=
  { h with
    memoryCanonical := hw
    memoryFits := hf
    histUntouched := fun h1 h2 h3 => hhist.trans (h.histUntouched h1 h2 h3)
    outUntouched := fun h1 h2 h3 => hout.trans (h.outUntouched h1 h2 h3)
    histogramTotal := by simp [hst]
    beforeSession := by simp [hs] }

theorem sealInputs_inp {kind : JobKind} (hk : kind ≠ .none) (q : Seals) : (sealInputs kind q).inp = true := by
  cases kind with
  | none => exact absurd rfl hk
  | hist => rfl
  | enc => rfl
theorem sealInputs_hist (kind : JobKind) (q : Seals) : (sealInputs kind q).hist = q.hist := by cases kind <;> rfl
theorem sealInputs_out (kind : JobKind) (q : Seals) : (sealInputs kind q).out = q.out := by cases kind <;> rfl

theorem Inv.launch (h : Inv s) (hst : s.st = .idle) (hs : s.session = true) {kind : JobKind} {n : Word}
    (hk : kind ≠ .none) (hfresh : outputSealed kind s.seals = false) (hn : n.toNat ≤ s.cfg.cap) :
    Inv (launch kind n s) := by
  have hhist (hq : s.seals.hist = false) : s.mem.hist = [] := h.histUntouched hq (by simp [hst]) (by simp [hst])
  have hout (hq : s.seals.out = false) : s.mem.out = [] := h.outUntouched hq (by simp [hst]) (by simp [hst])
  have hcause : s.cause = .none := h.cause_eq_none (by simp [hst])
  exact {
    configuration := h.configuration
    memoryCanonical := h.memoryCanonical
    memoryFits := h.memoryFits
    faultIffFaulted := by simp [hcause]
    noPendingWhenIdle := by simp
    pendingIsSet := List.pairwise_lt_range
    pendingBelowCount := by simp
    countWithinCapacity := hn
    runningSealsInput := fun _ => ⟨sealInputs_inp hk _, hk⟩
    encodeSeals := by
      rintro - ⟨⟩
      exact ⟨rfl, rfl, hfresh⟩
    histogramFresh := by
      rintro - ⟨⟩
      exact hfresh
    histUntouched := fun hq _ _ => hhist (by simpa [sealInputs_hist] using hq)
    outUntouched := fun hq _ _ => hout (by simpa [sealInputs_out] using hq)
    histogramTotal := by
      rintro - ⟨⟩
      simp [hhist hfresh, countTotal]
    beforeSession := by simp [hs]
    noWorkItemBetweenSteps := h.noWorkItemBetweenSteps
    oneCommandOutstanding := by simp
    infoOnlyWithFault := h.infoOnlyWithFault }

theorem Inv.releaseBuffers (h : Inv s) (hst : s.st = .idle) (hs : s.session = true) : Inv (releaseBuffers s) :=
  { h with
    memoryCanonical := rfl
    memoryFits := fresh_fits _
    noPendingWhenIdle := fun _ => rfl
    pendingIsSet := .nil
    pendingBelowCount := by simp
    countWithinCapacity := by simp
    runningSealsInput := by simp [hst]
    encodeSeals := by simp [hst]
    histogramFresh := by simp [hst]
    histUntouched := fun _ _ _ => rfl
    outUntouched := fun _ _ _ => rfl
    histogramTotal := by simp [hst]
    beforeSession := by simp [hs] }

/-- The effect of a command in an acquired IDLE block. -/
theorem Inv.effect {a t : State} {i : Instr} (h : Inv a) (hst : a.st = .idle) (hs : a.session = true)
    (he : Effect a i t) : Inv t := by
  have hwf := (memory_wf_iff _).1 h.memoryCanonical
  have hfit := (memory_fits_iff _ _).1 h.memoryFits
  obtain ⟨winp, whist, wcode, wlen, wout⟩ := hwf
  obtain ⟨finp, fhist, fcode, flen, fout⟩ := hfit
  cases he with
  | loadIn base count payload _ hl hr =>
    refine (h.withMem hst hs ?_ ?_ (by rfl) (by rfl)).respond _
    · exact (memory_wf_iff _).2 ⟨slotsWf_writeList _ _ winp, whist, wcode, wlen, wout⟩
    · exact (memory_fits_iff _ _).2
        ⟨slotsFit_writeList _ finp (hl ▸ hr) (fun _ _ => rfl), fhist, fcode, flen, fout⟩
  | loadCode base count payload _ hl hw hr =>
    refine (h.withMem hst hs ?_ ?_ (by rfl) (by rfl)).respond _
    · exact (memory_wf_iff _).2 ⟨winp, whist, slotsWf_writeList _ _ wcode, wlen, wout⟩
    · exact (memory_fits_iff _ _).2
        ⟨finp, fhist, slotsFit_writeList _ fcode (hl ▸ hr) (fun v hv => by simpa using hw v hv), flen, fout⟩
  | loadLen base count payload _ hl hw hr =>
    refine (h.withMem hst hs ?_ ?_ (by rfl) (by rfl)).respond _
    · exact (memory_wf_iff _).2 ⟨winp, whist, wcode, slotsWf_writeList _ _ wlen, wout⟩
    · exact (memory_fits_iff _ _).2
        ⟨finp, fhist, fcode, slotsFit_writeList _ flen (hl ▸ hr) (fun v hv => by simpa using hw v hv), fout⟩
  | submitHist n hq hn =>
    exact h.dropDraw.launch (by simpa) (by simpa) (by simp) (by simpa [outputSealed] using hq) (by simpa)
  | submitEnc n hq hn =>
    exact h.dropDraw.launch (by simpa) (by simpa) (by simp) (by simpa [outputSealed] using hq) (by simpa)
  | readbackHist => exact h.respond _
  | readbackOut => exact h.respond _
  | release => exact (h.releaseBuffers hst hs).respond _

/-! ## The running job (R102, R162, R190) -/

/-- R59: a pending position of a histogram job leaves room for its increment. -/
theorem Inv.count_fits (h : Inv s) (hst : s.st = .running) (hk : s.jobctl = .hist) {p : Nat} (hp : p ∈ s.pend)
    (k : Nat) : countRead s.mem.hist k + 1 < 2 ^ s.cfg.cntW := by
  obtain ⟨-, -, -, -, -, hcap⟩ := (cfg_wf_iff _).1 h.configuration
  have htotal := h.histogramTotal hst hk
  have hle := countRead_le_total s.mem.hist k
  have hpos := List.length_pos_of_mem hp
  have hn := h.countWithinCapacity
  omega

/-- What a work-item's step has in common for both kinds of job: it leaves PEND and writes the job's own output. -/
theorem Inv.retireWith (h : Inv s) (hst : s.st = .running) {m : Memory} (w : WorkItem) (hw : m.wf = true)
    (hf : m.fits s.cfg = true) (hhist : s.jobctl ≠ .hist → m.hist = s.mem.hist)
    (hout : s.jobctl ≠ .enc → m.out = s.mem.out)
    (htotal : s.jobctl = .hist → countTotal m.hist + (s.pend.filter (fun i => i != position w)).length = s.jobn.toNat) :
    Inv (endWorkItem (retire w { s with mem := m })) :=
  { h with
    memoryCanonical := hw
    memoryFits := hf
    noPendingWhenIdle := by simp [hst]
    pendingIsSet := h.pendingIsSet.filter _
    pendingBelowCount := fun i hi => h.pendingBelowCount i (List.mem_of_mem_filter hi)
    histUntouched := fun h1 h2 h3 => (hhist (h3 hst)).trans (h.histUntouched h1 h2 h3)
    outUntouched := fun h1 h2 h3 => (hout (h3 hst)).trans (h.outUntouched h1 h2 h3)
    histogramTotal := fun _ hk => htotal hk
    beforeSession := by simp [h.session_of_running hst]
    noWorkItemBetweenSteps := rfl }

theorem Inv.increment (h : Inv s) (hst : s.st = .running) (hk : s.jobctl = .hist) (i : Nat) (w : WorkItem)
    (hp : position w ∈ s.pend) (v : Symbol) : Inv (endWorkItem (retire w (atomicInc v (beginWorkItem i s)))) := by
  obtain ⟨winp, whist, wcode, wlen, wout⟩ := (memory_wf_iff _).1 h.memoryCanonical
  obtain ⟨finp, fhist, fcode, flen, fout⟩ := (memory_fits_iff _ _).1 h.memoryFits
  have hfits := h.count_fits hst hk hp v.toNat
  have hnewWf := countsWf_write v.toNat (countRead s.mem.hist v.toNat + 1) whist
  have hnewFit := countsFit_write fhist v.isLt (decide_eq_true hfits)
  have hnewTotal : countTotal (countWrite s.mem.hist v.toNat (countRead s.mem.hist v.toNat + 1)) +
      (s.pend.filter (fun i => i != position w)).length = s.jobn.toNat := by
    have hwrite := countTotal_write v.toNat (countRead s.mem.hist v.toNat + 1) whist
    have htotal := h.histogramTotal hst hk
    have hlen := length_filter_ne_of_mem h.pendingIsSet hp
    omega
  rw [atomicInc_fits (s := beginWorkItem i s) hfits]
  exact h.retireWith hst w ((memory_wf_iff _).2 ⟨winp, hnewWf, wcode, wlen, wout⟩)
    ((memory_fits_iff _ _).2 ⟨finp, hnewFit, fcode, flen, fout⟩) (fun hne => absurd hk hne) (fun _ => rfl)
    (fun _ => hnewTotal)

theorem Inv.emit (h : Inv s) (hst : s.st = .running) (hk : s.jobctl = .enc) (i : Nat) (w : WorkItem)
    (hp : position w ∈ s.pend) {k c : Nat} (hc : slotRead s.mem.code k = some c) :
    Inv (endWorkItem (retire w (writeRecord (position w) c (beginWorkItem i s)))) := by
  obtain ⟨winp, whist, wcode, wlen, wout⟩ := (memory_wf_iff _).1 h.memoryCanonical
  obtain ⟨finp, fhist, fcode, flen, fout⟩ := (memory_fits_iff _ _).1 h.memoryFits
  have hcap : position w < s.cfg.cap := lt_of_lt_of_le (h.pendingBelowCount _ hp) h.countWithinCapacity
  refine h.retireWith hst w ?_ ?_ (fun _ => rfl) (fun hne => absurd hk hne) (by simp [hk])
  · exact (memory_wf_iff _).2 ⟨winp, whist, wcode, wlen, slotsWf_write _ _ wout⟩
  · exact (memory_fits_iff _ _).2 ⟨finp, fhist, fcode, flen, slotsFit_write fout hcap (slotsFit_read fcode hc).2⟩

/-- The completion step: the sealed output is the one that the job touched. -/
theorem Inv.completeJob (h : Inv s) (hst : s.st = .running) (hp : s.pend = []) : Inv (completeJob s) :=
  { h with
    faultIffFaulted := by simp [h.cause_eq_none (by simp [hst])]
    noPendingWhenIdle := fun _ => hp
    runningSealsInput := by simp
    encodeSeals := by simp
    histogramFresh := by simp
    histUntouched := fun hq _ _ => by
      refine h.histUntouched ?_ (by simp [hst]) fun _ hk => ?_
      · cases hk : s.jobctl <;> simp_all [sealOutput]
      · simp [hk, sealOutput] at hq
    outUntouched := fun hq _ _ => by
      refine h.outUntouched ?_ (by simp [hst]) fun _ hk => ?_
      · cases hk : s.jobctl <;> simp_all [sealOutput]
      · simp [hk, sealOutput] at hq
    histogramTotal := by simp
    beforeSession := by simp [h.session_of_running hst] }

/-! ## Every step -/

/-- Settles O40: each outcome of a step is an operation that keeps the invariant. -/
theorem everyStepKeepsTheInvariant : Obligations.EveryStepKeepsTheInvariant := by
  unfold Obligations.EveryStepKeepsTheInvariant
  intro s t h hstep
  cases step_outcome hstep with
  | incremented env i w v hst hk hp hv => exact (h.withEnv env).increment hst hk i w hp v
  | emitted env i w v c hst hk hp hv hc => exact (h.withEnv env).emit hst hk i w hp hc
  | jobFaulted env wi x info hst hx hw =>
    have hf := (h.withEnv env).faultEntry (info := info) (by simp [hst]) hx (by simp [h.session_of_running hst])
    exact { hf with noWorkItemBetweenSteps := hw.elim id (·.trans h.noWorkItemBetweenSteps) }
  | completed env hst hp => exact (h.withEnv env).completeJob hst hp
  | rejected hst hh => exact h.respond _
  | unavailable hst hh hs hd => exact (h.dropDraw.faultEntry (by simp [hst]) (by simp) (by simp)).respond _
  | raised x info u ha hh hx hu =>
    have hu' : Inv u := by
      rcases hu with rfl | rfl
      · exact h.accepted
      · exact h.accepted.dropDraw
    obtain ⟨env, rfl⟩ := raised_state_eq hu
    exact (hu'.faultEntry (by simp [ha.1]) hx (by simp)).respond _
  | executed c i t ha hh hd he => exact h.accepted.effect (by simpa using ha.1) (by simp) he
  | hostMoved env hh => exact (h.withEnv env).orchStep

/-- The reset block, whatever the agents around it have still to do. -/
theorem inv_resetWith {cfg : Config} (hcfg : cfg.wf = true) (orch : Orchestrator) (env : Environment) :
    Inv { State.resetWith cfg with orch := orch, env := env } := by
  constructor
  case configuration => exact hcfg
  case memoryCanonical => rfl
  case memoryFits => exact fresh_fits cfg
  case histUntouched => exact fun _ _ _ => rfl
  case outUntouched => exact fun _ _ _ => rfl
  all_goals simp [State.resetWith]

/-- Settles O39: the block of a launch state is the reset block. -/
theorem launchStatesHaveTheInvariant : Obligations.LaunchStatesHaveTheInvariant := by
  unfold Obligations.LaunchStatesHaveTheInvariant
  rintro s ⟨hcfg, orch, env, hs⟩
  rw [hs]
  exact inv_resetWith hcfg orch env

theorem Reachable.inv (h : Reachable s) : Inv s := by
  obtain ⟨s0, hlaunch, hruns⟩ := h
  induction hruns with
  | refl => exact launchStatesHaveTheInvariant s0 hlaunch
  | step _ hstep ih => exact everyStepKeepsTheInvariant _ _ ih hstep

/-! ## R41 -/

theorem Inv.r41 (h : Inv s) : R41 s where
  item1 := h.faultIffFaulted
  item2 := by
    refine ⟨fun hp => ?_, h.pendingBelowCount⟩
    cases hst : s.st with
    | idle => exact absurd (h.noPendingWhenIdle hst) hp
    | running => exact .inl rfl
    | faulted => exact .inr rfl
  item3 := h.countWithinCapacity
  item4 hst := by
    obtain ⟨hinp, hk⟩ := h.runningSealsInput hst
    refine ⟨hinp, ?_⟩
    cases hkind : s.jobctl with
    | none => exact absurd hkind hk
    | hist => exact .inl rfl
    | enc => exact .inr rfl
  item5 := h.encodeSeals
  item6 := h.histogramFresh
  item7 hq hst k := by simp [h.histUntouched hq (by simp [hst]) (by simp [hst])]
  item8 hq hst k := by simp [h.outUntouched hq (by simp [hst]) (by simp [hst])]
  item9 hst hk := Nat.eq_sub_of_add_eq (h.histogramTotal hst hk)
  item10 hs := by
    obtain ⟨hst, hmem, hseals, hkind, hn, hseq, hpend, hcause, hinfo⟩ := h.beforeSession hs
    refine ⟨hmem, hseals, hkind, hn, hseq, hpend, hinfo, ?_⟩
    cases hst' : s.st with
    | idle => exact .inl ⟨rfl, h.cause_eq_none (by simp [hst'])⟩
    | running => exact absurd hst' hst
    | faulted => exact .inr ⟨rfl, hcause.resolve_left (h.faultIffFaulted.2 hst')⟩

/-- Settles O41: the invariant holds in every reachable state and implies R41. -/
theorem reachableStatesSatisfyR41 : Obligations.ReachableStatesSatisfyR41 := by
  unfold Obligations.ReachableStatesSatisfyR41
  exact fun s h => h.inv.r41

end Sys2Proof.Machine
end

section
/-! SUPPORT. Sealed buffers (R26): a step that is no RELEASE never clears a tag, and writes no buffer whose tag is
set. -/

namespace Sys2Proof.Machine

/-! ## The tags only grow -/

/-- Every tag set in `q` is set in `q'`. -/
structure SealsGrow (q q' : Seals) : Prop where
  inp : q.inp = true → q'.inp = true
  hist : q.hist = true → q'.hist = true
  code : q.code = true → q'.code = true
  len : q.len = true → q'.len = true
  out : q.out = true → q'.out = true

theorem SealsGrow.refl (q : Seals) : SealsGrow q q := ⟨id, id, id, id, id⟩

theorem sealInputs_grows (kind : JobKind) (q : Seals) : SealsGrow q (sealInputs kind q) := by
  cases kind <;> constructor <;> simp [sealInputs]

theorem sealOutput_grows (kind : JobKind) (q : Seals) : SealsGrow q (sealOutput kind q) := by
  cases kind <;> constructor <;> simp [sealOutput]

/-! ## Sealed buffers are kept -/

/-- Every buffer sealed in `s` is in `t` what it was, and sealed. -/
def SealedKept (s t : State) : Prop :=
  (s.seals.inp = true → t.mem.inp = s.mem.inp ∧ t.seals.inp = true) ∧
  (s.seals.hist = true → t.mem.hist = s.mem.hist ∧ t.seals.hist = true) ∧
  (s.seals.code = true → t.mem.code = s.mem.code ∧ t.seals.code = true) ∧
  (s.seals.len = true → t.mem.len = s.mem.len ∧ t.seals.len = true) ∧
  (s.seals.out = true → t.mem.out = s.mem.out ∧ t.seals.out = true)

/-- Where no slot is written it is enough that the tags grow. -/
theorem sealedKept_of_mem {s t : State} (hm : t.mem = s.mem) (hq : SealsGrow s.seals t.seals) : SealedKept s t := by
  rw [SealedKept, hm]
  exact ⟨fun h => ⟨rfl, hq.inp h⟩, fun h => ⟨rfl, hq.hist h⟩, fun h => ⟨rfl, hq.code h⟩, fun h => ⟨rfl, hq.len h⟩,
    fun h => ⟨rfl, hq.out h⟩⟩

/-- Where no tag changes and only an unsealed buffer is written. -/
theorem sealedKept_of_seals {s t : State} (hq : t.seals = s.seals)
    (hinp : s.seals.inp = true → t.mem.inp = s.mem.inp) (hhist : s.seals.hist = true → t.mem.hist = s.mem.hist)
    (hcode : s.seals.code = true → t.mem.code = s.mem.code) (hlen : s.seals.len = true → t.mem.len = s.mem.len)
    (hout : s.seals.out = true → t.mem.out = s.mem.out) : SealedKept s t := by
  rw [SealedKept, hq]
  exact ⟨fun h => ⟨hinp h, h⟩, fun h => ⟨hhist h, h⟩, fun h => ⟨hcode h, h⟩, fun h => ⟨hlen h, h⟩, fun h => ⟨hout h, h⟩⟩

/-- A step that touches neither buffers nor tags. -/
theorem sealedKept_of_eq {s t : State} (hm : t.mem = s.mem) (hq : t.seals = s.seals) : SealedKept s t :=
  sealedKept_of_mem hm (hq ▸ .refl _)

/-- A command's effect: a LOAD is refused on a sealed buffer, a SUBMIT only sets tags, RELEASE alone clears them. -/
theorem Effect.release_or_sealedKept {a t : State} {i : Instr} (h : Effect a i t) :
    (i = .release ∧ t.mem = Memory.fresh ∧ t.seals = Seals.fresh) ∨ SealedKept a t := by
  cases h with
  | loadIn base count payload hs =>
    exact .inr (sealedKept_of_seals rfl (by simp [hs]) (by simp) (by simp) (by simp) (by simp))
  | loadCode base count payload hs =>
    exact .inr (sealedKept_of_seals rfl (by simp) (by simp) (by simp [hs]) (by simp) (by simp))
  | loadLen base count payload hs =>
    exact .inr (sealedKept_of_seals rfl (by simp) (by simp) (by simp) (by simp [hs]) (by simp))
  | submitHist n => exact .inr (sealedKept_of_mem (by simp) (by simpa using sealInputs_grows .hist a.seals))
  | submitEnc n => exact .inr (sealedKept_of_mem (by simp) (by simpa using sealInputs_grows .enc a.seals))
  | readbackHist => exact .inr (sealedKept_of_eq rfl rfl)
  | readbackOut => exact .inr (sealedKept_of_eq rfl rfl)
  | release => exact .inl ⟨rfl, rfl, rfl⟩

/-- Every step from a state with the invariant: the output a running job writes is unsealed. -/
theorem step_releases_or_keeps_sealed {s t : State} (h : Inv s) (hstep : step s = .next t) :
    (ReleaseIsAccepted s ∧ t.mem = Memory.fresh ∧ t.seals = Seals.fresh) ∨ SealedKept s t := by
  cases step_outcome hstep with
  | incremented env i w v hst hk =>
    have hopen := h.histogramFresh hst hk
    exact .inr (sealedKept_of_seals (by simp) (by simp) (by simp [hopen]) (by simp) (by simp) (by simp))
  | emitted env i w v c hst hk =>
    obtain ⟨-, -, hopen⟩ := h.encodeSeals hst hk
    exact .inr (sealedKept_of_seals (by simp) (by simp) (by simp) (by simp) (by simp) (by simp [hopen]))
  | jobFaulted => exact .inr (sealedKept_of_eq (by simp) (by simp))
  | completed env => exact .inr (sealedKept_of_mem (by simp) (by simpa using sealOutput_grows s.jobctl s.seals))
  | rejected => exact .inr (sealedKept_of_eq rfl rfl)
  | unavailable => exact .inr (sealedKept_of_eq (by simp) (by simp))
  | raised x info u ha hh hx hu =>
    obtain ⟨env, rfl⟩ := raised_state_eq hu
    exact .inr (sealedKept_of_eq (by simp) (by simp))
  | executed c i t ha hh hd he =>
    rcases he.release_or_sealedKept with ⟨rfl, hfresh⟩ | hkept
    · exact .inl ⟨⟨ha, c, hh, hd⟩, hfresh⟩
    · exact .inr (by simpa [SealedKept] using hkept)
  | hostMoved env =>
    obtain ⟨orch, held, ho⟩ := orchStep_eq { s with env := env }
    exact .inr (sealedKept_of_eq (by rw [ho]) (by rw [ho]))

/-- Settles O42. -/
theorem sealedBuffersAreFinal : Obligations.SealedBuffersAreFinal := by
  unfold Obligations.SealedBuffersAreFinal
  exact fun _ _ h hstep => step_releases_or_keeps_sealed h hstep

end Sys2Proof.Machine
end

section
/-! SUPPORT. The atomic increment (R58, R59): where the count fits, the same state but for one slot of HIST that is
higher by 1; where it does not, a free value of the slot's width (log entry 6). -/

namespace Sys2Proof.Machine

/-! ## The buffer after one increment -/

/-- HIST after one increment of slot `k` that fits. -/
def countIncrement (m : Slots Nat) (k : Nat) : Slots Nat := countWrite m k (countRead m k + 1)

theorem countRead_countIncrement (m : Slots Nat) (k j : Nat) :
    countRead (countIncrement m k) j = countRead m j + if j = k then 1 else 0 := by
  rw [countIncrement, countRead_write]
  split <;> simp_all

theorem countsWf_countIncrement {m : Slots Nat} (k : Nat) (h : countsWf m = true) : countsWf (countIncrement m k) = true :=
  countsWf_write k _ h

/-- Increments of the same slot or of different slots commute (R58, R63). -/
theorem countIncrement_comm {m : Slots Nat} (h : countsWf m = true) (k j : Nat) :
    countIncrement (countIncrement m k) j = countIncrement (countIncrement m j) k := by
  have hkj := countsWf_countIncrement j (countsWf_countIncrement k h)
  have hjk := countsWf_countIncrement k (countsWf_countIncrement j h)
  refine counts_ext hkj hjk fun x => ?_
  simp only [countRead_countIncrement]
  omega

/-! ## `AtomicInc` -/

theorem atomicInc_eq_countIncrement {v : Symbol} {s : State} (h : countRead s.mem.hist v.toNat + 1 < 2 ^ s.cfg.cntW) :
    atomicInc v s = { s with mem := { s.mem with hist := countIncrement s.mem.hist v.toNat } } :=
  atomicInc_fits h

/-- The atomic increment where the count does not fit: a free value of the slot's width (log entry 6). -/
theorem atomicInc_overflows {v : Symbol} {s : State} (h : 2 ^ s.cfg.cntW ≤ countRead s.mem.hist v.toNat + 1) :
    atomicInc v s =
      { s with
        mem := { s.mem with
          hist := countWrite s.mem.hist v.toNat (Config.freeCount s.env.fresh % 2 ^ s.cfg.cntW) }
        env := { s.env with fresh := s.env.fresh + 1 } } := by
  simp [atomicInc, Nat.not_lt.2 h]

/-- Settles O30: room for two increments lets both of them fit, whichever slots they are of. -/
theorem atomicIncrementLosesNoUpdate : Obligations.AtomicIncrementLosesNoUpdate := by
  unfold Obligations.AtomicIncrementLosesNoUpdate
  intro s u v hu hv
  have hfirst := atomicInc_eq_countIncrement (v := u) (s := s) (by omega)
  have hsecond : countRead (countIncrement s.mem.hist u.toNat) v.toNat + 1 < 2 ^ s.cfg.cntW := by
    rw [countRead_countIncrement]
    split <;> omega
  rw [hfirst, atomicInc_eq_countIncrement hsecond]
  exact ⟨fun x => by simp [countRead_countIncrement, BitVec.toNat_inj], rfl⟩

/-! ## HINC -/

/-- HINC of an enabled work-item whose input slot is written (R102). -/
theorem exec_hinc_written {s : State} {w : WorkItem} {v : Symbol} (hw : s.wi = some w) (hst : s.st = .running)
    (hk : s.jobctl = .hist) (hp : position w ∈ s.pend) (hv : slotRead s.mem.inp (position w) = some v) :
    exec .hinc s = .next (retire { w with sym := some v } (atomicInc v s)) := by
  rw [exec, execHinc, workItemStep_enabled hw hst hk hp, hincBody, hv]

/-- Settles O26. -/
theorem hincOverflowLeavesAFreeCount : Obligations.HincOverflowLeavesAFreeCount := by
  unfold Obligations.HincOverflowLeavesAFreeCount
  intro s w v hw hst hk hp hv hover
  refine ⟨_, exec_hinc_written hw hst hk hp hv, ?_⟩
  rw [atomicInc_overflows hover]
  refine ⟨?_, fun k hne => countRead_write_other _ _ hne, fun i => ?_, rfl⟩
  · simpa using Nat.mod_lt _ (Nat.two_pow_pos _)
  · simp [position]

/-- Settles O27: the counts and the pending positions of a running histogram job add up to `N`, which is at most `CAP`
and so below `2^CNT_W`; a pending position leaves room for its increment. -/
theorem countsNeverOverflow : Obligations.CountsNeverOverflow := by
  unfold Obligations.CountsNeverOverflow
  exact fun _ _ v h hst hk hp _ => h.count_fits hst hk hp v.toNat

end Sys2Proof.Machine
end

section
/-! SUPPORT. Two work-items of one job (R60, R63): what a work-item's step writes is said on the buffers alone
(`WorkItemWrites`), where the two orders are compared, and tied to the step by `stepWorkItem_running_iff`. -/

namespace Sys2Proof.Machine

/-! ## The buffers after a work-item's step -/

/-- The buffers `m'` that the work-item at position `i` of a job of kind `k` leaves when it does not fault (R102, R162). -/
inductive WorkItemWrites (m : Memory) (i : Nat) : JobKind → Memory → Prop where
  | counted (v : Symbol) (hv : slotRead m.inp i = some v) :
      WorkItemWrites m i .hist { m with hist := countIncrement m.hist v.toNat }
  | recorded (v : Symbol) (l c : Nat) (hv : slotRead m.inp i = some v) (hl : slotRead m.len v.toNat = some l)
      (hc : slotRead m.code v.toNat = some c) : WorkItemWrites m i .enc { m with out := slotWrite m.out i c }

/-- Writes of different slots commute. -/
theorem slotWrite_comm {α : Type} {m : Slots α} (h : slotsWf m = true) {i j : Nat} (hij : i ≠ j) (v w : α) :
    slotWrite (slotWrite m i v) j w = slotWrite (slotWrite m j w) i v := by
  refine slots_ext (slotsWf_write j w (slotsWf_write i v h)) (slotsWf_write i v (slotsWf_write j w h)) fun k => ?_
  simp only [slotRead_write]
  split <;> split <;> simp_all

/-- Neither work-item writes what the other reads, and what they write commutes (R101, R161). -/
theorem WorkItemWrites.comm {m ma mb : Memory} {i j : Nat} {kind : JobKind} (hm : m.wf = true) (hij : i ≠ j)
    (hi : WorkItemWrites m i kind ma) (hj : WorkItemWrites ma j kind mb) :
    ∃ ma', WorkItemWrites m j kind ma' ∧ WorkItemWrites ma' i kind mb := by
  obtain ⟨-, whist, -, -, wout⟩ := (memory_wf_iff m).1 hm
  cases hi with
  | counted v hv =>
    cases hj with
    | counted u hu =>
      refine ⟨_, .counted u hu, ?_⟩
      rw [countIncrement_comm whist]
      exact .counted (m := { m with hist := countIncrement m.hist u.toNat }) v hv
  | recorded v l c hv hl hc =>
    cases hj with
    | recorded u l' c' hu hl' hc' =>
      refine ⟨_, .recorded u l' c' hu hl' hc', ?_⟩
      rw [slotWrite_comm wout hij]
      exact .recorded (m := { m with out := slotWrite m.out j c' }) v l c hv hl hc

/-! ## The state after a work-item's step -/

/-- `s` after the step of the work-item at position `i`, which left the buffers `m`. -/
def afterWorkItem (i : Nat) (m : Memory) (s : State) : State :=
  { s with mem := m, pend := s.pend.filter (fun p => p != i), wi := none }

theorem afterWorkItem_comm (i j : Nat) (m m' m'' : Memory) (s : State) :
    afterWorkItem j m (afterWorkItem i m' s) = afterWorkItem i m (afterWorkItem j m'' s) := by
  simp [afterWorkItem, List.filter_filter, Bool.and_comm]

variable {s t : State} {i : Nat} {m : Memory}

theorem Inv.pend_lt (h : Inv s) (hp : i ∈ s.pend) : i < 2 ^ 32 :=
  (h.pendingBelowCount i hp).trans s.jobn.isLt

theorem endWorkItem_increment (h : Inv s) (hst : s.st = .running) (hk : s.jobctl = .hist) (hp : i ∈ s.pend)
    (v : Symbol) :
    endWorkItem (retire { newWorkItem i with sym := some v } (atomicInc v (beginWorkItem i s))) =
      afterWorkItem i { s.mem with hist := countIncrement s.mem.hist v.toNat } s := by
  have hfits : countRead (beginWorkItem i s).mem.hist v.toNat + 1 < 2 ^ (beginWorkItem i s).cfg.cntW :=
    h.count_fits hst hk hp v.toNat
  rw [atomicInc_eq_countIncrement hfits]
  simp [endWorkItem, retire, afterWorkItem, beginWorkItem, position_newWorkItem (h.pend_lt hp)]

theorem endWorkItem_record (h : Inv s) (hp : i ∈ s.pend) (v : Symbol) (l c : Nat) :
    endWorkItem (retire { newWorkItem i with sym := some v, len := some l, pat := some c }
        (writeRecord i c (beginWorkItem i s))) =
      afterWorkItem i { s.mem with out := slotWrite s.mem.out i c } s := by
  simp [endWorkItem, retire, afterWorkItem, beginWorkItem, writeRecord, position_newWorkItem (h.pend_lt hp)]

/-- The step of a pending work-item that does not fault, for either kind of job. -/
theorem stepWorkItem_running_iff (h : Inv s) (hst : s.st = .running) (hp : i ∈ s.pend) :
    (stepWorkItem i s = .next t ∧ t.st = .running) ↔
      ∃ m, WorkItemWrites s.mem i s.jobctl m ∧ t = afterWorkItem i m s := by
  have hpos := position_newWorkItem (h.pend_lt hp)
  constructor
  · rintro ⟨hstep, ht⟩
    obtain ⟨-, -, ⟨hk, rfl⟩ | ⟨hk, rfl⟩⟩ := stepWorkItem_next hstep <;> rw [hk]
    · rcases hincBody_cases (newWorkItem i) (beginWorkItem i s) with ⟨-, hb⟩ | ⟨v, hv, hb⟩ <;> rw [hb] at ht ⊢
      · simp at ht
      · rw [hpos] at hv
        exact ⟨_, .counted v hv, endWorkItem_increment h hst hk hp v⟩
    · rcases emitBody_cases (newWorkItem i) (beginWorkItem i s) with
        ⟨-, hb⟩ | ⟨v, -, -, hb⟩ | ⟨v, l, c, hv, hl, hc, hb⟩ <;> rw [hb] at ht ⊢
      · simp at ht
      · simp at ht
      · rw [hpos] at hv ⊢
        exact ⟨_, .recorded v l c hv hl hc, endWorkItem_record h hp v l c⟩
  · rintro ⟨m, hm, rfl⟩
    refine ⟨?_, hst⟩
    generalize hk : s.jobctl = kind at hm
    cases hm with
    | counted v hv =>
      rw [stepWorkItem_hist hst hk hp (h.pend_lt hp), ← endWorkItem_increment h hst hk hp v, hincBody]
      simp [hpos, hv]
    | recorded v l c hv hl hc =>
      rw [stepWorkItem_enc hst hk hp (h.pend_lt hp), ← endWorkItem_record h hp v l c, emitBody]
      simp [hpos, hv, hl, hc]

/-- The step of a pending work-item keeps the invariant. -/
theorem Inv.afterWorkItem (h : Inv s) (hst : s.st = .running) (hp : i ∈ s.pend)
    (hm : WorkItemWrites s.mem i s.jobctl m) : Inv (afterWorkItem i m s) := by
  have hpos := position_newWorkItem (h.pend_lt hp)
  generalize hk : s.jobctl = kind at hm
  cases hm with
  | counted v hv =>
    rw [← endWorkItem_increment h hst hk hp v]
    exact h.increment hst hk i _ (by simpa [hpos] using hp) v
  | recorded v l c hv hl hc =>
    have hrecord := h.emit hst hk i { newWorkItem i with sym := some v, len := some l, pat := some c }
      (by simpa [hpos] using hp) hc
    rw [position_update, hpos, endWorkItem_record h hp] at hrecord
    exact hrecord

theorem mem_pend_afterWorkItem {j : Nat} (hj : j ∈ s.pend) (hij : j ≠ i) : j ∈ (afterWorkItem i m s).pend := by
  simpa [afterWorkItem] using ⟨hj, hij⟩

/-- Settles O47: the two work-items commute on the buffers, and their positions leave PEND in either order. -/
theorem workItemsCommute : Obligations.WorkItemsCommute := by
  unfold Obligations.WorkItemsCommute
  intro s a b i j h hst hi hj hij hia ha hjb hb
  obtain ⟨ma, hma, rfl⟩ := (stepWorkItem_running_iff h hst hi).1 ⟨hia, ha⟩
  obtain ⟨mb, hmb, rfl⟩ := (stepWorkItem_running_iff (h.afterWorkItem hst hi hma) ha
    (mem_pend_afterWorkItem hj hij.symm)).1 ⟨hjb, hb⟩
  obtain ⟨ma', hma', hmb'⟩ := hma.comm h.memoryCanonical hij hmb
  refine ⟨afterWorkItem j ma' s, ((stepWorkItem_running_iff h hst hj).2 ⟨ma', hma', rfl⟩).1, ?_⟩
  exact ((stepWorkItem_running_iff (h.afterWorkItem hst hj hma') hst (mem_pend_afterWorkItem hi hij)).2
    ⟨mb, hmb', afterWorkItem_comm i j mb ma ma' s⟩).1

end Sys2Proof.Machine
end

section
/-! SUPPORT. What a step does to the buffers, said once (`step_mem_cases`): a running job keeps its inputs, and a written
slot keeps its value until RELEASE (R21, R53, R67). -/

namespace Sys2Proof.Machine

/-! ## The buffers after a step -/

theorem atomicInc_mem (v : Symbol) (s : State) :
    (atomicInc v s).mem = { s.mem with hist := (atomicInc v s).mem.hist } := by
  unfold atomicInc
  dsimp only
  split <;> rfl

/-- Everything a step can do to the buffers: nothing, a histogram job's increment, an encode job's record, or the effect
of the held command. -/
theorem step_mem_cases {s t : State} (h : step s = .next t) :
    t.mem = s.mem ∨
    (s.st = .running ∧ s.jobctl = .hist ∧ ∃ hist, t.mem = { s.mem with hist := hist }) ∨
    (s.st = .running ∧ s.jobctl = .enc ∧ ∃ i c, i ∈ s.pend ∧ t.mem = { s.mem with out := slotWrite s.mem.out i c }) ∨
    (Accepts s ∧ ∃ c i, s.held = some c ∧ decodeCommand s.cfg c = .instr i ∧ Effect (accepted s) i t) := by
  cases step_outcome h with
  | incremented env i w v hst hk => exact .inr (.inl ⟨hst, hk, _, atomicInc_mem _ _⟩)
  | emitted env i w v c hst hk hp => exact .inr (.inr (.inl ⟨hst, hk, _, c, hp, rfl⟩))
  | jobFaulted => exact .inl (by simp)
  | completed => exact .inl rfl
  | rejected => exact .inl rfl
  | unavailable => exact .inl (by simp)
  | raised x info u ha hh hx hu =>
    obtain ⟨env, rfl⟩ := raised_state_eq hu
    exact .inl (by simp)
  | executed c i t ha hh hd he => exact .inr (.inr (.inr ⟨ha, c, i, hh, hd, he⟩))
  | hostMoved env =>
    obtain ⟨orch, held, ho⟩ := orchStep_eq { s with env := env }
    exact .inl (by rw [ho])

/-- Settles O38: while a job runs no command is executed, so the job's own write is the only one. -/
theorem runningJobsKeepTheirInputs : Obligations.RunningJobsKeepTheirInputs := by
  unfold Obligations.RunningJobsKeepTheirInputs
  intro s t h hst
  rcases step_mem_cases h with hm | ⟨-, hk, hist, hm⟩ | ⟨-, hk, i, c, -, hm⟩ | ⟨ha, -⟩
  · simp [hm]
  · simp [hm, hk]
  · simp [hm, hk]
  · simp [ha.1] at hst

/-! ## Written slots -/

/-- Every slot written in `old` holds the same value in `new`. -/
def SlotsKept {α : Type} (old new : Slots α) : Prop := ∀ k v, slotRead old k = some v → slotRead new k = some v

theorem SlotsKept.refl {α : Type} (m : Slots α) : SlotsKept m m := fun _ _ h => h

theorem SlotsKept.write {α : Type} {m : Slots α} {i : Nat} (h : slotRead m i = none) (v : α) :
    SlotsKept m (slotWrite m i v) := by
  intro k w hk
  have hne : k ≠ i := by
    rintro rfl
    simp [h] at hk
  rwa [slotRead_write_other m v hne]

/-- A LOAD's range that was free holds no slot written before. -/
theorem SlotsKept.writeList {α : Type} {m : Slots α} {base count : Nat} {vs : List α} (hl : vs.length = count)
    (h : ∀ k, k < count → slotRead m (base + k) = none) : SlotsKept m (slotWriteList m base vs) := by
  intro k w hk
  have hout : ¬ (base ≤ k ∧ k < base + vs.length) := by
    rintro ⟨hge, hlt⟩
    have hnone := h (k - base) (by omega)
    rw [Nat.add_sub_cancel' hge, hk] at hnone
    simp at hnone
  rwa [slotRead_writeList, if_neg hout]

/-- Every written slot of IN, CODE, LEN and OUT keeps its value from `m` to `m'`. -/
structure WrittenKept (m m' : Memory) : Prop where
  inp : SlotsKept m.inp m'.inp
  code : SlotsKept m.code m'.code
  len : SlotsKept m.len m'.len
  out : SlotsKept m.out m'.out

theorem WrittenKept.refl (m : Memory) : WrittenKept m m := ⟨.refl _, .refl _, .refl _, .refl _⟩

/-- A command's effect: a LOAD writes slots that held no value, RELEASE alone unwrites slots. -/
theorem Effect.release_or_writtenKept {a t : State} {i : Instr} (h : Effect a i t) :
    (i = .release ∧ t.mem = Memory.fresh ∧ t.seals = Seals.fresh) ∨ WrittenKept a.mem t.mem := by
  cases h with
  | loadIn base count payload _ hl _ hn => exact .inr { WrittenKept.refl a.mem with inp := .writeList hl hn }
  | loadCode base count payload _ hl _ _ hn => exact .inr { WrittenKept.refl a.mem with code := .writeList hl hn }
  | loadLen base count payload _ hl _ _ hn => exact .inr { WrittenKept.refl a.mem with len := .writeList hl hn }
  | submitHist n => exact .inr (by simpa using WrittenKept.refl a.mem)
  | submitEnc n => exact .inr (by simpa using WrittenKept.refl a.mem)
  | readbackHist => exact .inr (.refl _)
  | readbackOut => exact .inr (.refl _)
  | release => exact .inl ⟨rfl, rfl, rfl⟩

/-- Every step while the encode job's running invariant holds: the slot of a pending position is still unwritten. -/
theorem step_releases_or_keeps_written {s t : State} (hrecords : RecordsSoFar s) (h : step s = .next t) :
    (ReleaseIsAccepted s ∧ t.mem = Memory.fresh ∧ t.seals = Seals.fresh) ∨ WrittenKept s.mem t.mem := by
  rcases step_mem_cases h with hm | ⟨-, -, hist, hm⟩ | ⟨hst, hk, i, c, hp, hm⟩ | ⟨ha, c, i, hh, hd, he⟩
  · exact .inr (hm ▸ .refl _)
  · exact .inr (hm ▸ { WrittenKept.refl s.mem with })
  · obtain ⟨-, hunwritten⟩ := hrecords hst hk
    exact .inr (hm ▸ { WrittenKept.refl s.mem with out := .write (hunwritten i (.inr hp)) c })
  · rcases he.release_or_writtenKept with ⟨rfl, hfresh⟩ | hkept
    · exact .inl ⟨⟨ha, c, hh, hd⟩, hfresh⟩
    · exact .inr (by simpa using hkept)

/-- Settles O43. -/
theorem slotsAreWrittenOncePerRun : Obligations.SlotsAreWrittenOncePerRun := by
  unfold Obligations.SlotsAreWrittenOncePerRun
  intro s t _ hrecords h
  exact (step_releases_or_keeps_written hrecords h).imp_right fun hkept =>
    ⟨hkept.inp, hkept.code, hkept.len, hkept.out⟩

end Sys2Proof.Machine
end

section
/-! SUPPORT. The schedule's choice (R60): a step is the step of one enabled agent, and each enabled agent's step is the
one that its place in the list of enabled steps chooses. -/

namespace Sys2Proof.Machine

theorem step_of_enabledActions {s : State} {a : Action} {as : List Action} (hw : s.cfg.wf = true)
    (he : enabledActions s = a :: as) : step s = chooseAction a as s := by
  simp [step, stepAny, hw, he]

/-- A step of the machine is the step of an enabled agent, before or after a choice of the schedule is used up. -/
theorem step_is_enabled_act {s t : State} (h : step s = .next t) :
    ∃ a ∈ enabledActions s, act a s = .next t ∨ act a (dropChoice s) = .next t := by
  rw [step, stepAny] at h
  split at h
  · split at h
    · simp at h
    · rename_i a as he
      refine ⟨pickAction a as s, he ▸ pickAction_mem a as s, ?_⟩
      rw [chooseAction] at h
      split at h
      · exact .inl h
      · exact .inr h
  · simp at h

/-- The schedule's next choice names a step by its place in the list of enabled steps. -/
theorem pickAction_of_getElem? {a b : Action} {bs : List Action} {s : State}
    (h : (b :: bs)[nextChoice s]? = some a) : pickAction b bs s = a := by
  obtain ⟨hk, -⟩ := List.getElem?_eq_some_iff.1 h
  cases bs with
  | nil => simp_all [pickAction]
  | cons c bs =>
    have hmod : nextChoice s % ((c :: bs).length + 1) = nextChoice s := Nat.mod_eq_of_lt hk
    rw [pickAction, hmod, List.getD_eq_getElem?_getD, h]
    rfl

/-- The machine takes the enabled step that the schedule names, and uses up the choice where there was one to make. -/
theorem step_of_getElem? {s : State} {a : Action} (hw : s.cfg.wf = true)
    (h : (enabledActions s)[nextChoice s]? = some a) :
    step s = act a (if (enabledActions s).length = 1 then s else dropChoice s) := by
  cases he : enabledActions s with
  | nil => simp [he] at h
  | cons b bs =>
    rw [step_of_enabledActions hw he, chooseAction, pickAction_of_getElem? (he ▸ h)]
    cases bs <;> simp

/-- Settles O9: the choice that makes an enabled step the next one is its place in the list of enabled steps. -/
theorem everyEnabledStepCanBeNext : Obligations.EveryEnabledStepCanBeNext := by
  unfold Obligations.EveryEnabledStepCanBeNext
  refine ⟨fun s a hw ha => ?_, fun _ _ => step_is_enabled_act⟩
  obtain ⟨k, hk⟩ := List.getElem?_of_mem ha
  exact ⟨k, fun ks => step_of_getElem? (s := { s with env := { s.env with choices := k :: ks } }) hw hk⟩

end Sys2Proof.Machine
end

section
/-! SUPPORT. Encoding: the commands that decode are those of the encoder, from which both round trips of R93 follow; then
the illegal descriptors of R90, check by check, and the payloads that cannot be expressed (R91). -/

namespace Sys2Proof.Machine

/-! ## Payloads (R91) -/

theorem map_ofNat_map_toNat (payload : List Symbol) : (payload.map BitVec.toNat).map (BitVec.ofNat 8) = payload := by
  rw [List.map_map]
  exact List.map_id'' (fun v => by simp) payload

theorem map_toNat_map_ofNat {payload : List Nat} (h : ∀ v ∈ payload, v < 2 ^ 8) :
    (payload.map (BitVec.ofNat 8)).map BitVec.toNat = payload := by
  have hv : ∀ v ∈ payload, (BitVec.ofNat 8 v).toNat = id v := fun v hm => Nat.mod_eq_of_lt (h v hm)
  rw [List.map_map]
  exact (List.map_congr_left hv).trans payload.map_id

/-- Symbols are never wider than a slot of IN: only the length of their list can be wrong. -/
theorem payloadFits_map_toNat {count : Word} {payload : List Symbol} (h : payload.length = count.toNat) :
    payloadFits 8 count (payload.map BitVec.toNat) = true := by
  rw [payloadFits_iff, List.length_map]
  exact ⟨h, List.forall_mem_map.2 fun v _ => v.isLt⟩

/-! ## Operand checks (R86) -/

/-- The must-be-zero fields, by the opcode of the command: `BASE` of SUBMIT and RELEASE, `COUNT` of RELEASE. -/
theorem checkOperands_eq_none_iff (n : CommandName) (base count : Word) :
    checkOperands n base count = none ↔
      (n.w0.extractLsb' 28 4 = 2 → base = 0) ∧ (n.w0.extractLsb' 28 4 = 4 → base = 0 ∧ count = 0) := by
  cases n with
  | release => by_cases hb : base = 0 <;> simp_all [checkOperands, CommandName.w0]
  | _ => simp [checkOperands, CommandName.w0]

/-! ## The round trips of R93 -/

/-- A command of the encoder decodes to its name with its operand fields and its payload. -/
theorem decodeCommand_commandOf {cfg : Config} {n : CommandName} {base count : Word} {payload : List Nat}
    (ho : checkOperands n base count = none) (hp : payloadExpressible cfg n count payload = true) :
    decodeCommand cfg (commandOf n base count payload) = .instr (attachPayload n base count payload) := by
  rw [decodeCommand, decodeHeader_commandOf n base count payload ho]
  exact if_pos hp

/-- Every command that decodes is a command of the encoder, of operand fields and a payload that pass the checks. -/
theorem exists_commandOf_of_decodeCommand {cfg : Config} {c : Command} {i : Instr} (h : decodeCommand cfg c = .instr i) :
    ∃ n base count payload, checkOperands n base count = none ∧ payloadExpressible cfg n count payload = true ∧
      c = commandOf n base count payload ∧ i = attachPayload n base count payload := by
  unfold decodeCommand at h
  split at h
  · simp at h
  · rename_i n base count hd
    obtain ⟨hc, ho⟩ := descriptor_of_legal hd
    split at h
    · rename_i hp
      exact ⟨n, base, count, c.payload, ho, hp, by rw [commandOf, ← hc], by simpa using h.symm⟩
    · simp at h

theorem decode_encode {cfg : Config} {i : Instr} (h : i.wf cfg = true) : decode cfg (encode i) = .instr i := by
  cases i with
  | loadIn base count payload =>
    have hp : payloadExpressible cfg .loadIn count (payload.map BitVec.toNat) = true :=
      payloadFits_map_toNat (by simpa [Instr.wf] using h)
    rw [encode, decode, decodeCommand_commandOf rfl hp, attachPayload, map_ofNat_map_toNat]
  | loadCode | loadLen => exact decodeCommand_commandOf rfl h
  | submitHist | submitEnc | readbackHist | readbackOut => exact decodeCommand_commandOf rfl (by rfl)
  | release | hinc | emit => rfl

/-- Settles O3: the encoder writes the command's name, operand fields and payload, and the decoder reads them back; the
value of KIND that selects a work-item operation is read back in the same way. -/
theorem decodeOfEncodeIsTheInstruction : Obligations.DecodeOfEncodeIsTheInstruction := by
  unfold Obligations.DecodeOfEncodeIsTheInstruction
  exact fun _ _ => decode_encode

/-- What the decoder builds is encoded by the name, operand fields and payload that it was built from. -/
theorem encode_attachPayload {cfg : Config} {n : CommandName} {base count : Word} {payload : List Nat}
    (ho : checkOperands n base count = none) (hp : payloadExpressible cfg n count payload = true) :
    encode (attachPayload n base count payload) = .command (commandOf n base count payload) := by
  obtain ⟨hsubmit, hrelease⟩ := (checkOperands_eq_none_iff n base count).1 ho
  cases n with
  | loadIn => rw [attachPayload, encode, map_toNat_map_ofNat ((payloadFits_iff 8 count payload).1 hp).2]
  | loadCode | loadLen => rfl
  | submitHist | submitEnc =>
    obtain rfl := hsubmit (by decide)
    rw [List.isEmpty_iff.1 hp]
    rfl
  | readbackHist | readbackOut =>
    rw [List.isEmpty_iff.1 hp]
    rfl
  | release =>
    obtain ⟨rfl, rfl⟩ := hrelease (by decide)
    rw [List.isEmpty_iff.1 hp]
    rfl

theorem attachPayload_wf {cfg : Config} {n : CommandName} {count : Word} {payload : List Nat} (base : Word)
    (hp : payloadExpressible cfg n count payload = true) : (attachPayload n base count payload).wf cfg = true := by
  cases n with
  | loadIn => simpa [attachPayload, Instr.wf] using ((payloadFits_iff 8 count payload).1 hp).1
  | loadCode | loadLen => exact hp
  | submitHist | submitEnc | readbackHist | readbackOut | release => rfl

/-- Settles O4: a command that decodes is that of a name, operand fields and payload that pass the decoder's checks, and
the encoder gives those back. -/
theorem encodeOfDecodeIsTheDescriptor : Obligations.EncodeOfDecodeIsTheDescriptor := by
  unfold Obligations.EncodeOfDecodeIsTheDescriptor
  intro cfg c i h
  obtain ⟨n, base, count, payload, ho, hp, rfl, rfl⟩ := exists_commandOf_of_decodeCommand h
  exact ⟨encode_attachPayload ho hp, attachPayload_wf base hp, isCommand_of_decode h⟩

/-! ## Illegal descriptors (R90, R226) -/

/-- The opcodes of no command, and under each other opcode the selectors that R89 does not list. -/
theorem selectCommand_isRight_iff (opc sel : BitVec 4) :
    (selectCommand opc sel).isRight = true ↔
      (opc = 0 ∨ 5 ≤ opc.toNat) ∨ (opc = 1 ∧ sel ≠ 0 ∧ sel ≠ 2 ∧ sel ≠ 3) ∨ (opc = 2 ∧ sel ≠ 1 ∧ sel ≠ 2) ∨
      (opc = 3 ∧ sel ≠ 1 ∧ sel ≠ 4) ∨ (opc = 4 ∧ sel ≠ 0) := by
  revert opc sel
  decide

theorem opc_of_selectCommand {opc sel : BitVec 4} {n : CommandName} (h : selectCommand opc sel = .inl n) :
    opc = n.w0.extractLsb' 28 4 := by
  revert opc sel
  cases n <;> decide

/-- Which must-be-zero fields a selected command has is told by its opcode alone. -/
theorem checkOperands_ne_none_iff {opc sel : BitVec 4} {n : CommandName} (h : selectCommand opc sel = .inl n)
    (base count : Word) :
    checkOperands n base count ≠ none ↔ (opc = 2 ∧ base ≠ 0) ∨ (opc = 4 ∧ (base ≠ 0 ∨ count ≠ 0)) := by
  rw [opc_of_selectCommand h, Ne, checkOperands_eq_none_iff]
  tauto

/-- The three checks of the decoder: reserved bits, opcode with selector, must-be-zero fields. -/
theorem decodeHeader_illegal_iff (d : Descriptor) :
    (∃ why, decodeHeader d = .illegal why) ↔
      rsvOf d ≠ 0 ∨ (selectCommand (opcOf d) (selOf d)).isRight = true ∨
      (opcOf d = 2 ∧ baseOf d ≠ 0) ∨ (opcOf d = 4 ∧ (baseOf d ≠ 0 ∨ countOf d ≠ 0)) := by
  unfold decodeHeader
  split
  · rename_i hr
    split
    · rename_i why hs
      simp [hs]
    · rename_i n hs
      rw [hs, ← checkOperands_ne_none_iff hs]
      split <;> simp [*]
  · rename_i hr
    exact iff_of_true ⟨_, rfl⟩ (.inl hr)

theorem acceptCommand_illegal {s : State} {c : Command} {why : Illegal} (h : decodeHeader c.desc = .illegal why) :
    acceptCommand c s = acceptIllegal (w0Of c.desc) s := by
  simp [acceptCommand, decodeCommand, h]

/-- Settles O5: R90 lists what the decoder's three checks reject, and past the acceptance checks an illegal descriptor does
nothing but raise ILLEGAL. -/
theorem illegalDescriptorsExactly : Obligations.IllegalDescriptorsExactly := by
  unfold Obligations.IllegalDescriptorsExactly
  refine ⟨fun d => ?_, fun s c why h ha => ?_⟩
  · rw [decodeHeader_illegal_iff, selectCommand_isRight_iff, or_left_comm]
    simp only [or_assoc]
  · rw [acceptCommand_illegal h, acceptIllegal, accept_accepts _ ha]
    exact raisesInCommand_raise _ _ _

/-- Settles O6: each descriptor is a number, on which the decoder is evaluated. -/
theorem sampleDescriptorsDecode : Obligations.SampleDescriptorsDecode := by
  unfold Obligations.SampleDescriptorsDecode
  decide

/-! ## Payloads that cannot be expressed (R91) -/

/-- Settles O19: only a LOAD has a payload that can be ill formed, and each LOAD checks its payload first. -/
theorem inexpressiblePayloadsAreRefused : Obligations.InexpressiblePayloadsAreRefused := by
  unfold Obligations.InexpressiblePayloadsAreRefused
  exact fun i _ => exec_inexpressible i

end Sys2Proof.Machine
end

section
/-! SUPPORT. The running invariants of the two jobs (R103, R164): a work-item's step moves one position from PEND to the
stepped ones and writes exactly what that position asks for, a launch has stepped no position, and a completed histogram
job has stepped them all (R104). -/

namespace Sys2Proof.Machine

variable {s t : State}

/-! ## Counting the stepped positions -/

/-- A count over distinct elements of which one, not counted before, is now counted where `c` holds. -/
theorem countP_change_one {α : Type} [DecidableEq α] {l : List α} (hl : l.Nodup) {a : α} (ha : a ∈ l) {p q : α → Bool}
    {c : Prop} [Decidable c] (hpa : p a = false) (hqa : q a = true ↔ c) (hoff : ∀ b ≠ a, q b = p b) :
    l.countP q = l.countP p + if c then 1 else 0 := by
  have hperm := List.perm_cons_erase ha
  have hrest : (l.erase a).countP q = (l.erase a).countP p := by
    refine List.countP_congr fun b hb => ?_
    rw [hoff b (hl.mem_erase_iff.1 hb).1]
  rw [hperm.countP_eq, hperm.countP_eq, List.countP_cons, List.countP_cons, hrest, hpa]
  simp [hqa]

/-- The step of position `p` adds that position to the stepped ones that hold its symbol. -/
theorem stepped_remove {p : Nat} (hp : p ∈ s.pend) (hlt : p < s.jobn.toNat) (hn : t.jobn = s.jobn)
    (hinp : t.mem.inp = s.mem.inp) (hpend : t.pend = s.pend.filter (fun i => i != p)) (u : Symbol) :
    stepped t u = stepped s u + if slotRead s.mem.inp p = some u then 1 else 0 := by
  rw [stepped, stepped, hn, hinp, hpend]
  exact countP_change_one List.nodup_range (List.mem_range.2 hlt) (by simp [hp]) (by simp) fun i hne => by simp [hne]

/-- A job that has just been launched has every position pending. -/
theorem stepped_launch (kind : JobKind) (n : Word) (s : State) (u : Symbol) : stepped (launch kind n s) u = 0 := by
  refine List.countP_eq_zero.2 fun i hi => ?_
  simpa using fun hge => absurd (List.mem_range.1 hi) (Nat.not_lt.2 hge)

/-- With nothing pending every position has stepped. -/
theorem stepped_eq_occurrences (hp : s.pend = []) (u : Symbol) : stepped s u = occurrences s u := by
  simp [stepped, occurrences, hp]

/-! ## The operations that keep the running invariants -/

/-- What every step keeps of the jobs, for both kinds (R103, R164). -/
def JobsSoFar (s : State) : Prop := HistogramSoFar s ∧ RecordsSoFar s

/-- The running invariants speak of a running job only. -/
theorem jobsSoFar_of_not_running (h : s.st ≠ .running) : JobsSoFar s :=
  ⟨fun hst => absurd hst h, fun hst => absurd hst h⟩

/-- The running invariants speak of PEND, the job's registers and the buffers. -/
theorem JobsSoFar.congr (h : JobsSoFar s) (hst : t.st = s.st) (hk : t.jobctl = s.jobctl) (hn : t.jobn = s.jobn)
    (hp : t.pend = s.pend) (hm : t.mem = s.mem) : JobsSoFar t := by
  simpa [JobsSoFar, HistogramSoFar, RecordsSoFar, stepped, hst, hk, hn, hp, hm] using h

/-- HINC: the count of the symbol at the work-item's position grows with the stepped positions that hold it (R102). -/
theorem HistogramSoFar.increment (h : HistogramSoFar s) (hinv : Inv s) (hst : s.st = .running) (hk : s.jobctl = .hist)
    (i : Nat) {w : WorkItem} (hp : position w ∈ s.pend) {v : Symbol} (hv : slotRead s.mem.inp (position w) = some v) :
    HistogramSoFar (endWorkItem (retire w (atomicInc v (beginWorkItem i s)))) := by
  intro _ _ u
  have hfits := hinv.count_fits hst hk hp v.toNat
  rw [stepped_remove hp (hinv.pendingBelowCount _ hp) (by simp) (by simp) (by simp), ← h hst hk u, hv,
    atomicInc_eq_countIncrement (s := beginWorkItem i s) hfits]
  simp [countRead_countIncrement, BitVec.toNat_inj, eq_comm]

/-- EMIT: the record of the work-item's position is written with its symbol's pattern, and no other slot (R162). -/
theorem RecordsSoFar.record (h : RecordsSoFar s) (hinv : Inv s) (hst : s.st = .running) (hk : s.jobctl = .enc)
    (i : Nat) {w : WorkItem} (hp : position w ∈ s.pend) {v : Symbol} {c : Nat}
    (hv : slotRead s.mem.inp (position w) = some v) (hc : slotRead s.mem.code v.toNat = some c) :
    RecordsSoFar (endWorkItem (retire w (writeRecord (position w) c (beginWorkItem i s)))) := by
  intro _ _
  obtain ⟨hwritten, hfree⟩ := h hst hk
  have hlt := hinv.pendingBelowCount _ hp
  refine ⟨fun j hj hnotPend => ?_, fun j hj => ?_⟩
  · by_cases hjp : j = position w
    · subst hjp
      exact ⟨v, c, hv, hc, slotRead_write_same _ _ _⟩
    · have hstepped : j ∉ s.pend := fun hmem => hnotPend (by simpa using ⟨hmem, hjp⟩)
      obtain ⟨v', c', hv', hc', hout⟩ := hwritten j hj hstepped
      exact ⟨v', c', hv', hc', (slotRead_write_other _ _ hjp).trans hout⟩
  · simp only [endWorkItem_jobn, endWorkItem_pend, retire_jobn, retire_pend, writeRecord_jobn, writeRecord_pend,
      beginWorkItem_jobn, beginWorkItem_pend, List.mem_filter, bne_iff_ne] at hj
    have hjp : j ≠ position w := by omega
    exact (slotRead_write_other _ _ hjp).trans (hfree j (hj.imp_right And.left))

/-- A launch: no position has stepped, and the job's output is untouched in this run (R188, R189). -/
theorem jobsSoFar_launch (hinv : Inv s) (hst : s.st = .idle) {kind : JobKind} {n : Word}
    (hfresh : outputSealed kind s.seals = false) : JobsSoFar (launch kind n s) := by
  refine ⟨?_, ?_⟩
  · rintro - ⟨⟩ u
    simp [stepped_launch, hinv.histUntouched hfresh (by simp [hst]) (by simp [hst])]
  · rintro - ⟨⟩
    simp [hinv.outUntouched hfresh (by simp [hst]) (by simp [hst])]

/-- The effect of a command in an IDLE block: a launch, or the block stays IDLE. -/
theorem Effect.jobsSoFar {a : State} {i : Instr} (he : Effect a i t) (hinv : Inv a) (hst : a.st = .idle) :
    JobsSoFar t := by
  cases he with
  | submitHist n hs => exact jobsSoFar_launch hinv.dropDraw (by simpa) (by simpa [outputSealed] using hs)
  | submitEnc n hs => exact jobsSoFar_launch hinv.dropDraw (by simpa) (by simpa [outputSealed] using hs)
  | _ => exact jobsSoFar_of_not_running (by simp [hst])

/-- Every step from a state with the invariant. -/
theorem step_jobsSoFar (hinv : Inv s) (h : JobsSoFar s) (hstep : step s = .next t) : JobsSoFar t := by
  cases step_outcome hstep with
  | incremented env i w v hst hk hp hv =>
    obtain ⟨hhist, -⟩ : JobsSoFar { s with env := env } := h.congr rfl rfl rfl rfl rfl
    exact ⟨hhist.increment (hinv.withEnv env) hst hk i hp hv, fun _ hk' => by simp [hk] at hk'⟩
  | emitted env i w v c hst hk hp hv hc =>
    obtain ⟨-, hrec⟩ : JobsSoFar { s with env := env } := h.congr rfl rfl rfl rfl rfl
    exact ⟨fun _ hk' => by simp [hk] at hk', hrec.record (hinv.withEnv env) hst hk i hp hv hc⟩
  | jobFaulted => exact jobsSoFar_of_not_running (by simp)
  | completed => exact jobsSoFar_of_not_running (by simp)
  | rejected hst => exact jobsSoFar_of_not_running (by simp [hst])
  | unavailable => exact jobsSoFar_of_not_running (by simp)
  | raised => exact jobsSoFar_of_not_running (by simp)
  | executed c i t ha hh hd he => exact he.jobsSoFar hinv.accepted (by simpa using ha.1)
  | hostMoved env =>
    obtain ⟨orch, held, ho⟩ := orchStep_eq { s with env := env }
    rw [ho]
    exact h.congr rfl rfl rfl rfl rfl

/-- Settles O44. -/
theorem everyStepKeepsTheJobInvariants : Obligations.EveryStepKeepsTheJobInvariants := by
  unfold Obligations.EveryStepKeepsTheJobInvariants
  exact fun _ _ hinv hhist hrec hstep => step_jobsSoFar hinv ⟨hhist, hrec⟩ hstep

/-! ## The completed histogram job (R104) -/

theorem Launch.st_idle (h : Launch s) : s.st = .idle := by
  obtain ⟨-, orch, env, hs⟩ := h
  rw [hs]
  rfl

/-- No job runs in a launch state, and every step keeps the running invariants. -/
theorem Reachable.jobsSoFar (h : Reachable s) : JobsSoFar s := by
  obtain ⟨s0, hlaunch, hruns⟩ := h
  induction hruns with
  | refl => exact jobsSoFar_of_not_running (by simp [hlaunch.st_idle])
  | step hruns hstep ih => exact step_jobsSoFar (Reachable.inv ⟨s0, hlaunch, hruns⟩) ih hstep

/-- COMPLETE sets the tag of the job's output (R190). -/
theorem outputSealed_completeJob (hk : s.jobctl ≠ .none) : outputSealed s.jobctl (completeJob s).seals = true := by
  cases h : s.jobctl <;> simp_all [outputSealed, sealOutput]

/-- Settles O45: with nothing pending the stepped positions are all of them, and the completion step keeps HIST. -/
theorem histogramJobsCountEverySymbol : Obligations.HistogramJobsCountEverySymbol := by
  unfold Obligations.HistogramJobsCountEverySymbol
  intro s h hst hk hp
  obtain ⟨hhist, -⟩ := h.jobsSoFar
  have hsealed := outputSealed_completeJob (s := s) (by simp [hk])
  rw [hk] at hsealed
  exact ⟨completeJob s, rfl, fun u => (hhist hst hk u).trans (stepped_eq_occurrences hp u), hsealed⟩

end Sys2Proof.Machine
end

section
/-! SUPPORT. HINC and where a work-item operation has no step (R102, R162), and the jobs over no element (R105, R166). -/

namespace Sys2Proof.Machine

/-! ## Work-item operations -/

/-- HINC of an enabled work-item whose input slot holds no value (R102). -/
theorem exec_hinc_unwritten {s : State} {w : WorkItem} (hw : s.wi = some w) (hst : s.st = .running)
    (hk : s.jobctl = .hist) (hp : position w ∈ s.pend) (hv : slotRead s.mem.inp (position w) = none) :
    exec .hinc s = .next (faultEntry .unwritten w.idx s) := by
  rw [exec, execHinc, workItemStep_enabled hw hst hk hp, hincBody, hv]

/-- Settles O25. -/
theorem hincFollowsItsRule : Obligations.HincFollowsItsRule := by
  unfold Obligations.HincFollowsItsRule
  intro s w hw hst hk hp
  refine ⟨fun v hv hfits => ⟨_, exec_hinc_written hw hst hk hp hv, ?_⟩, fun hv => ?_⟩
  · rw [atomicInc_eq_countIncrement hfits]
    refine ⟨?_, fun k hne => ?_, fun i => ?_, rfl⟩
    · simp [countRead_countIncrement]
    · simp [countRead_countIncrement, hne]
    · simp [position]
  · rw [exec_hinc_unwritten hw hst hk hp hv]
    exact raisesInJob_faultEntry _ _ _

theorem workItemEnabled_iff (kind : JobKind) (w : WorkItem) (s : State) :
    workItemEnabled kind w s = true ↔ s.st = .running ∧ s.jobctl = kind ∧ position w ∈ s.pend := by
  simp [workItemEnabled, and_assoc]

/-- Where no work-item is enabled a work-item operation has no step (log entry 10). -/
theorem workItemStep_disabled {kind : JobKind} {s : State} (body : WorkItem → State → State)
    (h : ¬ ∃ w, s.wi = some w ∧ s.st = .running ∧ s.jobctl = kind ∧ position w ∈ s.pend) :
    workItemStep kind body s = .fault .workItemNotEnabled := by
  unfold workItemStep
  split
  · rfl
  · rename_i w hw
    exact if_neg fun he => h ⟨w, hw, (workItemEnabled_iff kind w s).1 he⟩

/-- Settles O29: both operations are a `workItemStep`, of the kind of their job. -/
theorem workItemOperationsNeedTheirWorkItem : Obligations.WorkItemOperationsNeedTheirWorkItem := by
  unfold Obligations.WorkItemOperationsNeedTheirWorkItem
  exact fun s => ⟨workItemStep_disabled hincBody, workItemStep_disabled emitBody⟩

/-! ## Jobs over no element -/

/-- An accepted command that leaves the block RUNNING raised nothing: it had its effect. -/
theorem effect_of_exec_running {s t : State} {i : Instr} (hc : isCommand i = true) (hw : i.wf s.cfg = true)
    (ha : Accepts s) (h : exec i s = .next t) (ht : t.st = .running) : Effect (accepted s) i t := by
  rcases exec_accepts i hc hw ha with ⟨x, info, u, -, -, hr⟩ | ⟨t', he, hr⟩
  · obtain rfl : t = raiseInCommand x info u := by simpa [h] using hr
    simp at ht
  · obtain rfl : t = t' := by simpa [h] using hr
    exact he

theorem complete_mem_enabledActions {s : State} (hst : s.st = .running) (hp : s.pend = []) :
    Action.complete ∈ enabledActions s := by
  simp [enabledActions, jobActions, hst, hp]

/-- The launch of a job over no element in `a`, and the completion step after it, for either kind. -/
theorem launch_zero_completes (kind : JobKind) (a : State) :
    (launch kind 0 a).pend = [] ∧ Action.complete ∈ enabledActions (launch kind 0 a) ∧
    ∃ u, act .complete (launch kind 0 a) = .next u ∧ u.st = .idle ∧ u.mem = a.mem ∧
      (kind = .hist → u.seals.hist = true) ∧ (kind = .enc → u.seals.out = true) := by
  refine ⟨rfl, complete_mem_enabledActions rfl rfl, completeJob (launch kind 0 a), rfl, rfl, rfl, ?_, ?_⟩
  · rintro rfl
    rfl
  · rintro rfl
    rfl

/-- Settles O33: a SUBMIT that leaves the block RUNNING is a launch. -/
theorem emptyJobsCompleteAtOnce : Obligations.EmptyJobsCompleteAtOnce := by
  unfold Obligations.EmptyJobsCompleteAtOnce
  intro s t ha ht h
  obtain ⟨kind, rfl⟩ : ∃ kind, t = launch kind 0 (dropDraw (accepted s)) := by
    rcases h with h | h
    · cases effect_of_exec_running rfl rfl ha h ht
      exact ⟨.hist, rfl⟩
    · cases effect_of_exec_running rfl rfl ha h ht
      exact ⟨.enc, rfl⟩
  obtain ⟨hpend, hcomplete, u, hu, hidle, hmem, hseals⟩ := launch_zero_completes kind (dropDraw (accepted s))
  exact ⟨hpend, hcomplete, by simp, u, hu, hidle, by simpa using hmem, hseals⟩

end Sys2Proof.Machine
end

section
/-! SUPPORT. BUILD_TREE (R120 to R133): insertion into the queue and seeding as permutations and sorted lists, and the
merges as rearrangements of the leaves, from which the size and the frequency of the tree follow. -/

namespace Sys2Proof.Machine

/-! ## PendingQueue (R124) -/

/-- `insert` is the library's ordered insertion for the strict order of frequencies: a node stops before the first larger
one. -/
theorem queueInsert_eq_orderedInsert (q : List HuffmanNode) (n : HuffmanNode) :
    queueInsert q n = q.orderedInsert (fun a b => a.freq < b.freq) n := by
  induction q with
  | nil => rfl
  | cons a q ih =>
    by_cases h : a.freq ≤ n.freq
    · simp [queueInsert, h, ih]
    · simp [queueInsert, h, Nat.lt_of_not_le h]

theorem queueInsert_perm (q : List HuffmanNode) (n : HuffmanNode) : (queueInsert q n).Perm (n :: q) :=
  queueInsert_eq_orderedInsert q n ▸ List.perm_orderedInsert _ n q

@[simp] theorem mem_queueInsert {q : List HuffmanNode} {n a : HuffmanNode} : a ∈ queueInsert q n ↔ a = n ∨ a ∈ q := by
  simp [(queueInsert_perm q n).mem_iff]

theorem queueInsert_eq_filter {q : List HuffmanNode} (n : HuffmanNode) (hq : q.Pairwise (fun a b => a.freq ≤ b.freq)) :
    queueInsert q n =
      q.filter (fun a => decide (a.freq ≤ n.freq)) ++ n :: q.filter (fun a => decide (n.freq < a.freq)) := by
  induction q with
  | nil => rfl
  | cons a q ih =>
    obtain ⟨ha, hq⟩ := List.pairwise_cons.1 hq
    by_cases h : a.freq ≤ n.freq
    · simp [queueInsert, h, ih hq]
    · have hall : ∀ b ∈ a :: q, n.freq < b.freq :=
        List.forall_mem_cons.2 ⟨by omega, fun b hb => by have := ha b hb; omega⟩
      have hnone : (a :: q).filter (fun b => decide (b.freq ≤ n.freq)) = [] := by
        simpa [List.filter_eq_nil_iff] using hall
      have hsome : (a :: q).filter (fun b => decide (n.freq < b.freq)) = a :: q := by
        simpa [List.filter_eq_self] using hall
      rw [hnone, hsome, queueInsert, if_neg h, List.nil_append]

/-- `insert` keeps a queue in any order that refines the frequencies and in which the new node comes behind every node of
at most its frequency and before every other. -/
theorem pairwise_queueInsert {R : HuffmanNode → HuffmanNode → Prop} (hR : ∀ a b, R a b → a.freq ≤ b.freq)
    {q : List HuffmanNode} {n : HuffmanNode} (hle : ∀ a ∈ q, a.freq ≤ n.freq → R a n)
    (hlt : ∀ a ∈ q, n.freq < a.freq → R n a) (hq : q.Pairwise R) : (queueInsert q n).Pairwise R := by
  induction q with
  | nil => simp [queueInsert]
  | cons a q ih =>
    obtain ⟨ha, hq'⟩ := List.pairwise_cons.1 hq
    rw [List.forall_mem_cons] at hle hlt
    by_cases h : a.freq ≤ n.freq
    · rw [queueInsert, if_pos h, List.pairwise_cons]
      exact ⟨by simpa using ⟨hle.1 h, ha⟩, ih hle.2 hlt.2 hq'⟩
    · rw [queueInsert, if_neg h, List.pairwise_cons]
      refine ⟨List.forall_mem_cons.2 ⟨hlt.1 (by omega), fun b hb => hlt.2 b hb ?_⟩, hq⟩
      have := hR a b (ha b hb)
      omega

/-- Settles O52. -/
theorem queueInsertIsStable : Obligations.QueueInsertIsStable := by
  unfold Obligations.QueueInsertIsStable
  exact fun q n hq => ⟨queueInsert_eq_filter n hq,
    pairwise_queueInsert (fun _ _ h => h) (fun _ _ h => h) (fun _ _ h => h.le) hq⟩

/-! ## Seeding (R125) -/

/-- The symbols of positive count, rising. -/
def presentSymbols (f : List Nat) : List Nat := (List.range 256).filter (fun s => decide (0 < tableCount f s))

/-- The leaf that seeding inserts for a symbol. -/
def seedLeaf (f : List Nat) (s : Nat) : HuffmanNode := .leaf (BitVec.ofNat 8 s) (tableCount f s)

theorem mem_presentSymbols {f : List Nat} {s : Nat} : s ∈ presentSymbols f ↔ s < 256 ∧ 0 < tableCount f s := by
  simp [presentSymbols]

theorem seedFrom_eq_foldl (f ss : List Nat) (q : List HuffmanNode) :
    seedFrom f ss q = ((ss.filter (fun s => decide (0 < tableCount f s))).map (seedLeaf f)).foldl queueInsert q := by
  induction ss generalizing q with
  | nil => rfl
  | cons s ss ih => by_cases h : 0 < tableCount f s <;> simp [seedFrom, seedLeaf, h, ih]

theorem seedQueue_eq_foldl (f : List Nat) : seedQueue f = ((presentSymbols f).map (seedLeaf f)).foldl queueInsert [] :=
  seedFrom_eq_foldl f (List.range alpha) []

theorem foldl_queueInsert_perm (ls q : List HuffmanNode) : (ls.foldl queueInsert q).Perm (ls ++ q) := by
  induction ls generalizing q with
  | nil => exact .refl _
  | cons n ls ih =>
    calc ((n :: ls).foldl queueInsert q).Perm (ls ++ queueInsert q n) := ih (queueInsert q n)
      _ |>.Perm (ls ++ n :: q) := (queueInsert_perm q n).append_left ls
      _ |>.Perm (n :: ls ++ q) := List.perm_middle

theorem seedQueue_perm (f : List Nat) : (seedQueue f).Perm ((presentSymbols f).map (seedLeaf f)) := by
  simpa [seedQueue_eq_foldl] using foldl_queueInsert_perm ((presentSymbols f).map (seedLeaf f)) []

theorem mem_seedQueue {f : List Nat} {a : HuffmanNode} :
    a ∈ seedQueue f ↔ ∃ s : Symbol, a = .leaf s (tableCount f s.toNat) ∧ 0 < tableCount f s.toNat := by
  rw [(seedQueue_perm f).mem_iff, List.mem_map]
  constructor
  · rintro ⟨s, hs, rfl⟩
    obtain ⟨hlt, hpos⟩ := mem_presentSymbols.1 hs
    have hval : (BitVec.ofNat 8 s).toNat = s := by simpa using hlt
    exact ⟨BitVec.ofNat 8 s, by rw [hval, seedLeaf], by rwa [hval]⟩
  · rintro ⟨s, rfl, hpos⟩
    exact ⟨s.toNat, mem_presentSymbols.2 ⟨s.isLt, hpos⟩, by simp [seedLeaf]⟩

/-- Two leaves, the first of the smaller symbol. -/
def SymbolBefore (a b : HuffmanNode) : Prop := ∃ s w t v, a = .leaf s w ∧ b = .leaf t v ∧ s.toNat < t.toNat

/-- Two leaves, the first of the smaller (frequency, symbol) (R125). -/
def SeedBefore (a b : HuffmanNode) : Prop :=
  ∃ s w t v, a = .leaf s w ∧ b = .leaf t v ∧ (w < v ∨ (w = v ∧ s.toNat < t.toNat))

theorem SeedBefore.freq_le {a b : HuffmanNode} (h : SeedBefore a b) : a.freq ≤ b.freq := by
  obtain ⟨s, w, t, v, rfl, rfl, h⟩ := h
  simp only [HuffmanNode.freq]
  omega

theorem SymbolBefore.seedBefore {a b : HuffmanNode} (h : SymbolBefore a b) (hw : a.freq ≤ b.freq) : SeedBefore a b := by
  obtain ⟨s, w, t, v, rfl, rfl, h⟩ := h
  exact ⟨s, w, t, v, rfl, rfl, hw.lt_or_eq.imp_right (⟨·, h⟩)⟩

theorem SymbolBefore.seedBefore_swap {a b : HuffmanNode} (h : SymbolBefore a b) (hw : b.freq < a.freq) :
    SeedBefore b a := by
  obtain ⟨s, w, t, v, rfl, rfl, -⟩ := h
  exact ⟨t, v, s, w, rfl, rfl, .inl hw⟩

/-- Leaves inserted by rising symbol, all behind the symbols that stand in the queue, keep it ordered. -/
theorem pairwise_foldl_queueInsert {ls q : List HuffmanNode} (hls : ls.Pairwise SymbolBefore)
    (hqls : ∀ a ∈ q, ∀ b ∈ ls, SymbolBefore a b) (hq : q.Pairwise SeedBefore) :
    (ls.foldl queueInsert q).Pairwise SeedBefore := by
  induction ls generalizing q with
  | nil => exact hq
  | cons n ls ih =>
    obtain ⟨hn, hls⟩ := List.pairwise_cons.1 hls
    have hqn : ∀ a ∈ q, SymbolBefore a n := fun a ha => hqls a ha n List.mem_cons_self
    refine ih hls (fun a ha b hb => ?_) (pairwise_queueInsert (fun _ _ => SeedBefore.freq_le)
      (fun a ha => (hqn a ha).seedBefore) (fun a ha => (hqn a ha).seedBefore_swap) hq)
    rcases mem_queueInsert.1 ha with rfl | ha
    · exact hn b hb
    · exact hqls a ha b (List.mem_cons_of_mem n hb)

theorem presentLeaves_pairwise (f : List Nat) : ((presentSymbols f).map (seedLeaf f)).Pairwise SymbolBefore := by
  rw [List.pairwise_map]
  refine (List.pairwise_lt_range.filter _).imp_of_mem fun {s t} hs ht hst => ⟨_, _, _, _, rfl, rfl, ?_⟩
  have hs := (mem_presentSymbols.1 hs).1
  have ht := (mem_presentSymbols.1 ht).1
  simpa [Nat.mod_eq_of_lt hs, Nat.mod_eq_of_lt ht] using hst

/-- Settles O53. -/
theorem seedingOrdersByFrequencyThenSymbol : Obligations.SeedingOrdersByFrequencyThenSymbol := by
  unfold Obligations.SeedingOrdersByFrequencyThenSymbol
  intro f
  refine ⟨?_, fun a => mem_seedQueue⟩
  rw [seedQueue_eq_foldl]
  exact pairwise_foldl_queueInsert (presentLeaves_pairwise f) (by simp) .nil

/-! ## Trees (R122) -/

/-- A tree has one leaf more than it has internal nodes. -/
theorem leaves_length (t : HuffmanNode) : (leaves t).length = merges t + 1 := by
  induction t with
  | leaf => rfl
  | internal w l r ihl ihr =>
    simp only [leaves, merges, List.length_append, ihl, ihr]
    omega

/-- Where every internal frequency is the sum of its children's, the root's is the sum of the leaves'. -/
theorem freq_eq_sum_leaves {t : HuffmanNode} (h : sumNodes t = true) : t.freq = ((leaves t).map Prod.snd).sum := by
  induction t with
  | leaf => simp [leaves, HuffmanNode.freq]
  | internal w l r ihl ihr =>
    simp only [sumNodes, Bool.and_eq_true, decide_eq_true_eq] at h
    obtain ⟨⟨hw, hl⟩, hr⟩ := h
    simpa [leaves, HuffmanNode.freq, ← ihl hl, ← ihr hr] using hw

/-! ## Merging (R126) -/

/-- What every merge of the two first nodes keeps, the loop keeps. -/
theorem mergeLoop_keeps {P : List HuffmanNode → Prop}
    (hmerge : ∀ a b q, P (a :: b :: q) → P (queueInsert q (.internal (a.freq + b.freq) a b))) (k : Nat)
    {q : List HuffmanNode} (h : P q) : P (mergeLoop k q) := by
  fun_induction mergeLoop k q with
  | case1 k a b q ih => exact ih (hmerge a b q h)
  | case2 => exact h

theorem flatMap_leaves_mergeLoop (k : Nat) (q : List HuffmanNode) :
    ((mergeLoop k q).flatMap leaves).Perm (q.flatMap leaves) := by
  refine mergeLoop_keeps (P := fun p => (p.flatMap leaves).Perm (q.flatMap leaves)) (fun a b p h => ?_) k (.refl _)
  refine ((queueInsert_perm p _).flatMap_right leaves).trans ?_
  simpa [leaves] using h

theorem sumNodes_mergeLoop (k : Nat) {q : List HuffmanNode} (h : ∀ t ∈ q, sumNodes t = true) :
    ∀ t ∈ mergeLoop k q, sumNodes t = true := by
  refine mergeLoop_keeps (P := fun p => ∀ t ∈ p, sumNodes t = true) (fun a b p h => ?_) k h
  simpa [sumNodes, HuffmanNode.freq, and_assoc] using h

/-- Each merge makes the queue one shorter, so as many merges as there are nodes beyond the first leave at most one. -/
theorem length_mergeLoop_le_one {k : Nat} {q : List HuffmanNode} (h : q.length ≤ k + 1) : (mergeLoop k q).length ≤ 1 := by
  fun_induction mergeLoop k q with
  | case1 k a b q ih =>
    refine ih ?_
    simpa [(queueInsert_perm q _).length_eq] using h
  | case2 k q hstop =>
    match k, q with
    | _, [] | _, [_] => simp
    | 0, _ :: _ :: _ => simp at h
    | k + 1, a :: b :: q => exact absurd rfl (hstop k a b q rfl)

/-! ## The result of BUILD_TREE (R127) -/

/-- The symbols with their counts, as the leaves of a tree show them. -/
theorem flatMap_leaves_seedQueue (f : List Nat) :
    ((seedQueue f).flatMap leaves).Perm ((presentSymbols f).map (fun s => (BitVec.ofNat 8 s, tableCount f s))) := by
  have h := (seedQueue_perm f).flatMap_right leaves
  rw [List.flatMap_map] at h
  exact h.trans (.of_eq List.map_eq_flatMap.symm)

theorem sumNodes_seedQueue (f : List Nat) : ∀ t ∈ seedQueue f, sumNodes t = true := by
  intro t ht
  obtain ⟨s, rfl, hpos⟩ := mem_seedQueue.1 ht
  exact decide_eq_true hpos

theorem length_seedQueue_le (f : List Nat) : (seedQueue f).length ≤ 256 := by
  rw [(seedQueue_perm f).length_eq, List.length_map]
  exact (List.length_filter_le _ _).trans_eq List.length_range

theorem buildTree_eq_none {f : List Nat} (h : presentSymbols f = []) : buildTree f = none := by
  have hq : seedQueue f = [] := by simpa [h] using seedQueue_perm f
  simp [buildTree, hq, mergeLoop]

theorem buildTree_some {f : List Nat} {t : HuffmanNode} (h : buildTree f = some t) :
    sumNodes t = true ∧ (leaves t).Perm ((presentSymbols f).map (fun s => (BitVec.ofNat 8 s, tableCount f s))) := by
  have hlen : (mergeLoop 255 (seedQueue f)).length ≤ 1 := length_mergeLoop_le_one (length_seedQueue_le f)
  obtain ⟨q, hq⟩ := List.head?_eq_some_iff.1 h
  have hnil : q = [] := by simpa [hq] using hlen
  subst hnil
  refine ⟨sumNodes_mergeLoop 255 (sumNodes_seedQueue f) t (by simp [hq]), ?_⟩
  simpa [hq] using (flatMap_leaves_mergeLoop 255 (seedQueue f)).trans (flatMap_leaves_seedQueue f)

/-- Merging loses no leaf, so some present symbol means some tree. -/
theorem exists_buildTree {f : List Nat} (h : presentSymbols f ≠ []) : ∃ t, buildTree f = some t := by
  rw [← Option.isSome_iff_exists, buildTree, List.isSome_head?]
  intro hq
  have hperm := (flatMap_leaves_mergeLoop 255 (seedQueue f)).trans (flatMap_leaves_seedQueue f)
  exact h (by simpa [hq] using hperm)

theorem merges_buildTree {f : List Nat} {t : HuffmanNode} (h : buildTree f = some t) :
    merges t = (presentSymbols f).length - 1 := by
  have hlen := (buildTree_some h).2.length_eq
  rw [leaves_length, List.length_map] at hlen
  omega

theorem freq_buildTree {f : List Nat} {t : HuffmanNode} (h : buildTree f = some t) :
    t.freq = ((presentSymbols f).map (tableCount f)).sum := by
  obtain ⟨hsum, hleaves⟩ := buildTree_some h
  rw [freq_eq_sum_leaves hsum, (hleaves.map Prod.snd).sum_eq, List.map_map]
  rfl

theorem buildTree_of_one {f : List Nat} {s : Nat} (h : presentSymbols f = [s]) :
    buildTree f = some (.leaf (BitVec.ofNat 8 s) (tableCount f s)) := by
  obtain ⟨t, ht⟩ := exists_buildTree (f := f) (by simp [h])
  have hleaves := (buildTree_some ht).2
  have hmerges := merges_buildTree ht
  cases t with
  | leaf s' w => simpa [h, leaves, ht] using hleaves
  | internal w l r => simp [h, merges] at hmerges

theorem buildTree_of_two_le {f : List Nat} (h : 2 ≤ (presentSymbols f).length) :
    ∃ w l r, buildTree f = some (.internal w l r) := by
  obtain ⟨t, ht⟩ := exists_buildTree (List.ne_nil_of_length_pos (Nat.zero_lt_of_lt h))
  have hmerges := merges_buildTree ht
  cases t with
  | leaf s w =>
    simp only [merges] at hmerges
    omega
  | internal w l r => exact ⟨w, l, r, ht⟩

/-- Settles O54: the queue's leaves are rearranged only, which fixes the tree's leaves, and these fix its size and its
frequency. -/
theorem buildTreeHasThePresentSymbolsAsLeaves : Obligations.BuildTreeHasThePresentSymbolsAsLeaves := by
  unfold Obligations.BuildTreeHasThePresentSymbolsAsLeaves
  intro f
  refine ⟨fun h => buildTree_eq_none (List.length_eq_zero_iff.1 h), fun s => buildTree_of_one, fun h => ?_, fun t ht => ?_⟩
  · obtain ⟨w, l, r, ht⟩ := buildTree_of_two_le h
    exact ⟨w, l, r, ht, merges_buildTree ht⟩
  · obtain ⟨hsum, hleaves⟩ := buildTree_some ht
    exact ⟨hsum, freq_buildTree ht, hleaves⟩

/-- Settles O56, by running the model. -/
theorem workedExampleTreeAndTable : Obligations.WorkedExampleTreeAndTable := by
  unfold Obligations.WorkedExampleTreeAndTable
  decide +kernel

end Sys2Proof.Machine
end

section
/-! SUPPORT. GEN_CODES (R140 to R145) and the decoder oracle (R150): the codes `walk` records, each of which continues the
path it was reached by; so no leaf's code begins another's, and the decoder finds one symbol. -/

namespace Sys2Proof.Machine

/-! ## Codes that begin others (R142, R145) -/

/-- `u` is the first `u.length` bits of `v`, in the arithmetic form of R145 item 3. -/
def IsCodePrefix (u v : CodeWord) : Prop := u.length ≤ v.length ∧ v.pattern / 2 ^ (v.length - u.length) = u.pattern

theorem prefixFree_iff {c : CodeTable} :
    PrefixFree c ↔ ∀ s t u v, s ≠ t → slotRead c s = some u → slotRead c t = some v → ¬ IsCodePrefix u v := by
  simp [PrefixFree, IsCodePrefix]

theorem IsCodePrefix.refl (u : CodeWord) : IsCodePrefix u u := by simp [IsCodePrefix]

theorem IsCodePrefix.trans {u v w : CodeWord} (huv : IsCodePrefix u v) (hvw : IsCodePrefix v w) : IsCodePrefix u w := by
  obtain ⟨hluv, hpuv⟩ := huv
  obtain ⟨hlvw, hpvw⟩ := hvw
  have hlen : w.length - u.length = (w.length - v.length) + (v.length - u.length) := by omega
  exact ⟨hluv.trans hlvw, by rw [hlen, pow_add, ← Nat.div_div_eq_div_mul, hpvw, hpuv]⟩

/-- Appending one bit (R142). -/
theorem isCodePrefix_snoc (p d : Nat) {b : Nat} (hb : b < 2) : IsCodePrefix ⟨p, d⟩ ⟨2 * p + b, d + 1⟩ := by
  simp only [IsCodePrefix, Nat.add_sub_cancel_left, pow_one]
  omega

/-- Of each length there is one code that `w` begins with. -/
theorem IsCodePrefix.pattern_eq {u v w : CodeWord} (hu : IsCodePrefix u w) (hv : IsCodePrefix v w)
    (hlen : u.length = v.length) : u.pattern = v.pattern := by
  rw [← hu.2, ← hv.2, hlen]

/-! ## The codes of a tree's leaves (R141) -/

/-- The leaves' symbols from left to right, each with the code `walk` records for it. -/
def leafCodes : HuffmanNode → Nat → Nat → List (Symbol × CodeWord)
  | .leaf s _, p, d => [(s, { pattern := p, length := d })]
  | .internal _ l r, p, d => leafCodes l (2 * p) (d + 1) ++ leafCodes r (2 * p + 1) (d + 1)

/-- What `walk` adds to a table is the code of some leaf. -/
theorem slotRead_walk_cases {t : HuffmanNode} {p d : Nat} {c : CodeTable} {k : Nat} {u : CodeWord}
    (h : slotRead (walk t p d c) k = some u) : slotRead c k = some u ∨ ∃ s, s.toNat = k ∧ (s, u) ∈ leafCodes t p d := by
  induction t generalizing p d c with
  | leaf s w =>
    rw [walk, slotRead_write] at h
    split at h
    · exact .inr ⟨s, by simp_all [leafCodes]⟩
    · exact .inl h
  | internal w l r ihl ihr =>
    simp only [leafCodes, List.mem_append]
    rcases ihr h with h | ⟨s, hs, h⟩
    · exact (ihl h).imp_right fun ⟨s, hs, h⟩ => ⟨s, hs, .inl h⟩
    · exact .inr ⟨s, hs, .inr h⟩

/-- `walk` adds every leaf's symbol to the table and loses no entry. -/
theorem isSome_slotRead_walk (t : HuffmanNode) (p d : Nat) (c : CodeTable) (k : Nat) :
    (slotRead (walk t p d c) k).isSome ↔ (slotRead c k).isSome ∨ ∃ e ∈ leaves t, e.1.toNat = k := by
  induction t generalizing p d c with
  | leaf s w =>
    rw [walk, slotRead_write]
    simp only [leaves, List.mem_singleton, exists_eq_left]
    by_cases h : k = s.toNat
    · simp [h]
    · simp [h, Ne.symm h]
  | internal w l r ihl ihr => simp only [walk, leaves, ihl, ihr, List.mem_append, or_and_right, exists_or, or_assoc]

theorem slotsWf_walk (t : HuffmanNode) (p d : Nat) {c : CodeTable} (h : slotsWf c = true) :
    slotsWf (walk t p d c) = true := by
  induction t generalizing p d c with
  | leaf s w => exact slotsWf_write _ _ h
  | internal w l r ihl ihr => exact ihr _ _ (ihl _ _ h)

/-- Every code of a subtree begins with the path to the subtree. -/
theorem isCodePrefix_of_mem_leafCodes {t : HuffmanNode} {p d : Nat} {e : Symbol × CodeWord} (h : e ∈ leafCodes t p d) :
    IsCodePrefix ⟨p, d⟩ e.2 := by
  induction t generalizing p d with
  | leaf s w =>
    rw [List.mem_singleton.1 h]
    exact .refl _
  | internal w l r ihl ihr =>
    rcases List.mem_append.1 h with h | h
    · exact (isCodePrefix_snoc p d (b := 0) (by omega)).trans (ihl h)
    · exact (isCodePrefix_snoc p d (b := 1) (by omega)).trans (ihr h)

/-- No path is longer than the number of internal nodes. -/
theorem length_le_of_mem_leafCodes {t : HuffmanNode} {p d : Nat} {e : Symbol × CodeWord} (h : e ∈ leafCodes t p d) :
    e.2.length ≤ d + merges t := by
  induction t generalizing p d with
  | leaf s w =>
    rw [List.mem_singleton.1 h]
    exact Nat.le_add_right d _
  | internal w l r ihl ihr =>
    simp only [merges]
    rcases List.mem_append.1 h with h | h
    · exact (ihl h).trans (by omega)
    · exact (ihr h).trans (by omega)

/-- Of two codes that begin with different paths of one length, neither begins the other. -/
theorem not_isCodePrefix_of_diverge {p q d : Nat} {u v : CodeWord} (hpq : p ≠ q) (hu : IsCodePrefix ⟨p, d⟩ u)
    (hv : IsCodePrefix ⟨q, d⟩ v) : ¬ IsCodePrefix u v :=
  fun huv => hpq ((hu.trans huv).pattern_eq hv rfl)

/-- R145 item 3, by the last node that the paths to the two leaves share. -/
theorem not_isCodePrefix_of_mem_leafCodes {t : HuffmanNode} {p d : Nat} {r s : Symbol} {u v : CodeWord}
    (hu : (r, u) ∈ leafCodes t p d) (hv : (s, v) ∈ leafCodes t p d) (hrs : r ≠ s) : ¬ IsCodePrefix u v := by
  induction t generalizing p d with
  | leaf a w => exact absurd ((congrArg Prod.fst (List.mem_singleton.1 hu)).trans
      (congrArg Prod.fst (List.mem_singleton.1 hv)).symm) hrs
  | internal w a b iha ihb =>
    rcases List.mem_append.1 hu with hu | hu <;> rcases List.mem_append.1 hv with hv | hv
    · exact iha hu hv
    · exact not_isCodePrefix_of_diverge (by omega) (isCodePrefix_of_mem_leafCodes hu) (isCodePrefix_of_mem_leafCodes hv)
    · exact not_isCodePrefix_of_diverge (by omega) (isCodePrefix_of_mem_leafCodes hu) (isCodePrefix_of_mem_leafCodes hv)
    · exact ihb hu hv

/-! ## GEN_CODES (R141, R143, R144) -/

/-- The depth GEN_CODES gives the root: 1 to a single leaf (R143), else 0 (R141). -/
def rootDepth : HuffmanNode → Nat
  | .leaf _ _ => 1
  | .internal _ _ _ => 0

@[simp] theorem genCodes_some (t : HuffmanNode) : genCodes (some t) = walk t 0 (rootDepth t) [] := by
  cases t <;> rfl

/-- Settles O55. -/
theorem genCodesSpecialCases : Obligations.GenCodesSpecialCases := by
  unfold Obligations.GenCodesSpecialCases
  refine ⟨rfl, fun s w k => ?_, fun s t u v w hst => ?_⟩
  · simp [walk, rootDepth, slotRead_write]
  · have hne : s.toNat ≠ t.toNat := fun h => hst (BitVec.eq_of_toNat_eq h)
    simp [walk, rootDepth, slotRead_write, hne]

theorem mem_leafCodes_of_slotRead_genCodes {t : HuffmanNode} {k : Nat} {u : CodeWord}
    (h : slotRead (genCodes (some t)) k = some u) : ∃ s, s.toNat = k ∧ (s, u) ∈ leafCodes t 0 (rootDepth t) := by
  rw [genCodes_some] at h
  simpa using slotRead_walk_cases h

theorem slotsWf_genCodes (t : Option HuffmanNode) : slotsWf (genCodes t) = true := by
  cases t with
  | none => rfl
  | some t => exact genCodes_some t ▸ slotsWf_walk t 0 (rootDepth t) rfl

/-- R145 item 3, of every tree. -/
theorem prefixFree_genCodes (t : Option HuffmanNode) : PrefixFree (genCodes t) := by
  rw [prefixFree_iff]
  intro s r u v hsr hu hv
  cases t with
  | none => simp [genCodes] at hu
  | some t =>
    obtain ⟨a, rfl, hua⟩ := mem_leafCodes_of_slotRead_genCodes hu
    obtain ⟨b, rfl, hvb⟩ := mem_leafCodes_of_slotRead_genCodes hv
    exact not_isCodePrefix_of_mem_leafCodes hua hvb fun h => hsr (congrArg BitVec.toNat h)

/-- R145 item 2: a pattern that continues the root's pattern 0 fits its length. -/
theorem pattern_lt_of_slotRead_genCodes {t : Option HuffmanNode} {k : Nat} {u : CodeWord}
    (h : slotRead (genCodes t) k = some u) : u.pattern < 2 ^ u.length := by
  cases t with
  | none => simp [genCodes] at h
  | some t =>
    obtain ⟨s, -, hu⟩ := mem_leafCodes_of_slotRead_genCodes h
    obtain ⟨-, hpat⟩ := isCodePrefix_of_mem_leafCodes hu
    calc u.pattern < 2 ^ (u.length - rootDepth t) := by simpa [Nat.div_eq_zero_iff] using hpat
      _ ≤ 2 ^ u.length := Nat.pow_le_pow_right (by omega) (Nat.sub_le _ _)

/-- R145 item 2: a leaf below the root is at depth 1 at least, and a single leaf is given depth 1. -/
theorem length_pos_of_slotRead_genCodes {t : Option HuffmanNode} {k : Nat} {u : CodeWord}
    (h : slotRead (genCodes t) k = some u) : 1 ≤ u.length := by
  cases t with
  | none => simp [genCodes] at h
  | some t =>
    obtain ⟨s, -, hu⟩ := mem_leafCodes_of_slotRead_genCodes h
    cases t with
    | leaf r w => exact (isCodePrefix_of_mem_leafCodes hu).1
    | internal w l r =>
      rcases List.mem_append.1 hu with hu | hu <;> exact (isCodePrefix_of_mem_leafCodes hu).1

theorem length_le_of_slotRead_genCodes {t : HuffmanNode} {k : Nat} {u : CodeWord}
    (h : slotRead (genCodes (some t)) k = some u) : u.length ≤ rootDepth t + merges t := by
  obtain ⟨s, -, hu⟩ := mem_leafCodes_of_slotRead_genCodes h
  exact length_le_of_mem_leafCodes hu

/-! ## The code table of a frequency table (R145) -/

theorem exists_mem_leaves_iff {f : List Nat} {t : HuffmanNode} (h : buildTree f = some t) (s : Nat) :
    (∃ e ∈ leaves t, e.1.toNat = s) ↔ s ∈ presentSymbols f := by
  have hval : ∀ r ∈ presentSymbols f, (BitVec.ofNat 8 r).toNat = r := fun r hr =>
    Nat.mod_eq_of_lt (mem_presentSymbols.1 hr).1
  simp only [(buildTree_some h).2.mem_iff, List.mem_map, exists_exists_and_eq_and]
  constructor
  · rintro ⟨r, hr, rfl⟩
    rwa [hval r hr]
  · exact fun hs => ⟨s, hs, hval s hs⟩

/-- R145 item 1. -/
theorem isSome_slotRead_codesOf (f : List Nat) (s : Nat) : (slotRead (codesOf f) s).isSome ↔ s ∈ presentSymbols f := by
  rw [codesOf]
  cases ht : buildTree f with
  | none =>
    have hnone : presentSymbols f = [] := by
      by_contra h
      obtain ⟨t, ht'⟩ := exists_buildTree h
      exact Option.some_ne_none t (ht'.symm.trans ht)
    simp [genCodes, hnone]
  | some t => simp [isSome_slotRead_walk, exists_mem_leaves_iff ht]

theorem length_le_of_slotRead_codesOf {f : List Nat} {s : Nat} {u : CodeWord} (h : slotRead (codesOf f) s = some u) :
    u.length ≤ 255 := by
  rw [codesOf] at h
  cases ht : buildTree f with
  | none => simp [ht, genCodes] at h
  | some t =>
    rw [ht] at h
    have hlen := length_le_of_slotRead_genCodes h
    have hmerges := merges_buildTree ht
    have hpresent : (presentSymbols f).length ≤ 256 := (List.length_filter_le _ _).trans_eq List.length_range
    cases t with
    | leaf r w =>
      simp only [rootDepth, merges] at hlen
      omega
    | internal w l r =>
      simp only [rootDepth] at hlen
      omega

/-- Settles O57. -/
theorem codeTableHasThePresentSymbols : Obligations.CodeTableHasThePresentSymbols := by
  unfold Obligations.CodeTableHasThePresentSymbols
  intro f s hs
  refine ⟨?_, fun w hw => ⟨length_pos_of_slotRead_genCodes hw, length_le_of_slotRead_codesOf hw,
    pattern_lt_of_slotRead_genCodes hw⟩⟩
  rw [← Option.isSome_iff_exists, isSome_slotRead_codesOf, mem_presentSymbols]
  exact and_iff_right hs

/-- Settles O58: the codes of two leaves part where their paths part. -/
theorem codeTablesArePrefixFree : Obligations.CodeTablesArePrefixFree := by
  unfold Obligations.CodeTablesArePrefixFree
  exact fun f => prefixFree_genCodes (buildTree f)

/-! ## Code strings (R82, R150) -/

@[simp] theorem length_codeBits (w : CodeWord) : (codeBits w).length = w.length := by simp [codeBits]

theorem getElem_codeBits {w : CodeWord} {k : Nat} (h : k < (codeBits w).length) :
    (codeBits w)[k] = w.pattern.testBit (w.length - 1 - k) := by simp [codeBits]

/-- From bit strings to the arithmetic form: the bits agree up to `u`'s length, and beyond it both patterns have none. -/
theorem isCodePrefix_of_codeBits_prefix {u v : CodeWord} (hu : u.pattern < 2 ^ u.length) (hv : v.pattern < 2 ^ v.length)
    (h : codeBits u <+: codeBits v) : IsCodePrefix u v := by
  obtain ⟨hlen, hbits⟩ := List.prefix_iff_getElem.1 h
  simp only [length_codeBits, getElem_codeBits] at hlen hbits
  refine ⟨hlen, Nat.eq_of_testBit_eq fun i => ?_⟩
  rw [Nat.testBit_div_two_pow]
  by_cases hi : i < u.length
  · have hbit := hbits (u.length - 1 - i) (by omega)
    rw [show u.length - 1 - (u.length - 1 - i) = i by omega,
      show v.length - 1 - (u.length - 1 - i) = i + (v.length - u.length) by omega] at hbit
    exact hbit.symm
  · rw [Nat.testBit_lt_two_pow (hu.trans_le (Nat.pow_le_pow_right (by omega) (by omega))),
      Nat.testBit_lt_two_pow (hv.trans_le (Nat.pow_le_pow_right (by omega) (by omega)))]

/-! ## The decoder oracle (R150) -/

theorem nodup_of_slotsWf {α : Type} {m : Slots α} (h : slotsWf m = true) : m.Nodup := by
  induction m with
  | nil => exact .nil
  | cons p m ih =>
    obtain ⟨hlt, hm⟩ := (slotsWf_cons p.1 p.2 m).1 h
    exact List.nodup_cons.2 ⟨fun hp => Nat.lt_irrefl _ (hlt p hp), ih hm⟩

theorem exists_codeStream {c : CodeTable} {text : List Symbol} (h : ∀ s ∈ text, (slotRead c s.toNat).isSome) :
    ∃ w, codeStream c text = some w := by
  induction text with
  | nil => exact ⟨[], rfl⟩
  | cons s text ih =>
    obtain ⟨hs, htext⟩ := List.forall_mem_cons.1 h
    obtain ⟨u, hu⟩ := Option.isSome_iff_exists.1 hs
    obtain ⟨w, hw⟩ := ih htext
    exact ⟨codeBits u ++ w, by simp [codeStream, hu, hw]⟩

theorem codeStream_cons_eq_some {c : CodeTable} {s : Symbol} {text : List Symbol} {w : List Bool}
    (h : codeStream c (s :: text) = some w) :
    ∃ u rest, slotRead c s.toNat = some u ∧ codeStream c text = some rest ∧ w = codeBits u ++ rest := by
  rw [codeStream] at h
  split at h
  · next u rest hu hrest => exact ⟨u, rest, hu, hrest, (Option.some.inj h).symm⟩
  · cases h

section
variable {c : CodeTable} (hwf : slotsWf c = true) (hfree : PrefixFree c)
  (hfit : ∀ s u, slotRead c s = some u → u.pattern < 2 ^ u.length)
include hwf hfree hfit

/-- The uniqueness that R150 takes from R145 item 3: a bit string begins with one code of the table at most. -/
theorem eq_of_codeBits_prefix {a b : Nat × CodeWord} {w : List Bool} (ha : a ∈ c) (hb : b ∈ c)
    (haw : codeBits a.2 <+: w) (hbw : codeBits b.2 <+: w) : a = b := by
  wlog hle : a.2.length ≤ b.2.length generalizing a b
  · exact (this hb ha hbw haw (by omega)).symm
  have hra := slotRead_of_mem hwf ha
  have hrb := slotRead_of_mem hwf hb
  have hpre : IsCodePrefix a.2 b.2 := isCodePrefix_of_codeBits_prefix (hfit _ _ hra) (hfit _ _ hrb)
    (List.prefix_of_prefix_length_le haw hbw (by simpa using hle))
  have hkey : a.1 = b.1 := by
    by_contra hne
    exact prefixFree_iff.1 hfree _ _ _ _ hne hra hrb hpre
  rw [hkey] at hra
  exact Prod.ext hkey (Option.some.inj (hra.symm.trans hrb))

/-- On the stream of a symbol and more the decoder finds the symbol's entry and no other. -/
theorem filter_codeBits_append {s : Nat} {u : CodeWord} (h : slotRead c s = some u) (rest : List Bool) :
    c.filter (fun q => (codeBits q.2).isPrefixOf (codeBits u ++ rest)) = [(s, u)] := by
  rw [← List.perm_singleton, List.perm_ext_iff_of_nodup ((nodup_of_slotsWf hwf).filter _) (List.nodup_singleton _)]
  intro q
  rw [List.mem_filter, List.isPrefixOf_iff_prefix, List.mem_singleton]
  constructor
  · rintro ⟨hq, hpre⟩
    exact eq_of_codeBits_prefix hwf hfree hfit hq (slotRead_mem h) hpre (List.prefix_append _ _)
  · rintro rfl
    exact ⟨slotRead_mem h, List.prefix_append _ _⟩

/-- R150's law, for every table with R145 items 2 and 3 and as many decoding steps as there are bits. -/
theorem decodeBits_codeStream (hpos : ∀ s u, slotRead c s = some u → 1 ≤ u.length) {text : List Symbol}
    {w : List Bool} {k : Nat} (hw : codeStream c text = some w) (hk : w.length ≤ k) : decodeBits c k w = some text := by
  induction text generalizing w k with
  | nil =>
    obtain rfl : [] = w := Option.some.inj hw
    cases k <;> rfl
  | cons s text ih =>
    obtain ⟨u, rest, hu, hrest, rfl⟩ := codeStream_cons_eq_some hw
    have hlen := hpos _ _ hu
    have hfilter := filter_codeBits_append hwf hfree hfit hu rest
    rw [List.length_append, length_codeBits] at hk
    obtain ⟨b, bs, hbits⟩ := List.exists_cons_of_length_pos (l := codeBits u ++ rest) (by simp; omega)
    obtain ⟨k, rfl⟩ : ∃ j, k = j + 1 := ⟨k - 1, by omega⟩
    have hdrop : (b :: bs).drop u.length = rest := by rw [← hbits, List.drop_left' (length_codeBits u)]
    rw [hbits] at hfilter ⊢
    rw [decodeBits_unique hfilter, hdrop, ih hrest (by omega)]
    simp

end

/-- Settles O59: R145 item 3 leaves the decoder no choice. -/
theorem roundTripLaw : Obligations.RoundTripLaw := by
  unfold Obligations.RoundTripLaw
  intro f text htext
  obtain ⟨w, hw⟩ := exists_codeStream (c := codesOf f) fun s hs =>
    (isSome_slotRead_codesOf f s.toNat).2 (mem_presentSymbols.2 ⟨s.isLt, htext s hs⟩)
  exact ⟨w, hw, decodeBits_codeStream (slotsWf_genCodes _) (prefixFree_genCodes _)
    (fun _ _ => pattern_lt_of_slotRead_genCodes) (fun _ _ => length_pos_of_slotRead_genCodes) hw le_rfl⟩

end Sys2Proof.Machine
end

section
/-! SUPPORT. The encode job: EMIT's effect and its faults (R162, R163), the job that cannot fault (R165) and what a
completed one leaves in OUT (R164). -/

namespace Sys2Proof.Machine

/-! ## EMIT -/

/-- EMIT of an enabled work-item whose symbol has both entries. -/
theorem exec_emit_written {s : State} {w : WorkItem} {v : Symbol} {l c : Nat} (hw : s.wi = some w)
    (hst : s.st = .running) (hk : s.jobctl = .enc) (hp : position w ∈ s.pend)
    (hv : slotRead s.mem.inp (position w) = some v) (hl : slotRead s.mem.len v.toNat = some l)
    (hc : slotRead s.mem.code v.toNat = some c) :
    exec .emit s =
      .next (retire { w with sym := some v, len := some l, pat := some c } (writeRecord (position w) c s)) := by
  rw [exec, execEmit, workItemStep_enabled hw hst hk hp, emitBody, hv]
  simp only [hl, hc]

/-- EMIT of an enabled work-item whose input slot holds no value. -/
theorem exec_emit_unwritten {s : State} {w : WorkItem} (hw : s.wi = some w) (hst : s.st = .running)
    (hk : s.jobctl = .enc) (hp : position w ∈ s.pend) (hv : slotRead s.mem.inp (position w) = none) :
    exec .emit s = .next (faultEntry .unwritten w.idx s) := by
  rw [exec, execEmit, workItemStep_enabled hw hst hk hp, emitBody, hv]

/-- EMIT of an enabled work-item whose symbol lacks an entry. -/
theorem exec_emit_nocode {s : State} {w : WorkItem} {v : Symbol} (hw : s.wi = some w) (hst : s.st = .running)
    (hk : s.jobctl = .enc) (hp : position w ∈ s.pend) (hv : slotRead s.mem.inp (position w) = some v)
    (hmissing : slotRead s.mem.len v.toNat = none ∨ slotRead s.mem.code v.toNat = none) :
    exec .emit s = .next (faultEntry .nocode (v.setWidth 32) s) := by
  rw [exec, execEmit, workItemStep_enabled hw hst hk hp, emitBody, hv]
  dsimp only
  split
  · next hl hc => simp [hl, hc] at hmissing
  · rfl

/-- Settles O28. -/
theorem emitFollowsItsRule : Obligations.EmitFollowsItsRule := by
  unfold Obligations.EmitFollowsItsRule
  intro s w hw hst hk hp
  refine ⟨fun v l c hv hl hc => ⟨_, exec_emit_written hw hst hk hp hv hl hc, ?_⟩, fun hv => ?_,
    fun v hv hmissing => ⟨v.setWidth 32, ?_, ?_⟩⟩
  · refine ⟨slotRead_write_same _ _ _, fun k hne => slotRead_write_other _ _ hne, fun i => ?_, rfl⟩
    simp [position]
  · rw [exec_emit_unwritten hw hst hk hp hv]
    exact raisesInJob_faultEntry _ _ _
  · exact BitVec.toNat_setWidth_of_le (by decide)
  · rw [exec_emit_nocode hw hst hk hp hv hmissing]
    exact raisesInJob_faultEntry _ _ _

/-! ## The encode job -/

/-- Settles O49: a pending position is below `N`, so its symbol and both entries are written, and by
`stepWorkItem_running_iff` its step is the one that writes the record; that step leaves ST and FAULT. -/
theorem encodeJobsWithFullTablesDoNotFault : Obligations.EncodeJobsWithFullTablesDoNotFault := by
  unfold Obligations.EncodeJobsWithFullTablesDoNotFault
  intro s i h hst hk hp hfull
  obtain ⟨v, l, c, hv, hl, hc⟩ := hfull i (h.pendingBelowCount i hp)
  have hwrites : WorkItemWrites s.mem i s.jobctl { s.mem with out := slotWrite s.mem.out i c } :=
    hk ▸ .recorded v l c hv hl hc
  obtain ⟨hstep, hrunning⟩ := (stepWorkItem_running_iff h hst hp).2 ⟨_, hwrites, rfl⟩
  exact ⟨_, hstep, hrunning, rfl⟩

/-- With nothing pending every position has stepped. -/
theorem RecordsSoFar.complete {s : State} (h : RecordsSoFar s) (hst : s.st = .running) (hk : s.jobctl = .enc)
    (hp : s.pend = []) : RecordsComplete s := by
  obtain ⟨hwritten, hfree⟩ := h hst hk
  exact ⟨fun i hi => hwritten i hi (by simp [hp]), fun i hi => hfree i (.inl hi)⟩

/-- Settles O46: every reachable state has the running invariant of the encode job, and the completion step keeps the
buffers. -/
theorem encodeJobsWriteEveryRecord : Obligations.EncodeJobsWriteEveryRecord := by
  unfold Obligations.EncodeJobsWriteEveryRecord
  intro s h hst hk hp
  obtain ⟨-, hrecords⟩ := h.jobsSoFar
  have hsealed := outputSealed_completeJob (s := s) (by simp [hk])
  rw [hk] at hsealed
  exact ⟨completeJob s, rfl, hrecords.complete hst hk hp, hsealed⟩

end Sys2Proof.Machine
end

section
/-! SUPPORT. The commands (R181 to R193): a command that is accepted runs its rule in the state `accepted s`, and each
rule is read off its checks in their order. -/

namespace Sys2Proof.Machine

/-! ## The values of a READBACK (R191, R192) -/

theorem length_countRange (m : Slots Nat) (base count : Word) : (countRange m base count).length = count.toNat := by
  simp [countRange]

theorem getElem?_countRange (m : Slots Nat) (base : Word) {count : Word} {k : Nat} (hk : k < count.toNat) :
    (countRange m base count)[k]? = some (countRead m (base.toNat + k)) := by
  simp [countRange, hk]

theorem firstUnwritten_eq_none_iff {m : Slots Nat} {base count : Word} :
    firstUnwritten m base count = none ↔ ∀ k, k < count.toNat → slotRead m (base.toNat + k) ≠ none := by
  simp [firstUnwritten, List.find?_eq_none, Option.ne_none_iff_isSome]

/-- The least unwritten slot is the one that no unwritten slot precedes. -/
theorem firstUnwritten_eq_some {m : Slots Nat} {base count : Word} {k : Nat} (hk : k < count.toNat)
    (hnone : slotRead m (base.toNat + k) = none) (hleast : ∀ j, j < k → slotRead m (base.toNat + j) ≠ none) :
    firstUnwritten m base count = some k := by
  rw [firstUnwritten, List.find?_range_eq_some]
  exact ⟨by simp [hnone], List.mem_range.2 hk, fun j hj => by simpa [Option.isSome_iff_ne_none] using hleast j hj⟩

/-- The written slots of a range with no unwritten one are all of them. -/
theorem slotRange_eq_map {m : Slots Nat} {base count : Word} (h : firstUnwritten m base count = none) :
    slotRange m base count = (List.range count.toNat).map (fun k => (slotRead m (base.toNat + k)).getD 0) := by
  rw [firstUnwritten_eq_none_iff] at h
  rw [slotRange, ← List.filterMap_eq_map]
  refine List.filterMap_congr fun k hk => ?_
  obtain ⟨v, hv⟩ := Option.ne_none_iff_exists'.1 (h k (List.mem_range.1 hk))
  simp [hv]

theorem length_slotRange {m : Slots Nat} {base count : Word} (h : firstUnwritten m base count = none) :
    (slotRange m base count).length = count.toNat := by
  simp [slotRange_eq_map h]

theorem getElem?_slotRange {m : Slots Nat} {base count : Word} {k : Nat} (h : firstUnwritten m base count = none)
    (hk : k < count.toNat) : (slotRange m base count)[k]? = slotRead m (base.toNat + k) := by
  obtain ⟨v, hv⟩ := Option.ne_none_iff_exists'.1 (firstUnwritten_eq_none_iff.1 h k hk)
  simp [slotRange_eq_map h, hk, hv]

/-! ## Acceptance (R180 to R183) -/

/-- Settles O13: a FAULTED block answers before it looks at the command. -/
theorem faultedBlockReportsTheRecordedFault : Obligations.FaultedBlockReportsTheRecordedFault := by
  unfold Obligations.FaultedBlockReportsTheRecordedFault
  refine fun s hst => ⟨fun i hc hw => ?_, fun w0 => accept_faulted _ hst⟩
  obtain ⟨rule, hrule⟩ := exec_command_is_accept i s.cfg hc hw
  exact (hrule s rfl).trans (accept_faulted rule hst)

/-- Settles O12: the job's own steps and the host's leave the hold alone, and no other step is possible. -/
theorem commandsAreHeldWhileAJobRuns : Obligations.CommandsAreHeldWhileAJobRuns := by
  unfold Obligations.CommandsAreHeldWhileAJobRuns
  refine ⟨fun i s hc hw hst => ?_, fun s t c hst hh hstep => ?_⟩
  · obtain ⟨rule, hrule⟩ := exec_command_is_accept i s.cfg hc hw
    exact (hrule s rfl).trans (accept_running rule hst)
  · cases step_outcome hstep with
    | incremented => simp [hst, hh]
    | emitted => simp [hst, hh]
    | jobFaulted => simp [hh]
    | completed env _ hp => simp [hp, hh]
    | rejected hf | unavailable hf => cases hst.symm.trans hf
    | raised x info u ha | executed c i t ha => cases hst.symm.trans ha.1
    | hostMoved env hnone => simp [hh] at hnone

/-- The block is not FAULTED after a command's effect. -/
theorem Effect.st_ne_faulted {a t : State} {i : Instr} (h : Effect a i t) (ha : a.st = .idle) : t.st ≠ .faulted := by
  rcases h.launches_or_keeps with ⟨hst, -⟩ | ⟨hst, -⟩ <;> simp [hst, ha]

/-- Everything a command that is not held can do: it answers `ERR` and the block is FAULTED, or it has its effect. -/
theorem exec_command_cases {s : State} {i : Instr} (hc : isCommand i = true) (hw : i.wf s.cfg = true)
    (hst : s.st ≠ .running) :
    (∃ x info u, exec i s = .next (respond (.err x info) u) ∧ u.st = .faulted) ∨
    (s.st = .idle ∧ ∃ t, exec i s = .next t ∧ Effect (accepted s) i t) := by
  obtain ⟨rule, hrule⟩ := exec_command_is_accept i s.cfg hc hw
  rcases accept_cases rule s with ⟨hr, -⟩ | ⟨hf, he⟩ | ⟨ha, -⟩ | ⟨-, -, -, he⟩
  · exact absurd hr hst
  · exact .inl ⟨_, _, s, (hrule s rfl).trans he, hf⟩
  · rcases exec_accepts i hc hw ha with ⟨x, info, u, -, -, he⟩ | ⟨t, ht, he⟩
    · exact .inl ⟨x, info, _, he, by simp⟩
    · exact .inr ⟨ha.1, t, he, ht⟩
  · exact .inl ⟨_, _, _, (hrule s rfl).trans he, by simp⟩

/-- Settles O15: a command that raises nothing has its effect, whose response has the form its kind has. -/
theorem everyCommandEndsWithOneResponse : Obligations.EveryCommandEndsWithOneResponse := by
  unfold Obligations.EveryCommandEndsWithOneResponse
  intro i s hc hw hst
  rcases exec_command_cases hc hw hst with ⟨x, info, u, he, hu⟩ | ⟨hidle, t, he, ht⟩
  · exact ⟨_, _, he, rfl, rfl, fun _ => ⟨x, info, rfl⟩, fun hne => absurd hu hne⟩
  · have hne := ht.st_ne_faulted (by simpa using hidle)
    cases ht with
    | loadIn | loadCode | loadLen | release => exact ⟨_, _, he, rfl, rfl, fun hf => absurd hf hne, fun _ => rfl⟩
    | submitHist | submitEnc => exact ⟨_, _, he, rfl, rfl, fun hf => absurd hf hne, fun _ => rfl⟩
    | readbackHist =>
      exact ⟨_, _, he, rfl, rfl, fun hf => absurd hf hne, fun _ => ⟨_, rfl, length_countRange _ _ _⟩⟩
    | readbackOut _ _ _ _ hn =>
      exact ⟨_, _, he, rfl, rfl, fun hf => absurd hf hne, fun _ => ⟨_, rfl, length_slotRange hn⟩⟩

/-! ## LOAD (R185 to R187) -/

/-- Writing a payload slot after slot writes exactly its range. -/
theorem rangeWritten_slotWriteList {α : Type} (m : Slots α) (base : Nat) (payload : List α) :
    RangeWritten m (slotWriteList m base payload) base payload := by
  refine ⟨fun k v hk => ?_, fun j hj => ?_⟩
  · obtain ⟨hlt, -⟩ := List.getElem?_eq_some_iff.1 hk
    rw [slotRead_writeList, if_pos (by omega), Nat.add_sub_cancel_left, hk]
  · rw [slotRead_writeList, if_neg (by omega)]

theorem rangeExceeds_iff {base count : Word} {size : Nat} :
    rangeExceeds base count size = true ↔ size < base.toNat + count.toNat := decide_eq_true_iff

/-- The three checks of a LOAD in their order, then its effect; `put` is the model's update of the one buffer. -/
theorem loadRule_finishLoad {α : Type} {w0 : Word} {isSealed : Bool} {size : Nat} {buf : State → Slots α}
    {put : Slots α → State → State} {base count : Word} {payload : List α} {a : State} {written : Memory}
    (hput : { a with mem := written } = put (slotWriteList (buf a) base.toNat payload) a) :
    LoadRule w0 isSealed size buf put base count payload a
      (finishLoad w0 (loadFault isSealed size (buf a) base count) written a) := by
  refine ⟨fun hs hr hn => ⟨_, rangeWritten_slotWriteList _ _ _, ?_⟩, fun hs => ?_, fun hs hr => ?_, fun hs hr hn => ?_⟩
  · rw [(loadFault_eq_none_iff _ _ _ _ _).2 ⟨hs, hr, hn⟩, ← hput]
    rfl
  · rw [loadFault, if_pos hs]
    exact raisesInCommand_raise _ _ _
  · rw [loadFault, if_neg (by simp [hs]), if_pos (rangeExceeds_iff.2 hr)]
    exact raisesInCommand_raise _ _ _
  · rw [loadFault, if_neg (by simp [hs]), if_neg (mt rangeExceeds_iff.1 (Nat.not_lt.2 hr)),
      if_pos ((slotAnyWritten_iff _ _ _).2 hn)]
    exact raisesInCommand_raise _ _ _

theorem ifExpressible_accepts {i : Instr} {rule : State → Result} {s : State} (hw : i.wf s.cfg = true)
    (ha : Accepts s) : ifExpressible i (accept rule) s = rule (accepted s) := by
  rw [ifExpressible, if_pos hw, accept_accepts rule ha]

/-- Settles O16. -/
theorem loadInFollowsItsRule : Obligations.LoadInFollowsItsRule := by
  unfold Obligations.LoadInFollowsItsRule
  refine fun base count payload s hl ha => ⟨rfl, ?_⟩
  have hw : (Instr.loadIn base count payload).wf s.cfg = true := by simpa [Instr.wf] using hl
  rw [exec, execLoadIn, ifExpressible_accepts hw ha, loadInRule, accepted_seals, accepted_cfg]
  exact loadRule_finishLoad rfl

/-- Settles O17. -/
theorem loadCodeFollowsItsRule : Obligations.LoadCodeFollowsItsRule := by
  unfold Obligations.LoadCodeFollowsItsRule
  refine fun base count payload s hl hv ha => ⟨rfl, ?_⟩
  have hw : (Instr.loadCode base count payload).wf s.cfg = true := (payloadFits_iff _ _ _).2 ⟨hl, hv⟩
  rw [exec, execLoadCode, ifExpressible_accepts hw ha, loadCodeRule, accepted_seals]
  exact loadRule_finishLoad rfl

/-- Settles O18. -/
theorem loadLenFollowsItsRule : Obligations.LoadLenFollowsItsRule := by
  unfold Obligations.LoadLenFollowsItsRule
  refine fun base count payload s hl hv ha => ⟨rfl, ?_⟩
  have hw : (Instr.loadLen base count payload).wf s.cfg = true := (payloadFits_iff _ _ _).2 ⟨hl, hv⟩
  rw [exec, execLoadLen, ifExpressible_accepts hw ha, loadLenRule, accepted_seals]
  exact loadRule_finishLoad rfl

/-! ## SUBMIT (R188, R189) -/

section
variable {kind : JobKind} {w0 n : Word} {a : State}

theorem submit_protocol (hs : outputSealed kind a.seals = true) :
    RaisesInCommand .protocol w0 a (submit kind w0 n a) := by
  rw [submit, if_pos hs]
  exact raisesInCommand_raise _ _ _

theorem submit_range (hs : outputSealed kind a.seals = false) (hn : a.cfg.cap < n.toNat) :
    RaisesInCommand .range w0 a (submit kind w0 n a) := by
  rw [submit, if_neg (by simp [hs]), if_pos (by simpa [countExceeds] using hn)]
  exact raisesInCommand_raise _ _ _

theorem submit_jobfail (hs : outputSealed kind a.seals = false) (hn : n.toNat ≤ a.cfg.cap) (hd : nextDraw a = false) :
    RaisesInCommand .jobfail ((kindCode kind).setWidth 32) (dropDraw a) (submit kind w0 n a) := by
  rw [submit, if_neg (by simp [hs]), if_neg (by simpa [countExceeds] using hn), if_neg (by simp [hd])]
  exact raisesInCommand_raise _ _ _

end

/-- A launch: the fields that acquisition and the draws leave alone are read in `s`. -/
theorem submit_launches {kind : JobKind} {w0 n : Word} {s : State} (hs : outputSealed kind s.seals = false)
    (hn : n.toNat ≤ s.cfg.cap) (hd : nextDraw (accepted s) = true) :
    ∃ t, submit kind w0 n (accepted s) = .next t ∧ (∀ i, i ∈ t.pend ↔ i < n.toNat) ∧ t.pend.Pairwise (· < ·) ∧
      t = { dropDraw (accepted s) with
        seals := sealInputs kind s.seals
        jobctl := kind
        jobn := n
        jobseq := s.jobseq + 1
        pend := t.pend
        st := .running
        held := none
        response := some (.okHandle (s.jobseq + 1)) } := by
  refine ⟨launch kind n (dropDraw (accepted s)), ?_, fun i => by simp, List.pairwise_lt_range,
    by simp [launch, respond]⟩
  rw [submit, if_neg (by simpa using hs), if_neg (by simpa [countExceeds] using hn), if_pos hd]

/-- Settles O20. -/
theorem submitHistFollowsItsRule : Obligations.SubmitHistFollowsItsRule := by
  unfold Obligations.SubmitHistFollowsItsRule
  intro n s ha
  rw [exec, execSubmitHist, accept_accepts _ ha]
  exact ⟨rfl, fun hs hn hd => submit_launches (kind := .hist) hs hn hd,
    fun hs => submit_protocol (by simpa [outputSealed] using hs),
    fun hs hn => submit_range (by simpa [outputSealed] using hs) (by simpa using hn),
    fun hs hn hd => submit_jobfail (kind := .hist) (by simpa [outputSealed] using hs) (by simpa using hn) hd⟩

/-- Settles O21. -/
theorem submitEncFollowsItsRule : Obligations.SubmitEncFollowsItsRule := by
  unfold Obligations.SubmitEncFollowsItsRule
  intro n s ha
  rw [exec, execSubmitEnc, accept_accepts _ ha]
  exact ⟨rfl, fun hs hn hd => submit_launches (kind := .enc) hs hn hd,
    fun hs => submit_protocol (by simpa [outputSealed] using hs),
    fun hs hn => submit_range (by simpa [outputSealed] using hs) (by simpa using hn),
    fun hs hn hd => submit_jobfail (kind := .enc) (by simpa [outputSealed] using hs) (by simpa using hn) hd⟩

/-! ## READBACK (R191, R192) -/

/-- Settles O22. -/
theorem readbackHistFollowsItsRule : Obligations.ReadbackHistFollowsItsRule := by
  unfold Obligations.ReadbackHistFollowsItsRule
  intro base count s ha
  rw [exec, execReadbackHist, accept_accepts _ ha, readbackHistRule, accepted_seals, accepted_mem, alpha]
  refine ⟨rfl, fun hs hr => ⟨countRange s.mem.hist base count, length_countRange _ _ _,
    fun k hk => getElem?_countRange _ _ hk, ?_⟩, fun hs => ?_, fun hs hr => ?_⟩
  · rw [if_pos hs, if_neg (mt rangeExceeds_iff.1 (Nat.not_lt.2 hr))]
    rfl
  · rw [if_neg (by simp [hs])]
    exact raisesInCommand_raise _ _ _
  · rw [if_pos hs, if_pos (rangeExceeds_iff.2 hr)]
    exact raisesInCommand_raise _ _ _

/-- Settles O23: the least unwritten slot is within `CAP`, so its index fits the 32 bits of INFO. -/
theorem readbackOutFollowsItsRule : Obligations.ReadbackOutFollowsItsRule := by
  unfold Obligations.ReadbackOutFollowsItsRule
  intro base count s hcap ha
  rw [exec, execReadbackOut, accept_accepts _ ha, readbackOutRule, accepted_seals, accepted_mem, accepted_cfg]
  refine ⟨rfl, fun hs hr hn => ⟨slotRange s.mem.out base count, length_slotRange (firstUnwritten_eq_none_iff.2 hn),
    fun k hk => getElem?_slotRange (firstUnwritten_eq_none_iff.2 hn) hk, ?_⟩, fun hs => ?_, fun hs hr => ?_,
    fun k hs hr hk hnone hleast => ⟨base + BitVec.ofNat 32 k, ?_, ?_⟩⟩
  · rw [if_pos hs, if_neg (mt rangeExceeds_iff.1 (Nat.not_lt.2 hr))]
    simp [firstUnwritten_eq_none_iff.2 hn, respond]
  · rw [if_neg (by simp [hs])]
    exact raisesInCommand_raise _ _ _
  · rw [if_pos hs, if_pos (rangeExceeds_iff.2 hr)]
    exact raisesInCommand_raise _ _ _
  · rw [BitVec.toNat_add, BitVec.toNat_ofNat, Nat.mod_eq_of_lt (a := k) (by omega), Nat.mod_eq_of_lt (by omega)]
  · rw [if_pos hs, if_neg (mt rangeExceeds_iff.1 (Nat.not_lt.2 hr)),
      firstUnwritten_eq_some hk hnone hleast]
    exact raisesInCommand_raise _ _ _

/-! ## RELEASE (R193) -/

/-- Settles O24. -/
theorem releaseFollowsItsRule : Obligations.ReleaseFollowsItsRule := by
  unfold Obligations.ReleaseFollowsItsRule
  refine ⟨rfl, fun s ha => ⟨respond .ok (releaseBuffers (accepted s)), ?_, fun k => ⟨rfl, rfl, rfl, rfl, rfl⟩, rfl⟩⟩
  rw [exec, execRelease, accept_accepts _ ha]

end Sys2Proof.Machine
end

section
/-! SUPPORT. The agents' steps (R92, R180, R190, R194): which are enabled, the completion step, the step that is `exec`
of the decoded operation, and what a step of the host can change. -/

namespace Sys2Proof.Machine

variable {s : State}

/-! ## Enabled steps (R182, R190, R194, R225, R237) -/

/-- The steps of the running job, where a job runs; else the acceptance of the held command; and the host's step. -/
theorem mem_enabledActions_iff {s : State} {a : Action} :
    a ∈ enabledActions s ↔
      (s.st = .running ∧ a ∈ jobActions s) ∨ (s.st ≠ .running ∧ s.held ≠ none ∧ a = .accept) ∨
      (orchReady s = true ∧ a = .host) := by
  rw [enabledActions, List.mem_append, List.mem_ite_nil_right, List.mem_singleton, ← or_assoc]
  refine or_congr_left ?_
  by_cases hst : s.st = .running <;> simp [hst, Option.isSome_iff_ne_none]

theorem workItemOperation_isSome_iff (k : JobKind) : (workItemOperation k).isSome = true ↔ k = .hist ∨ k = .enc := by
  cases k <;> decide

theorem mem_jobActions_iff {s : State} {a : Action} :
    a ∈ jobActions s ↔
      ((s.jobctl = .hist ∨ s.jobctl = .enc) ∧ ∃ i ∈ s.pend, .workItem i = a) ∨ (s.pend = [] ∧ a = .complete) ∨
      a = .jobFail := by
  rw [← workItemOperation_isSome_iff, jobActions, List.mem_append, List.mem_append, List.mem_ite_nil_right,
    List.mem_ite_nil_right, List.mem_map, List.isEmpty_iff, List.mem_singleton, List.mem_singleton, or_assoc]

theorem orchReady_iff (s : State) :
    orchReady s = true ↔ s.held = none ∧ (s.response ≠ none ∨ s.orch.script ≠ []) := by
  simp [orchReady, Option.isSome_iff_ne_none]

/-- Settles O8: each kind of step has its own place in the list of enabled steps. -/
theorem enabledStepsExactly : Obligations.EnabledStepsExactly := by
  unfold Obligations.EnabledStepsExactly
  intro s
  simp [mem_enabledActions_iff, mem_jobActions_iff, orchReady_iff]

/-- Settles O31: after the completion step no job runs, so a held command is accepted before the host moves again. -/
theorem completionStepFollowsItsRule : Obligations.CompletionStepFollowsItsRule := by
  unfold Obligations.CompletionStepFollowsItsRule
  intro s
  obtain ⟨-, henabled, -⟩ := enabledStepsExactly s
  refine ⟨henabled, fun hk => ?_, fun hk => ?_, fun t hh ht => ?_⟩
  · rw [act, completeJob, hk, sealOutput]
  · rw [act, completeJob, hk, sealOutput]
  · obtain rfl : completeJob s = t := by simpa [act] using ht
    obtain ⟨c, hc⟩ := Option.ne_none_iff_exists'.1 hh
    exact enabledActions_held (by simpa using hc) (by simp)

/-! ## The step of the decoded operation (R92, R180) -/

/-- The value of `JOBCTL.KIND` decodes to the operation that the job's work-items run. -/
theorem decodeKind_kindCode {k : JobKind} {op : Instr} (h : workItemOperation k = some op) :
    decodeKind (kindCode k) = .instr op := by
  cases k with
  | none => cases h
  | hist | enc =>
    cases h
    rfl

/-- Settles O7: with a command held and no job running its acceptance is the one enabled step. -/
theorem stepRunsTheDecodedInstruction : Obligations.StepRunsTheDecodedInstruction := by
  unfold Obligations.StepRunsTheDecodedInstruction
  refine ⟨fun s c i hw hh hst hd => ?_, fun s i op hop => ⟨?_, ?_⟩⟩
  · rw [step_of_enabledActions hw (enabledActions_held hh hst)]
    simp [chooseAction, pickAction, act, hh, acceptCommand, hd]
  · exact decodeKind_kindCode hop
  · simp only [act, stepWorkItem, hop]
    rfl

/-! ## The host (R194, R196) -/

@[simp] theorem bindResponse_script (b : Binding) (r : Response) (o : Orchestrator) :
    (bindResponse b r o).script = o.script := by unfold bindResponse; split <;> rfl
@[simp] theorem bindResponse_stop (b : Binding) (r : Response) (o : Orchestrator) :
    (bindResponse b r o).stop = o.stop := by unfold bindResponse; split <;> rfl
@[simp] theorem bindResponse_log (b : Binding) (r : Response) (o : Orchestrator) :
    (bindResponse b r o).log = o.log := by unfold bindResponse; split <;> rfl
@[simp] theorem bindResponse_abortOnErr (b : Binding) (r : Response) (o : Orchestrator) :
    (bindResponse b r o).abortOnErr = o.abortOnErr := by unfold bindResponse; split <;> rfl

theorem bindResponse_err (b : Binding) (x : FaultCause) (info : Word) (o : Orchestrator) :
    bindResponse b (.err x info) o = o := by cases b <;> rfl

/-- A response changes nothing but the variable it is bound to, unless the host aborts (R194). -/
theorem abortOn_cases (r : Response) (o : Orchestrator) :
    abortOn r o = o ∨
    ∃ x info, r = .err x info ∧ abortOn r o = { o with script := [], stop := some (.error x info) } := by
  cases r with
  | ok | okHandle | okList => exact .inl rfl
  | err x info =>
    rw [abortOn]
    split
    · exact .inr ⟨x, info, rfl, rfl⟩
    · exact .inl rfl

@[simp] theorem abortOn_log (r : Response) (o : Orchestrator) : (abortOn r o).log = o.log := by
  rcases abortOn_cases r o with h | ⟨x, info, -, h⟩ <;> rw [h]

/-- A host that aborts drops its script at `ERR` (R194, log entry 13). -/
theorem abortOn_err {o : Orchestrator} (h : o.abortOnErr = true) (x : FaultCause) (info : Word) :
    abortOn (.err x info) o = { o with script := [], stop := some (.error x info) } := by
  rw [abortOn, if_pos h]

theorem orchStep_of_response {r : Response} (h : s.response = some r) : orchStep s = takeResponse r s := by
  rw [orchStep, h]

theorem orchStep_of_script {op : OrchOp} {rest : List OrchOp} (hr : s.response = none)
    (hs : s.orch.script = op :: rest) : orchStep s = orchAct op rest s := by
  rw [orchStep, hr, hs]

/-- The host's step holds the command it issues and no other, and changes nothing else of the block. -/
theorem orchAct_held_cases (op : OrchOp) (rest : List OrchOp) (s : State) :
    (orchAct op rest s).held = s.held ∨ ∃ c b, op = .issue c b ∧ (orchAct op rest s).held = some c := by
  cases op with
  | issue c b => exact .inr ⟨c, b, rfl, rfl⟩
  | _ => exact .inl rfl

theorem orchStep_held_cases (s : State) :
    (orchStep s).held = s.held ∨
    ∃ c b rest, s.response = none ∧ s.orch.script = .issue c b :: rest ∧ (orchStep s).held = some c := by
  cases hr : s.response with
  | some r => exact .inl (by rw [orchStep_of_response hr, takeResponse_held])
  | none =>
    cases hs : s.orch.script with
    | nil => exact .inl (by simp [orchStep, hr, hs])
    | cons op rest =>
      rw [orchStep_of_script hr hs]
      rcases orchAct_held_cases op rest s with h | ⟨c, b, rfl, h⟩
      · exact .inl h
      · exact .inr ⟨c, b, rest, rfl, rfl, h⟩

/-- Settles O50: a step of the host takes the response where there is one, and otherwise one action of the script, of
which only the issue of a command touches the block. -/
theorem hostWaitsForEachResponse : Obligations.HostWaitsForEachResponse := by
  unfold Obligations.HostWaitsForEachResponse
  refine ⟨fun s c hh => ?_, fun s r hr => ?_, fun s x info hr habort => ?_, fun s => ?_⟩
  · simp [mem_enabledActions_iff, mem_jobActions_iff, orchReady_iff, hh]
  · rw [orchStep_of_response hr]
    exact ⟨rfl, rfl, by simp [takeResponse]⟩
  · rw [orchStep_of_response hr, takeResponse, abortOn_err (by simpa using habort)]
    exact ⟨rfl, rfl⟩
  · have hheld := orchStep_held_cases s
    obtain ⟨orch, held, ho⟩ := orchStep_eq s
    rw [ho] at hheld ⊢
    exact ⟨rfl, rfl, rfl, rfl, rfl, rfl, rfl, rfl, rfl, rfl, rfl, rfl, rfl, hheld⟩

theorem tableTooLong_iff {cfg : Config} {c : CodeTable} :
    tableTooLong cfg c = true ↔ ∃ p ∈ c, cfg.codeW < p.2.length := by
  simp [tableTooLong]

/-- Settles O51: step 0 leaves the refusal alone in the script, step 6 leaves RELEASE and the refusal. -/
theorem hostRefusesWhatDoesNotFit : Obligations.HostRefusesWhatDoesNotFit := by
  unfold Obligations.HostRefusesWhatDoesNotFit
  refine ⟨fun s text rest hr hs hlong => ?_, fun s rest hr hs => ?_⟩
  · have hfirst : orchStep s = { s with orch := { s.orch with script := [.refuse .inputTooLong] } } := by
      rw [orchStep_of_script hr hs, orchAct, if_pos hlong]
    have hsecond : orchStep (orchStep s) = orchAct (.refuse .inputTooLong) [] (orchStep s) :=
      orchStep_of_script (by rw [hfirst]; exact hr) (by rw [hfirst])
    rw [hsecond, hfirst]
    exact ⟨rfl, rfl, rfl, rfl⟩
  · rw [orchStep_of_script hr hs, orchAct]
    refine ⟨fun hp => if_pos (tableTooLong_iff.2 hp), fun hp => if_neg fun hlong => ?_⟩
    obtain ⟨p, hmem, hlt⟩ := tableTooLong_iff.1 hlong
    exact absurd (hp p hmem) (Nat.not_le.2 hlt)

end Sys2Proof.Machine
end

section
/-! SUPPORT. A run of PIPELINE (R194, R196, R197). The host and the block move in turns, so the proof follows the run by
the state with the outstanding command back in the host's script, or its response heard (`view`): there a step of the
machine is one action of the host, one executed command or one step of the job. -/

namespace Sys2Proof.Machine

variable {s t : State}

/-! ## What a step keeps of FAULT and of the host -/

/-- A command's effect takes the command off the hold, answers it, and leaves the host to hear the response. -/
theorem Effect.answers {a : State} {i : Instr} (h : Effect a i t) :
    t.held = none ∧ t.orch = a.orch ∧ ∃ r, t.response = some r := by
  cases h <;> simp

/-- The fault that is recorded first is never overwritten or cleared (R33). -/
theorem step_keeps_recorded_fault (h : step s = .next t) (hc : s.cause ≠ .none) :
    t.cause = s.cause ∧ t.info = s.info := by
  cases step_outcome h with
  | incremented | emitted | completed | rejected => simp
  | jobFaulted | unavailable => simp [hc]
  | raised x info u ha hh hx hu =>
    obtain ⟨env, rfl⟩ := raised_state_eq hu
    simp [hc]
  | executed c i t ha hh hd he =>
    obtain ⟨-, -, hcause, hinfo⟩ := he.frame
    simpa using And.intro hcause hinfo
  | hostMoved env =>
    obtain ⟨orch, held, ho⟩ := orchStep_eq { s with env := env }
    simp [ho]

/-! ## The host's variables between its actions -/

/-- A host without the two fields that only its next response reads or writes. -/
def withoutLog (o : Orchestrator) : Orchestrator := { o with bind := .discard, log := [] }

/-- The host after it has heard a response (R94, R194). -/
def hear (b : Binding) (r : Response) (o : Orchestrator) : Orchestrator := abortOn r (bindResponse b r o)

theorem withoutLog_hear (b : Binding) (r : Response) (o : Orchestrator) :
    withoutLog (hear b r o) = hear b r (withoutLog o) := by
  cases r with
  | ok | okHandle | okList => cases b <;> rfl
  | err x info =>
    simp only [hear, bindResponse_err, abortOn, withoutLog]
    split <;> rfl

/-- The host before it issued its outstanding command, or after it has heard the response that is on its way. -/
def outlook (s : State) : Orchestrator :=
  match s.held, s.response with
  | some c, _ => withoutLog { s.orch with script := .issue c s.orch.bind :: s.orch.script }
  | none, some r => hear s.orch.bind r (withoutLog s.orch)
  | none, none => withoutLog s.orch

theorem outlook_of_held {c : Command} (h : s.held = some c) :
    outlook s = withoutLog { s.orch with script := .issue c s.orch.bind :: s.orch.script } := by
  simp [outlook, h]

theorem outlook_of_response {r : Response} (hh : s.held = none) (hr : s.response = some r) :
    outlook s = hear s.orch.bind r (withoutLog s.orch) := by
  simp [outlook, hh, hr]

theorem outlook_of_free (hh : s.held = none) (hr : s.response = none) : outlook s = withoutLog s.orch := by
  simp [outlook, hh, hr]

theorem outlook_congr (hh : t.held = s.held) (hr : t.response = s.response) (ho : t.orch = s.orch) :
    outlook t = outlook s := by
  simp [outlook, hh, hr, ho]

/-- The machine with the host between two of its actions; the draws and the schedule are left out. -/
def view (s : State) : State :=
  { s with held := none, response := none, orch := outlook s, env := { draws := [], choices := [], fresh := 0 } }

@[simp] theorem view_mem (s : State) : (view s).mem = s.mem := rfl
@[simp] theorem view_jobseq (s : State) : (view s).jobseq = s.jobseq := rfl
@[simp] theorem view_st (s : State) : (view s).st = s.st := rfl
@[simp] theorem view_session (s : State) : (view s).session = s.session := rfl
@[simp] theorem view_orch (s : State) : (view s).orch = outlook s := rfl

/-- Issuing a command and taking a response are no move in the view; every other step of the host is one there. -/
theorem view_orchStep (hh : s.held = none) :
    view (orchStep s) = view s ∨
    ∃ op rest, (∀ c b, op ≠ .issue c b) ∧ (view s).orch.script = op :: rest ∧
      view (orchStep s) = orchAct op rest (view s) := by
  cases hr : s.response with
  | some r =>
    have hstep := orchStep_of_response hr
    have hout : outlook (takeResponse r s) = outlook s := by
      rw [outlook_of_free (by simpa using hh) (by simp), outlook_of_response hh hr]
      exact withoutLog_hear _ _ _
    exact .inl (by rw [hstep, view, hout]; rfl)
  | none =>
    have hfree := outlook_of_free hh hr
    cases hs : s.orch.script with
    | nil => exact .inl (by simp [orchStep, hr, hs])
    | cons op rest =>
      have hstep := orchStep_of_script hr hs
      by_cases hissue : ∃ c b, op = .issue c b
      · obtain ⟨c, b, rfl⟩ := hissue
        have hout : outlook (orchAct (.issue c b) rest s) = outlook s := by
          rw [outlook_of_held rfl, hfree]
          simp [orchAct, withoutLog, ← hs]
        exact .inl (by rw [hstep, view, hout]; rfl)
      · push Not at hissue
        refine .inr ⟨op, rest, hissue, by simp [hfree, withoutLog, hs], ?_⟩
        rw [hstep]
        cases op with
        | issue c b => exact absurd rfl (hissue c b)
        | _ => simp [view, outlook, orchAct, withoutLog, hh, hr]

/-- The execution of a command takes it off the script and lets the host hear its response. -/
theorem outlook_of_effect {c : Command} {i : Instr} (hh : s.held = some c) (he : Effect (accepted s) i t) :
    ∃ b rest r, (view s).orch.script = .issue c b :: rest ∧ t.response = some r ∧
      outlook t = hear b r { outlook s with script := rest } := by
  obtain ⟨hheld, horch, r, hr⟩ := he.answers
  refine ⟨s.orch.bind, s.orch.script, r, by simp [outlook_of_held hh, withoutLog], hr, ?_⟩
  rw [outlook_of_response hheld hr, outlook_of_held hh, horch, accepted_orch]
  rfl

/-- What a command of the encoder decodes to where its payload is expressible. -/
theorem attachPayload_of_decodeCommand {cfg : Config} {i : Instr} {n : CommandName} {base count : Word}
    {payload : List Nat} (ho : checkOperands n base count = none)
    (hd : decodeCommand cfg (commandOf n base count payload) = .instr i) : attachPayload n base count payload = i := by
  rw [decodeCommand, decodeHeader_commandOf n base count payload ho] at hd
  dsimp only at hd
  split at hd
  · simpa [commandOf] using hd
  · cases hd

/-- The held command is the one that the host issues next in the view. -/
theorem command_of_view {c : Command} {i : Instr} {n : CommandName} {base count : Word} {payload : List Nat}
    {b : Binding} {rest : List OrchOp} (hh : s.held = some c) (hd : decodeCommand s.cfg c = .instr i) (he : Effect (accepted s) i t)
    (ho : checkOperands n base count = none)
    (hscript : (view s).orch.script = issueOp n base count payload b :: rest) :
    Effect (accepted s) (attachPayload n base count payload) t ∧
      ∃ r, t.response = some r ∧ (view t).orch = hear b r { (view s).orch with script := rest } := by
  obtain ⟨b', rest', r, hs, hr, hout⟩ := outlook_of_effect hh he
  obtain ⟨⟨rfl, rfl⟩, rfl⟩ : (c = commandOf n base count payload ∧ b' = b) ∧ rest' = rest := by
    simpa [issueOp] using hs.symm.trans hscript
  exact ⟨attachPayload_of_decodeCommand ho hd ▸ he, r, hr, hout⟩

/-! ## Scripts that stop early (R194, R146, R196) -/

/-- The host has stopped, or a refusal stands in its script. -/
def StopsEarly (o : Orchestrator) : Prop := o.stop ≠ none ∨ ∃ why, OrchOp.refuse why ∈ o.script

theorem StopsEarly.hear {b : Binding} {r : Response} {o : Orchestrator} (h : StopsEarly o) :
    StopsEarly (hear b r o) := by
  rw [Machine.hear]
  rcases abortOn_cases r (bindResponse b r o) with hr | ⟨x, info, -, hr⟩ <;> rw [hr]
  · simpa [StopsEarly] using h
  · exact .inl (by simp)

/-- An action before a refusal leaves that refusal in the script or puts another in its place. -/
theorem StopsEarly.orchAct {v : State} {op : OrchOp} {rest : List OrchOp} (h : StopsEarly v.orch)
    (hs : v.orch.script = op :: rest) : StopsEarly (orchAct op rest v).orch := by
  rcases h with hstop | ⟨why, hwhy⟩
  · exact .inl (by cases op <;> simp [Machine.orchAct, hstop])
  · rcases List.mem_cons.1 (hs ▸ hwhy) with rfl | hrest
    · exact .inl (by simp [Machine.orchAct])
    · cases op with
      | issue | build | gen => exact .inr ⟨why, hrest⟩
      | checkTable =>
        simp only [StopsEarly, Machine.orchAct]
        split
        · exact .inr ⟨.codeTooLong, by simp [codeTooLongOps]⟩
        · exact .inr ⟨why, hrest⟩
      | loadTable => exact .inr ⟨why, List.mem_append_right _ hrest⟩
      | refuse => exact .inl (by simp [Machine.orchAct])
      | pipeline text =>
        simp only [StopsEarly, Machine.orchAct]
        split
        · exact .inr ⟨.inputTooLong, by simp⟩
        · exact .inr ⟨why, List.mem_append_right _ hrest⟩

/-! ## The moves of a run without faults -/

/-- A step that leaves no fault recorded, as the view sees it. -/
inductive ViewMove (s t : State) : Prop
  /-- a work-item of the running job: the job goes on with its inputs, and the host notices nothing -/
  | worked (hst : s.st = .running) (hst' : t.st = s.st) (hk : t.jobctl = s.jobctl) (hn : t.jobn = s.jobn)
      (hseq : t.jobseq = s.jobseq) (hinp : t.mem.inp = s.mem.inp) (hcode : t.mem.code = s.mem.code)
      (hout : outlook t = outlook s)
  /-- the completion step -/
  | completed (hst : s.st = .running) (hp : s.pend = []) (hview : view t = completeJob (view s))
  /-- the command that the host issues next is executed -/
  | executed (c : Command) (i : Instr) (ha : Accepts s) (hh : s.held = some c) (hd : decodeCommand s.cfg c = .instr i)
      (he : Effect (accepted s) i t)
  /-- issuing a command, taking a response -/
  | unmoved (hview : view t = view s)
  /-- another action of the host -/
  | acted (op : OrchOp) (rest : List OrchOp) (hop : ∀ c b, op ≠ .issue c b) (hs : (view s).orch.script = op :: rest)
      (hview : view t = orchAct op rest (view s))

theorem step_viewMove (hinv : Inv s) (h : step s = .next t) (hc : t.cause = .none) : ViewMove s t := by
  cases step_outcome h with
  | incremented env i w v hst =>
    exact .worked hst (by simp) (by simp) (by simp) (by simp) (by simp) (by simp)
      (outlook_congr (by simp) (by simp) (by simp))
  | emitted env i w v c hst =>
    exact .worked hst (by simp) (by simp) (by simp) (by simp) (by simp) (by simp)
      (outlook_congr (by simp) (by simp) (by simp))
  | jobFaulted env wi x info hst hx => exact absurd hc (faultEntry_cause_ne hx info _)
  | completed env hst hp => exact .completed hst hp rfl
  | rejected hst => exact absurd hc (hinv.faultIffFaulted.2 hst)
  | unavailable => exact absurd hc (faultEntry_cause_ne (by simp) 0 _)
  | raised x info u ha hh hx => exact absurd hc (faultEntry_cause_ne hx info u)
  | executed c i t ha hh hd he => exact .executed c i ha hh hd he
  | hostMoved env hh =>
    rcases view_orchStep (s := { s with env := env }) hh with hview | ⟨op, rest, hop, hs, hview⟩
    · exact .unmoved hview
    · exact .acted op rest hop hs hview

theorem ViewMove.stopsEarly (h : ViewMove s t) (hs : StopsEarly (view s).orch) : StopsEarly (view t).orch := by
  cases h with
  | worked _ _ _ _ _ _ _ hout => simpa [hout] using hs
  | completed _ _ hview => rwa [hview, completeJob_orch]
  | executed c i _ hh _ he =>
    obtain ⟨b, rest, r, hscript, -, hout⟩ := outlook_of_effect hh he
    rw [view_orch, hout]
    refine StopsEarly.hear (hs.imp_right fun ⟨why, hwhy⟩ => ⟨why, ?_⟩)
    rw [hscript, List.mem_cons] at hwhy
    exact hwhy.resolve_left (by simp)
  | unmoved hview => rwa [hview]
  | acted op rest _ hscript hview =>
    rw [hview]
    exact hs.orchAct hscript

end Sys2Proof.Machine
end

section
/-! SUPPORT. PIPELINE (R196, R197): what the block and the host hold at each of its steps (`PipelineStage`), and that
every step without a fault leads from one stage to the next or stops the host early; so a run that ends well has its
result. -/

namespace Sys2Proof.Machine

variable {s t : State} {text : List Symbol}

/-! ## The text in the block -/

/-- `f` of the text: how often each symbol occurs (R104). -/
def textCounts (text : List Symbol) : List Nat := (List.range 256).map (fun v => text.countP (fun x => x.toNat == v))

theorem tableCount_textCounts (text : List Symbol) (v : Symbol) :
    tableCount (textCounts text) v.toNat = text.countP (fun x => x.toNat == v.toNat) := by
  simp [tableCount, textCounts, v.isLt]

/-- IN holds the text, whose length the COUNT field can express. -/
structure TextLoaded (text : List Symbol) (v : State) : Prop where
  size : (BitVec.ofNat 32 text.length).toNat = text.length
  slots : ∀ i, i < text.length → slotRead v.mem.inp i = text[i]?

theorem TextLoaded.congr (h : TextLoaded text s) (hinp : t.mem.inp = s.mem.inp) : TextLoaded text t :=
  ⟨h.size, hinp ▸ h.slots⟩

theorem countP_range_getElem? (text : List Symbol) (v : Symbol) :
    (List.range text.length).countP (fun i => decide (text[i]? = some v)) =
      text.countP (fun x => x.toNat == v.toNat) := by
  induction text with
  | nil => rfl
  | cons x text ih =>
    rw [List.length_cons, List.range_succ_eq_map, List.countP_cons, List.countP_cons, List.countP_map, ← ih]
    simp [Function.comp_def, BitVec.toNat_inj]

/-- The positions that hold a symbol are those of the text. -/
theorem TextLoaded.occurrences_eq (h : TextLoaded text s) (hn : s.jobn = BitVec.ofNat 32 text.length) (v : Symbol) :
    occurrences s v = text.countP (fun x => x.toNat == v.toNat) := by
  rw [occurrences, hn, h.size, ← countP_range_getElem?]
  refine List.countP_congr fun i hi => ?_
  rw [h.slots i (List.mem_range.1 hi)]

/-- READBACK.HIST of the whole buffer gives the counts (R191). -/
theorem countRange_eq_textCounts {m : Slots Nat}
    (h : ∀ v : Symbol, countRead m v.toNat = text.countP (fun x => x.toNat == v.toNat)) :
    countRange m 0 256 = textCounts text := by
  refine List.map_congr_left fun k hk => ?_
  have hk : k < 256 := List.mem_range.1 hk
  have hv := h (BitVec.ofNat 8 k)
  rw [BitVec.toNat_ofNat, Nat.mod_eq_of_lt hk] at hv
  simpa using hv

/-- `record` is the pattern of the symbol at each position of the text (R164). -/
def RecordsOf (text : List Symbol) (c : CodeTable) (record : Nat → Option Nat) : Prop :=
  ∀ (i : Nat) (v : Symbol), text[i]? = some v → ∃ w, slotRead c v.toNat = some w ∧ record i = some w.pattern

/-- CODE holds the patterns of the table, but for the entries still to be loaded. -/
def CodesLoaded (c todo : CodeTable) (m : Slots Nat) : Prop :=
  ∀ (v : Symbol) (w : CodeWord), slotRead c v.toNat = some w →
    (v.toNat, w) ∈ todo ∨ slotRead m v.toNat = some w.pattern

/-- LOAD.CODE of the next entry (R95): an unwritten slot, so no entry's pattern is overwritten. -/
theorem CodesLoaded.load {c todo : CodeTable} {m : Slots Nat} {p : Nat × CodeWord} (h : CodesLoaded c (p :: todo) m)
    (hfree : slotRead m (BitVec.ofNat 32 p.1).toNat = none) :
    CodesLoaded c todo (slotWrite m (BitVec.ofNat 32 p.1).toNat p.2.pattern) := by
  intro v w hw
  rcases h v w hw with hmem | hread
  · rcases List.mem_cons.1 hmem with rfl | hmem
    · have hv : (BitVec.ofNat 32 v.toNat).toNat = v.toNat := by
        have := v.isLt
        rw [BitVec.toNat_ofNat, Nat.mod_eq_of_lt (by omega)]
      exact .inr (by simp only [hv, slotRead_write_same])
    · exact .inl hmem
  · have hne : v.toNat ≠ (BitVec.ofNat 32 p.1).toNat := by
      intro he
      rw [he, hfree] at hread
      cases hread
    exact .inr ((slotRead_write_other _ _ hne).trans hread)

/-- Every symbol of the text has a code (R145 item 1). -/
theorem exists_code_of_mem {v : Symbol} (h : v ∈ text) :
    ∃ w, slotRead (codesOf (textCounts text)) v.toNat = some w := by
  rw [← Option.isSome_iff_exists, isSome_slotRead_codesOf, mem_presentSymbols, tableCount_textCounts,
    List.countP_pos_iff]
  exact ⟨v.isLt, v, h, by simp⟩

/-- The encode job over the text with its table leaves the text's records (R164). -/
theorem recordsOf_out (hloaded : TextLoaded text s) (hn : s.jobn = BitVec.ofNat 32 text.length)
    (hcodes : CodesLoaded (codesOf (textCounts text)) [] s.mem.code) (h : RecordsComplete s) :
    RecordsOf text (codesOf (textCounts text)) (slotRead s.mem.out) := by
  intro i v hv
  obtain ⟨hi, -⟩ := List.getElem?_eq_some_iff.1 hv
  obtain ⟨w, hw⟩ := exists_code_of_mem (List.mem_of_getElem? hv)
  obtain ⟨v', c, hinp, hcode, hout⟩ := h.1 i (by rwa [hn, hloaded.size])
  obtain rfl : v = v' := by simpa [hloaded.slots i hi, hv] using hinp
  have hpattern := (hcodes v w hw).resolve_left (by simp)
  exact ⟨w, hw, by rw [hout, ← hcode, hpattern]⟩

/-! ## The stages of a PIPELINE (R196) -/

/-- No job runs, and `seq` jobs have been launched. -/
structure Idle (seq : Word) (v : State) : Prop where
  st : v.st = .idle
  jobseq : v.jobseq = seq

theorem Idle.congr {seq : Word} (h : Idle seq s) (hst : t.st = s.st) (hseq : t.jobseq = s.jobseq) : Idle seq t :=
  ⟨hst.trans h.st, hseq.trans h.jobseq⟩

/-- The job of the given kind over the text runs, the `seq`-th to be launched. -/
structure JobRuns (text : List Symbol) (kind : JobKind) (seq : Word) (v : State) : Prop where
  st : v.st = .running
  jobctl : v.jobctl = kind
  jobn : v.jobn = BitVec.ofNat 32 text.length
  jobseq : v.jobseq = seq
  loaded : TextLoaded text v

/-- The host has the counts and the code table of the text. -/
structure TableMade (text : List Symbol) (o : Orchestrator) : Prop where
  counts : o.counts = textCounts text
  table : o.table = codesOf (textCounts text)

theorem TableMade.congr {o o' : Orchestrator} (h : TableMade text o) (hc : o'.counts = o.counts)
    (ht : o'.table = o.table) : TableMade text o' :=
  ⟨hc.trans h.counts, ht.trans h.table⟩

/-- The host has the records of the text too. -/
structure ResultKnown (text : List Symbol) (o : Orchestrator) : Prop extends TableMade text o where
  length : o.records.length = text.length
  records : RecordsOf text (codesOf (textCounts text)) (fun i => o.records[i]?)

theorem ResultKnown.congr {o o' : Orchestrator} (h : ResultKnown text o) (hc : o'.counts = o.counts)
    (ht : o'.table = o.table) (hr : o'.records = o.records) : ResultKnown text o' :=
  ⟨h.toTableMade.congr hc ht, hr ▸ h.length, hr ▸ h.records⟩

/-- How far a PIPELINE that was not refused and met no fault has come: what of its script is left (step numbers of
R196), and what the block and the host hold by then. -/
inductive PipelineStage (text : List Symbol) (v : State) : Prop
  | starting (hs : v.orch.script = [.pipeline text]) (hidle : Idle 0 v) (hc : v.orch.counts = [])
  /-- step 1, LOAD.IN -/
  | loading (hs : v.orch.script = pipelineOps text) (hidle : Idle 0 v) (hc : v.orch.counts = [])
  /-- step 2, SUBMIT.HIST -/
  | submittingHist (hs : v.orch.script = (pipelineOps text).drop 1) (hidle : Idle 0 v) (hc : v.orch.counts = [])
      (hloaded : TextLoaded text v)
  /-- step 3, READBACK.HIST, is held while the job runs -/
  | counting (hs : v.orch.script = (pipelineOps text).drop 2) (hjob : JobRuns text .hist 1 v) (hc : v.orch.counts = [])
  | readingCounts (hs : v.orch.script = (pipelineOps text).drop 2) (hidle : Idle 1 v) (hc : v.orch.counts = [])
      (hloaded : TextLoaded text v)
      (hcounts : ∀ x : Symbol, countRead v.mem.hist x.toNat = text.countP (fun y => y.toNat == x.toNat))
  /-- step 4, BUILD_TREE -/
  | building (hs : v.orch.script = (pipelineOps text).drop 3) (hidle : Idle 1 v) (hloaded : TextLoaded text v)
      (hc : v.orch.counts = textCounts text)
  /-- step 5, GEN_CODES -/
  | generating (hs : v.orch.script = (pipelineOps text).drop 4) (hidle : Idle 1 v) (hloaded : TextLoaded text v)
      (hc : v.orch.counts = textCounts text) (htree : v.orch.tree = buildTree (textCounts text))
  /-- step 6, the test for codes longer than `CODE_W` -/
  | checking (hs : v.orch.script = (pipelineOps text).drop 5) (hidle : Idle 1 v) (hloaded : TextLoaded text v)
      (htable : TableMade text v.orch)
  /-- step 7, LOAD.TABLE -/
  | loadingTable (hs : v.orch.script = (pipelineOps text).drop 6) (hidle : Idle 1 v) (hloaded : TextLoaded text v)
      (htable : TableMade text v.orch)
  /-- step 7 with the entries `todo` left, then step 8, SUBMIT.ENC -/
  | loadingCodes (todo : CodeTable) (hs : v.orch.script = loadTableOps todo ++ (pipelineOps text).drop 7)
      (hidle : Idle 1 v) (hloaded : TextLoaded text v) (htable : TableMade text v.orch)
      (hcodes : CodesLoaded (codesOf (textCounts text)) todo v.mem.code)
  /-- the same between LOAD.CODE and LOAD.LEN of an entry -/
  | loadingLength (p : Nat × CodeWord) (todo : CodeTable)
      (hs : v.orch.script = issueOp .loadLen (BitVec.ofNat 32 p.1) 1 [p.2.length] .discard ::
        (loadTableOps todo ++ (pipelineOps text).drop 7))
      (hidle : Idle 1 v) (hloaded : TextLoaded text v) (htable : TableMade text v.orch)
      (hcodes : CodesLoaded (codesOf (textCounts text)) todo v.mem.code)
  /-- step 9, READBACK.OUT, is held while the job runs -/
  | encoding (hs : v.orch.script = (pipelineOps text).drop 8) (hjob : JobRuns text .enc 2 v)
      (htable : TableMade text v.orch) (hcodes : CodesLoaded (codesOf (textCounts text)) [] v.mem.code)
  | readingRecords (hs : v.orch.script = (pipelineOps text).drop 8) (hidle : Idle 2 v) (htable : TableMade text v.orch)
      (hsize : (BitVec.ofNat 32 text.length).toNat = text.length)
      (hrecords : RecordsOf text (codesOf (textCounts text)) (slotRead v.mem.out))
  /-- step 10, RELEASE -/
  | releasing (hs : v.orch.script = (pipelineOps text).drop 9) (hidle : Idle 2 v) (hresult : ResultKnown text v.orch)
  | finished (hs : v.orch.script = []) (hidle : Idle 2 v) (hresult : ResultKnown text v.orch)
      (hmem : v.mem = Memory.fresh) (hseals : v.seals = Seals.fresh) (hk : v.jobctl = .none) (hn : v.jobn = 0)
      (hsession : v.session = true)

/-- A job runs in two of the stages only. -/
theorem PipelineStage.of_running {v : State} (h : PipelineStage text v) (hst : v.st = .running) :
    (v.orch.script = (pipelineOps text).drop 2 ∧ JobRuns text .hist 1 v ∧ v.orch.counts = []) ∨
    (v.orch.script = (pipelineOps text).drop 8 ∧ JobRuns text .enc 2 v ∧ TableMade text v.orch ∧
      CodesLoaded (codesOf (textCounts text)) [] v.mem.code) := by
  cases h with
  | counting hs hjob hc => exact .inl ⟨hs, hjob, hc⟩
  | encoding hs hjob htable hcodes => exact .inr ⟨hs, hjob, htable, hcodes⟩
  | starting _ hidle | loading _ hidle | submittingHist _ hidle | readingCounts _ hidle | building _ hidle
  | generating _ hidle | checking _ hidle | loadingTable _ hidle | loadingCodes _ _ hidle | loadingLength _ _ _ hidle
  | readingRecords _ hidle | releasing _ hidle | finished _ hidle => cases hidle.st.symm.trans hst

/-- A work-item's step is in one of the two jobs, which goes on. -/
theorem PipelineStage.worked (h : PipelineStage text (view s)) (hst : s.st = .running) (hst' : t.st = s.st)
    (hk : t.jobctl = s.jobctl) (hn : t.jobn = s.jobn) (hseq : t.jobseq = s.jobseq) (hinp : t.mem.inp = s.mem.inp)
    (hcode : t.mem.code = s.mem.code) (hout : outlook t = outlook s) : PipelineStage text (view t) := by
  have hview : (view t).orch = (view s).orch := hout
  have hjob {kind : JobKind} {seq : Word} (h : JobRuns text kind seq (view s)) : JobRuns text kind seq (view t) :=
    ⟨hst'.trans h.st, hk.trans h.jobctl, hn.trans h.jobn, hseq.trans h.jobseq, h.loaded.congr hinp⟩
  rcases h.of_running hst with ⟨hs, hjobs, hc⟩ | ⟨hs, hjobs, htable, hcodes⟩
  · exact .counting (hview ▸ hs) (hjob hjobs) (hview ▸ hc)
  · exact .encoding (hview ▸ hs) (hjob hjobs) (hview ▸ htable) (by rw [view_mem, hcode]; exact hcodes)

/-- The completion step ends one of the two jobs: by R103 and R164 its output is the text's. -/
theorem PipelineStage.completed (h : PipelineStage text (view s)) (hjobs : JobsSoFar s) (hst : s.st = .running)
    (hp : s.pend = []) : PipelineStage text (completeJob (view s)) := by
  obtain ⟨hhist, hrec⟩ := hjobs
  rcases h.of_running hst with ⟨hs, hjob, hc⟩ | ⟨hs, hjob, htable, hcodes⟩
  · refine .readingCounts hs ⟨rfl, hjob.jobseq⟩ hc (hjob.loaded.congr rfl) fun x => ?_
    have hcount := (hhist hst hjob.jobctl x).trans (stepped_eq_occurrences hp x)
    exact hcount.trans (hjob.loaded.occurrences_eq hjob.jobn x)
  · refine .readingRecords hs ⟨rfl, hjob.jobseq⟩ htable hjob.loaded.size ?_
    have hcomplete : RecordsComplete (view s) := hrec.complete hst hjob.jobctl hp
    exact recordsOf_out (s := view s) hjob.loaded hjob.jobn hcodes hcomplete

/-- The host's own actions: BUILD_TREE, GEN_CODES, the test of step 6, LOAD.TABLE and PIPELINE itself. -/
theorem PipelineStage.acted {v : State} {op : OrchOp} {rest : List OrchOp} (h : PipelineStage text v)
    (hop : ∀ c b, op ≠ .issue c b) (hscript : v.orch.script = op :: rest) :
    PipelineStage text (orchAct op rest v) ∨ StopsEarly (orchAct op rest v).orch := by
  cases h with
  | starting hs hidle hc =>
    obtain ⟨rfl, rfl⟩ := List.cons.inj (hs.symm.trans hscript)
    by_cases hfit : v.cfg.cap < text.length
    · exact .inr (.inr ⟨.inputTooLong, by simp [orchAct, hfit]⟩)
    · exact .inl (.loading (by simp [orchAct, hfit]) ⟨hidle.st, hidle.jobseq⟩ hc)
  | building hs hidle hloaded hc =>
    obtain ⟨rfl, rfl⟩ := List.cons.inj (hs.symm.trans hscript)
    exact .inl (.generating rfl ⟨hidle.st, hidle.jobseq⟩ (hloaded.congr rfl) hc (congrArg buildTree hc))
  | generating hs hidle hloaded hc htree =>
    obtain ⟨rfl, rfl⟩ := List.cons.inj (hs.symm.trans hscript)
    exact .inl (.checking rfl ⟨hidle.st, hidle.jobseq⟩ (hloaded.congr rfl) ⟨hc, congrArg genCodes htree⟩)
  | checking hs hidle hloaded htable =>
    obtain ⟨rfl, rfl⟩ := List.cons.inj (hs.symm.trans hscript)
    by_cases hlong : tableTooLong v.cfg v.orch.table = true
    · exact .inr (.inr ⟨.codeTooLong, by simp [orchAct, hlong, codeTooLongOps]⟩)
    · exact .inl (.loadingTable (by simp [orchAct, hlong, pipelineOps]) ⟨hidle.st, hidle.jobseq⟩ (hloaded.congr rfl)
        ⟨htable.counts, htable.table⟩)
  | loadingTable hs hidle hloaded htable =>
    obtain ⟨rfl, rfl⟩ := List.cons.inj (hs.symm.trans hscript)
    exact .inl (.loadingCodes v.orch.table rfl ⟨hidle.st, hidle.jobseq⟩ (hloaded.congr rfl)
      ⟨htable.counts, htable.table⟩ fun _ _ hw => .inl (htable.table ▸ slotRead_mem hw))
  | finished hs => simp [hs] at hscript
  | loadingCodes todo hs =>
    cases todo with
    | nil | cons => exact absurd (List.cons.inj (hscript.symm.trans hs)).1 (hop _ _)
  | loading hs | submittingHist hs | counting hs | readingCounts hs | loadingLength p todo hs | encoding hs
  | readingRecords hs | releasing hs =>
    exact absurd (List.cons.inj (hscript.symm.trans hs)).1 (hop _ _)

/-! ## The commands of a PIPELINE -/

/-- A command of a PIPELINE that is executed brings it to its next stage. -/
theorem PipelineStage.executed (h : PipelineStage text (view s)) {c : Command} {i : Instr} (ha : Accepts s)
    (hh : s.held = some c) (hd : decodeCommand s.cfg c = .instr i) (he : Effect (accepted s) i t) :
    PipelineStage text (view t) := by
  cases h with
  | loading hs hidle hc =>
    obtain ⟨he, r, hr, hout⟩ := command_of_view hh hd he rfl hs
    rw [attachPayload, map_ofNat_map_toNat] at he
    cases he with
    | loadIn _ _ _ _ hl =>
      cases hr
      refine .submittingHist (congrArg (·.script) hout) (hidle.congr (by simp) (by simp))
        ((congrArg (·.counts) hout).trans hc) ⟨hl.symm, fun i hi => ?_⟩
      simp [slotRead_writeList, hi]
  | submittingHist hs hidle hc hloaded =>
    obtain ⟨he, r, hr, hout⟩ := command_of_view hh hd he rfl hs
    cases he with
    | submitHist =>
      cases hr
      have hseq : s.jobseq = 0 := hidle.jobseq
      exact .counting (congrArg (·.script) hout) ⟨rfl, rfl, rfl, by simp [hseq], hloaded.congr (by simp)⟩
        ((congrArg (·.counts) hout).trans hc)
  | counting hs hjob => exact absurd (ha.1.symm.trans hjob.st) (by simp)
  | readingCounts hs hidle hc hloaded hcounts =>
    obtain ⟨he, r, hr, hout⟩ := command_of_view hh hd he rfl hs
    cases he with
    | readbackHist =>
      cases hr
      refine .building (congrArg (·.script) hout) (hidle.congr (by simp) (by simp)) (hloaded.congr (by simp))
        ((congrArg (·.counts) hout).trans ?_)
      simp only [hear, bindResponse, abortOn, hc, storeCounts_nil, accepted_mem]
      exact countRange_eq_textCounts hcounts
  | loadingCodes todo hs hidle hloaded htable hcodes =>
    cases todo with
    | nil =>
      obtain ⟨he, r, hr, hout⟩ := command_of_view hh hd he rfl hs
      cases he with
      | submitEnc =>
        cases hr
        have hseq : s.jobseq = 1 := hidle.jobseq
        exact .encoding (congrArg (·.script) hout) ⟨rfl, rfl, rfl, by simp [hseq], hloaded.congr (by simp)⟩
          (htable.congr (congrArg (·.counts) hout) (congrArg (·.table) hout)) (by simpa using hcodes)
    | cons p todo =>
      obtain ⟨he, r, hr, hout⟩ := command_of_view hh hd he rfl hs
      cases he with
      | loadCode _ _ _ _ _ _ _ hn =>
        cases hr
        have hfree : slotRead s.mem.code (BitVec.ofNat 32 p.1).toNat = none := by simpa using hn 0 (by decide)
        exact .loadingLength p todo (congrArg (·.script) hout) (hidle.congr (by simp) (by simp))
          (hloaded.congr (by simp)) (htable.congr (congrArg (·.counts) hout) (congrArg (·.table) hout))
          (by simpa [slotWriteList] using hcodes.load hfree)
  | loadingLength p todo hs hidle hloaded htable hcodes =>
    obtain ⟨he, r, hr, hout⟩ := command_of_view hh hd he rfl hs
    cases he with
    | loadLen =>
      cases hr
      exact .loadingCodes todo (congrArg (·.script) hout) (hidle.congr (by simp) (by simp))
        (hloaded.congr (by simp)) (htable.congr (congrArg (·.counts) hout) (congrArg (·.table) hout))
        (by simpa using hcodes)
  | encoding hs hjob => exact absurd (ha.1.symm.trans hjob.st) (by simp)
  | readingRecords hs hidle htable hsize hrecords =>
    obtain ⟨he, r, hr, hout⟩ := command_of_view hh hd he rfl hs
    cases he with
    | readbackOut _ _ _ _ hn =>
      cases hr
      have hvalues := congrArg (·.records) hout
      refine .releasing (congrArg (·.script) hout) (hidle.congr (by simp) (by simp))
        ⟨htable.congr (congrArg (·.counts) hout) (congrArg (·.table) hout), ?_, fun i v hv => ?_⟩
      · exact (congrArg List.length hvalues).trans ((length_slotRange hn).trans hsize)
      · obtain ⟨w, hw, hrecord⟩ := hrecords i v hv
        obtain ⟨hi, -⟩ := List.getElem?_eq_some_iff.1 hv
        have hread := getElem?_slotRange hn (k := i) (by rwa [hsize])
        exact ⟨w, hw, (congrArg (·[i]?) hvalues).trans (hread.trans (by simpa using hrecord))⟩
  | releasing hs hidle hresult =>
    obtain ⟨he, r, hr, hout⟩ := command_of_view hh hd he rfl hs
    cases he with
    | release =>
      cases hr
      exact .finished (congrArg (·.script) hout) (hidle.congr (by simp) (by simp))
        (hresult.congr (congrArg (·.counts) hout) (congrArg (·.table) hout) (congrArg (·.records) hout))
        rfl rfl rfl rfl (by simp)
  | starting hs | building hs | generating hs | checking hs | loadingTable hs | finished hs =>
    obtain ⟨b, rest, r, hscript, -⟩ := outlook_of_effect hh he
    cases (hs.symm.trans hscript)

/-! ## The whole run -/

/-- A step without a fault brings a PIPELINE to its next stage, or the host stops early. -/
theorem PipelineStage.step (h : PipelineStage text (view s)) (hreach : Reachable s) (hstep : step s = .next t)
    (hc : t.cause = .none) : PipelineStage text (view t) ∨ StopsEarly (view t).orch := by
  cases step_viewMove hreach.inv hstep hc with
  | worked hst hst' hk hn hseq hinp hcode hout => exact .inl (h.worked hst hst' hk hn hseq hinp hcode hout)
  | completed hst hp hview => exact hview ▸ .inl (h.completed hreach.jobsSoFar hst hp)
  | executed c i ha hh hd he => exact .inl (h.executed ha hh hd he)
  | unmoved hview => exact hview ▸ .inl h
  | acted op rest hop hs hview => exact hview ▸ h.acted hop hs

theorem Launch.starting (h : Launch s) (ho : s.orch = { Orchestrator.idle with script := [.pipeline text] }) :
    PipelineStage text (view s) := by
  obtain ⟨-, orch, env, hs⟩ := h
  have hout : outlook s = { Orchestrator.idle with script := [.pipeline text] } := by
    rw [outlook_of_free (by rw [hs]; rfl) (by rw [hs]; rfl), ho]
    rfl
  exact .starting (congrArg (·.script) hout) ⟨by rw [hs]; rfl, by rw [hs]; rfl⟩ (congrArg (·.counts) hout)

/-- Every state of a run of PIPELINE in which no fault is recorded. -/
theorem RunsTo.pipelineStage (hlaunch : Launch s) (ho : s.orch = { Orchestrator.idle with script := [.pipeline text] })
    (h : RunsTo s t) : t.cause = .none → PipelineStage text (view t) ∨ StopsEarly (view t).orch := by
  induction h with
  | refl => exact fun _ => .inl (hlaunch.starting ho)
  | @step u w hruns hstep ih =>
    intro hc
    have hreach : Reachable u := ⟨s, hlaunch, hruns⟩
    have hbefore : u.cause = .none := by
      by_contra hne
      exact hne ((step_keeps_recorded_fault hstep hne).1 ▸ hc)
    rcases ih hbefore with hstage | hstops
    · exact hstage.step hreach hstep hc
    · exact .inr ((step_viewMove hreach.inv hstep hc).stopsEarly hstops)

/-- A host whose script is at its end has come to the end of its PIPELINE. -/
theorem PipelineStage.at_end {v : State} (h : PipelineStage text v) (hs : v.orch.script = []) :
    Idle 2 v ∧ ResultKnown text v.orch ∧ v.mem = Memory.fresh ∧ v.seals = Seals.fresh ∧ v.jobctl = .none ∧
      v.jobn = 0 ∧ v.session = true := by
  cases h with
  | finished _ hidle hresult hmem hseals hk hn hsession => exact ⟨hidle, hresult, hmem, hseals, hk, hn, hsession⟩
  | loadingCodes todo hs' => cases todo <;> cases hs.symm.trans hs'
  | starting hs' | loading hs' | submittingHist hs' | counting hs' | readingCounts hs' | building hs' | generating hs'
  | checking hs' | loadingTable hs' | loadingLength _ _ hs' | encoding hs' | readingRecords hs' | releasing hs' =>
    cases hs.symm.trans hs'

/-- Settles O60: a run that ends well without a refusal has passed every stage. -/
theorem pipelineGivesItsResult : Obligations.PipelineGivesItsResult := by
  unfold Obligations.PipelineGivesItsResult
  rintro s t text hlaunch ho hruns ⟨⟨hscript, hr, hh, -⟩, hc⟩ hstop
  have hinv : Inv t := Reachable.inv ⟨s, hlaunch, hruns⟩
  have hout : outlook t = withoutLog t.orch := outlook_of_free hh hr
  rcases hruns.pipelineStage hlaunch ho hc with hstage | hstops
  · obtain ⟨hidle, hresult, hmem, hseals, hk, hn, hsession⟩ := hstage.at_end (by rw [view_orch, hout]; exact hscript)
    rw [view_orch, hout] at hresult
    obtain ⟨⟨hcounts, htable⟩, hlength, hrecords⟩ : ResultKnown text t.orch := hresult.congr rfl rfl rfl
    refine ⟨hcounts, by rw [htable, hcounts], hlength, fun i v hv => ?_, hmem, hseals, hk, hn,
      hinv.noPendingWhenIdle hidle.st, hidle.st, hinv.infoOnlyWithFault hc, hidle.jobseq, hsession⟩
    rw [htable]
    exact hrecords i v hv
  · simp [StopsEarly, hout, withoutLog, hscript, hstop] at hstops

end Sys2Proof.Machine
end

section
/-! SUPPORT. Exceptions (R221 to R242): what a faulting command and a faulting work-item leave unchanged, the acquisition
by the first command, the finality of FAULTED, ENV's failure of a running job and the machine at rest. -/

namespace Sys2Proof.Machine

variable {s t : State}

/-! ## What raises a fault (R223, R232) -/

/-- A block in which the command cannot acquire the accelerator does not reach its rule. -/
theorem not_accepts_of_unavailable (hs : s.session = false) (hd : nextDraw s = false) : ¬ Accepts s := by
  rintro ⟨-, h⟩
  simp [hs, hd] at h

theorem not_accepts_of_running (hst : s.st = .running) : ¬ Accepts s := by
  rintro ⟨hidle, -⟩
  cases hst.symm.trans hidle

/-- A command that makes the block FAULTED raises its fault in the state in which it was issued, a draw used up at most,
acquired where the block accepts it. -/
theorem exec_command_faults {i : Instr} (hc : isCommand i = true) (h : exec i s = .next t) (hst : s.st ≠ .faulted)
    (ht : t.st = .faulted) :
    ∃ x info session env, t = raiseInCommand x info { s with session := session, env := env } ∧
      (Accepts s → session = true) ∧ (¬ Accepts s → session = s.session) := by
  cases hw : i.wf s.cfg with
  | false => simp [exec_inexpressible i hw] at h
  | true =>
    obtain ⟨rule, hrule⟩ := exec_command_is_accept i s.cfg hc hw
    have h' := (hrule s rfl).symm.trans h
    rcases accept_cases rule s with ⟨-, he⟩ | ⟨hf, -⟩ | ⟨ha, -⟩ | ⟨-, hs, hd, he⟩
    · obtain rfl : s = t := by simpa [he] using h'
      exact absurd ht hst
    · exact absurd hf hst
    · rcases exec_accepts i hc hw ha with ⟨x, info, u, -, hu, he⟩ | ⟨u, hu, he⟩
      · obtain rfl : raiseInCommand x info u = t := by simpa only [he, Host.Outcome.next.injEq] using h
        obtain ⟨env, rfl⟩ := raised_state_eq hu
        exact ⟨x, info, true, env, rfl, fun _ => rfl, fun hna => absurd ha hna⟩
      · obtain rfl : u = t := by simpa [he] using h
        exact absurd ht (hu.st_ne_faulted (by simpa using ha.1))
    · obtain rfl : raiseInCommand .unavail 0 (dropDraw s) = t := by simpa only [he, Host.Outcome.next.injEq] using h'
      rw [dropDraw_eq]
      exact ⟨_, _, s.session, _, rfl, fun ha => absurd ha (not_accepts_of_unavailable hs hd), fun _ => rfl⟩

/-- A work-item operation raises a fault, never UNAVAIL, or keeps the status and the fault record. -/
theorem exec_workItem_cases {i : Instr} (hc : isCommand i = false) (h : exec i s = .next t) :
    s.st = .running ∧
    ((∃ x info, x ≠ FaultCause.unavail ∧ t = faultEntry x info s) ∨ (t.st = s.st ∧ t.cause = s.cause)) := by
  cases i with
  | hinc =>
    obtain ⟨w, -, hst, -, -, rfl⟩ := workItemStep_next h
    refine ⟨hst, ?_⟩
    rcases hincBody_cases w s with ⟨-, hb⟩ | ⟨v, -, hb⟩ <;> rw [hb]
    · exact .inl ⟨_, _, by simp, rfl⟩
    · exact .inr (by simp)
  | emit =>
    obtain ⟨w, -, hst, -, -, rfl⟩ := workItemStep_next h
    refine ⟨hst, ?_⟩
    rcases emitBody_cases w s with ⟨-, hb⟩ | ⟨v, -, -, hb⟩ | ⟨v, l, c, -, -, -, hb⟩ <;> rw [hb]
    · exact .inl ⟨_, _, by simp, rfl⟩
    · exact .inl ⟨_, _, by simp, rfl⟩
    · exact .inr (by simp)
  | _ => simp [isCommand] at hc

/-- A work-item operation that makes the block FAULTED is a fault entry and nothing else. -/
theorem exec_workItem_faults {i : Instr} (hc : isCommand i = false) (h : exec i s = .next t) (ht : t.st = .faulted) :
    s.st = .running ∧ ∃ x info, t = faultEntry x info s := by
  obtain ⟨hst, ⟨x, info, -, rfl⟩ | ⟨hkept, -⟩⟩ := exec_workItem_cases hc h
  · exact ⟨hst, x, info, rfl⟩
  · cases ht.symm.trans (hkept.trans hst)

/-- Settles O34: a step that makes the block FAULTED is a fault entry, with the response where a command raises it. -/
theorem faultingStepsHaveNoOtherEffect : Obligations.FaultingStepsHaveNoOtherEffect := by
  unfold Obligations.FaultingStepsHaveNoOtherEffect
  refine ⟨fun x info s => ⟨fun hc => if_pos hc, fun hc => if_neg hc⟩, fun i s t h hst ht => ?_, fun s t h hst ht => ?_⟩
  · cases hc : isCommand i with
    | true =>
      obtain ⟨x, info, session, env, rfl, hsession⟩ := exec_command_faults hc h hst ht
      simpa using hsession
    | false =>
      obtain ⟨hrun, x, info, rfl⟩ := exec_workItem_faults hc h ht
      simp [not_accepts_of_running hrun]
  · cases step_outcome h with
    | incremented env i w v hrun | emitted env i w v c hrun => simp [hrun] at ht
    | jobFaulted env wi x info hrun => simp [not_accepts_of_running hrun]
    | completed => simp at ht
    | rejected hf => exact absurd hf hst
    | unavailable hidle hh hs hd => simp [not_accepts_of_unavailable hs hd]
    | raised x info u ha hh hx hu =>
      obtain ⟨env, rfl⟩ := raised_state_eq hu
      simp [ha, hh]
    | executed c i t ha hh hd he => exact absurd ht (he.st_ne_faulted (by simpa using ha.1))
    | hostMoved env =>
      obtain ⟨orch, held, ho⟩ := orchStep_eq { s with env := env }
      rw [ho] at ht
      exact absurd ht hst

/-! ## The acquisition (R184, R224) -/

theorem unavail_of_faultEntry {x : FaultCause} {info : Word} (hx : x ≠ .unavail)
    (h : (faultEntry x info s).cause = .unavail) : s.cause = .unavail := by
  rw [faultEntry_cause] at h
  split at h
  · exact absurd h hx
  · exact h

/-- The operation that a job's kind selects is no command (R92). -/
theorem isCommand_of_workItemOperation {k : JobKind} {op : Instr} (h : workItemOperation k = some op) :
    isCommand op = false := by
  cases k with
  | none => cases h
  | hist | enc =>
    cases h
    rfl

theorem unavail_of_stepWorkItem {i : Nat} (h : stepWorkItem i s = .next t) (hc : t.cause = .unavail) :
    s.cause = .unavail := by
  unfold stepWorkItem at h
  split at h
  · cases h
  · rename_i op hop
    obtain ⟨u, hu, rfl⟩ := mapNext_eq_next h
    obtain ⟨-, ⟨x, info, hx, rfl⟩ | ⟨-, hcause⟩⟩ := exec_workItem_cases (isCommand_of_workItemOperation hop) hu
    · exact unavail_of_faultEntry (s := beginWorkItem i s) hx hc
    · exact hcause.symm.trans hc

theorem unavail_of_acceptCommand {c : Command} (h : acceptCommand c s = .next t) (hst : s.st ≠ .running)
    (hs : s.session = true) (hc : t.cause = .unavail) : s.cause = .unavail := by
  rcases acceptCommand_cases h hst with ⟨-, rfl⟩ | ⟨-, hno, -⟩ | ⟨-, x, info, u, hx, hu, rfl⟩ | ⟨-, i, -, he⟩
  · exact hc
  · simp [hs] at hno
  · obtain ⟨env, rfl⟩ := raised_state_eq hu
    exact unavail_of_faultEntry (s := { s with session := true, env := env }) hx.2 hc
  · obtain ⟨-, -, hcause, -⟩ := he.frame
    rw [← accepted_cause s, ← hcause]
    exact hc

/-- No step of an acquired block records UNAVAIL (R224). -/
theorem unavail_of_step (h : step s = .next t) (hs : s.session = true) (hc : t.cause = .unavail) :
    s.cause = .unavail := by
  obtain ⟨-, u, hu, hcases⟩ := step_cases h
  have hcause : u.cause = s.cause := by rcases hu with rfl | rfl <;> simp
  rcases hcases with ⟨i, -, -, hi⟩ | ⟨-, -, rfl⟩ | ⟨-, rfl⟩ | ⟨hst, -, c, -, hcmd⟩ | ⟨-, rfl⟩
  · exact hcause ▸ unavail_of_stepWorkItem hi hc
  · exact hcause ▸ hc
  · exact hcause ▸ unavail_of_faultEntry (by simp) hc
  · exact unavail_of_acceptCommand hcmd hst hs hc
  · obtain ⟨orch, held, ho⟩ := orchStep_eq u
    rw [ho] at hc
    exact hcause ▸ hc

/-- A command that a block accepts leaves it acquired, whether it raises a fault or not. -/
theorem exec_accepts_session {i : Instr} (hc : isCommand i = true) (hw : i.wf s.cfg = true) (ha : Accepts s) :
    ∃ t, exec i s = .next t ∧ t.session = true := by
  rcases exec_accepts i hc hw ha with ⟨x, info, u, -, hu, he⟩ | ⟨t, ht, he⟩
  · obtain ⟨env, rfl⟩ := raised_state_eq hu
    exact ⟨_, he, by simp⟩
  · obtain ⟨hsession, -⟩ := ht.frame
    exact ⟨t, he, by simpa using hsession⟩

/-- Settles O14: the draw stands before every rule, and in an acquired block there is none. -/
theorem acquisitionByTheFirstCommand : Obligations.AcquisitionByTheFirstCommand := by
  unfold Obligations.AcquisitionByTheFirstCommand
  refine ⟨fun s hst hs hd => ?_, fun s ha => ⟨fun i hc hw => exec_accepts_session hc hw ha, fun w0 => ?_⟩,
    fun s t h hs => ⟨?_, unavail_of_step h hs⟩⟩
  · have hraises : ∀ rule, RaisesInCommand .unavail 0 (dropDraw s) (accept rule s) := fun rule => by
      rw [accept_unavailable rule hst hs hd]
      exact raisesInCommand_raise _ _ _
    refine ⟨fun i hc hw => ?_, fun w0 => hraises _⟩
    obtain ⟨rule, hrule⟩ := exec_command_is_accept i s.cfg hc hw
    rw [hrule s rfl]
    exact hraises rule
  · exact ⟨_, accept_accepts _ ha, by simp⟩
  · obtain ⟨-, -, -, -, hkept, -⟩ := statusTransitionsAndParameters s t h
    exact hkept hs

/-! ## FAULTED is final (R233, R237) -/

/-- A step of a FAULTED block is an answer to a command or a step of the host. -/
theorem step_of_faulted (h : step s = .next t) (hst : s.st = .faulted) :
    ∃ held response orch env, t = { s with held := held, response := response, orch := orch, env := env } := by
  cases step_outcome h with
  | incremented env i w v hrun | emitted env i w v c hrun | jobFaulted env wi x info hrun | completed env hrun =>
    cases hst.symm.trans hrun
  | rejected => exact ⟨_, _, _, _, rfl⟩
  | unavailable hidle => cases hst.symm.trans hidle
  | raised x info u ha | executed c i t ha => cases hst.symm.trans ha.1
  | hostMoved env =>
    obtain ⟨orch, held, ho⟩ := orchStep_eq { s with env := env }
    exact ⟨held, none, orch, env, ho⟩

/-- Settles O35. -/
theorem faultsAreFinal : Obligations.FaultsAreFinal := by
  unfold Obligations.FaultsAreFinal
  refine ⟨fun s t h hst => ?_, fun s a hst ha => ?_, fun s t h hc => step_keeps_recorded_fault h hc⟩
  · obtain ⟨held, response, orch, env, rfl⟩ := step_of_faulted h hst
    exact ⟨hst, rfl, rfl, rfl, rfl, rfl, rfl, rfl, rfl, rfl⟩
  · rcases mem_enabledActions_iff.1 ha with ⟨hrun, -⟩ | ⟨-, -, rfl⟩ | ⟨-, rfl⟩
    · cases hst.symm.trans hrun
    · exact .inl rfl
    · exact .inr rfl

/-! ## The machine at rest (R242, R279) -/

theorem workItemStep_fault {kind : JobKind} {body : WorkItem → State → State} {x : Fault}
    (h : workItemStep kind body s = .fault x) : x = .workItemNotEnabled := by
  unfold workItemStep at h
  split at h
  · simpa using h.symm
  · split at h
    · cases h
    · simpa using h.symm

/-- The one stop of an operation is that of a work-item operation without its work-item (R102, R162). -/
theorem exec_fault {i : Instr} {x : Fault} (h : exec i s = .fault x) : x = .workItemNotEnabled := by
  cases hw : i.wf s.cfg with
  | false => simp [exec_inexpressible i hw] at h
  | true =>
    cases hc : isCommand i with
    | true =>
      obtain ⟨t, ht⟩ := exec_command_exists_next hc hw
      simp [ht] at h
    | false =>
      cases i with
      | hinc => exact workItemStep_fault h
      | emit => exact workItemStep_fault h
      | _ => simp [isCommand] at hc

theorem mapNext_eq_fault {f : State → State} {r : Result} {x : Fault} (h : mapNext f r = .fault x) : r = .fault x := by
  cases r with
  | next u => simp at h
  | fault y => exact h
  | refused y => simp at h

theorem stepWorkItem_fault {i : Nat} {x : Fault} (h : stepWorkItem i s = .fault x) : x = .workItemNotEnabled := by
  unfold stepWorkItem at h
  split at h
  · simpa using h.symm
  · exact exec_fault (mapNext_eq_fault h)

theorem acceptCommand_fault {c : Command} {x : Fault} (h : acceptCommand c s = .fault x) : x = .workItemNotEnabled := by
  unfold acceptCommand at h
  split at h
  · exact exec_fault h
  · obtain ⟨t, ht⟩ := acceptIllegal_exists_next (w0Of c.desc) s
    simp [ht] at h
  · cases h
  · cases h

/-- Of all agents only CP without a command to accept is at rest. -/
theorem act_quiescent {a : Action} (h : act a s = .fault .quiescent) : a = .accept ∧ s.held = none := by
  cases a with
  | workItem i => cases stepWorkItem_fault h
  | accept =>
    refine ⟨rfl, ?_⟩
    simp only [act] at h
    split at h
    · cases acceptCommand_fault h
    · assumption
  | complete | jobFail | host => cases h

/-- The machine stops at rest exactly when no agent has an enabled step (R242). -/
theorem step_quiescent_iff (hw : s.cfg.wf = true) : step s = .fault .quiescent ↔ enabledActions s = [] := by
  cases he : enabledActions s with
  | nil => simp [step, stepAny, hw, he]
  | cons a as =>
    rw [step_of_enabledActions hw he, chooseAction]
    refine iff_of_false (fun hact => ?_) (List.cons_ne_nil a as)
    obtain ⟨hpick, hnone⟩ := act_quiescent hact
    have hnone' : s.held = none := by split at hnone <;> simpa using hnone
    have henabled : Action.accept ∈ enabledActions s := by rw [he, ← hpick]; exact pickAction_mem a as s
    obtain ⟨-, -, -, haccept, -⟩ := enabledStepsExactly s
    exact (haccept.1 henabled).2 hnone'

theorem enabledActions_eq_nil_iff (s : State) :
    enabledActions s = [] ↔ s.st ≠ .running ∧ s.held = none ∧ s.response = none ∧ s.orch.script = [] := by
  rw [enabledActions, List.append_eq_nil_iff]
  by_cases hst : s.st = .running
  · simp [hst, jobActions]
  · by_cases hh : s.held = none <;> simp [hst, hh, orchReady]

/-- Settles O10. -/
theorem quiescentExactlyAtTheEnd : Obligations.QuiescentExactlyAtTheEnd := by
  unfold Obligations.QuiescentExactlyAtTheEnd
  exact fun s hw => (step_quiescent_iff hw).trans (enabledActions_eq_nil_iff s)

/-! ## ENV's failure of a running job (R225 b) -/

/-- Settles O32: ENV's failure is a fault entry whose INFO is the code of the job's kind. -/
theorem runningJobCanFail : Obligations.RunningJobCanFail := by
  unfold Obligations.RunningJobCanFail
  intro s hst
  have hraises : RaisesInJob .jobfail ((kindCode s.jobctl).setWidth 32) s (act .jobFail s) :=
    raisesInJob_faultEntry _ _ s
  exact ⟨mem_enabledActions_iff.2 (.inl ⟨hst, mem_jobActions_iff.2 (.inr (.inr rfl))⟩),
    fun hk => by simpa [hk, kindCode] using hraises, fun hk => by simpa [hk, kindCode] using hraises⟩

end Sys2Proof.Machine
end

section
/-! SUPPORT. Liveness (R182, R190, R277): every step of a RUNNING block uses up a pending position, an action the host has
left before it waits for a command, or the job itself (`jobWork`), so a job ends within that bound; and in a block that is
not RUNNING at most one step is enabled, so every execution is weakly fair. -/

namespace Sys2Proof.Machine

variable {s t : State}

/-! ## What is left to do while a job runs -/

/-- A bound on the host's actions until it waits for a command or has none left: a command or a refusal is the last of
them, and what any other action puts into the script (R95, R196) begins with one of the two, if it is not empty. -/
def scriptWork : List OrchOp → Nat
  | [] => 0
  | .issue _ _ :: _ | .refuse _ :: _ => 1
  | .build :: rest | .gen :: rest | .checkTable :: rest | .loadTable :: rest | .pipeline _ :: rest =>
    max 1 (scriptWork rest) + 1

/-- A bound on the host's steps until it waits for a command or has none left: taking a response, then its actions. -/
def hostWork (s : State) : Nat :=
  if s.held.isSome then 0 else (if s.response.isSome then 1 else 0) + scriptWork s.orch.script

/-- A bound on the steps of a RUNNING block until its job ends: its work-items, its end, and the host's steps. -/
def jobWork (s : State) : Nat := s.pend.length + 1 + hostWork s

theorem scriptWork_le (script : List OrchOp) : scriptWork script ≤ script.length + 1 := by
  induction script with
  | nil => exact Nat.zero_le _
  | cons op rest ih => cases op <;> simp [scriptWork, ih]

theorem hostWork_of_held (h : s.held ≠ none) : hostWork s = 0 :=
  if_pos (Option.isSome_iff_ne_none.2 h)

/-- Without a response to take, the work left to a host that waits for no command is that of its script. -/
theorem hostWork_of_script (hh : s.held = none) (hr : s.response = none) : hostWork s = scriptWork s.orch.script := by
  simp [hostWork, hh, hr]

theorem jobWork_pos (s : State) : 0 < jobWork s := by
  rw [jobWork]
  omega

theorem jobWork_le (s : State) : jobWork s ≤ s.pend.length + s.orch.script.length + 3 := by
  have hscript := scriptWork_le s.orch.script
  rw [jobWork, hostWork]
  split_ifs <;> omega

/-! ## The steps of the host (R194) -/

/-- LOAD.TABLE begins with a command, unless the table is empty (R95). -/
theorem scriptWork_loadTableOps_le (c : CodeTable) (rest : List OrchOp) :
    scriptWork (loadTableOps c ++ rest) ≤ max 1 (scriptWork rest) := by
  cases c with
  | nil => exact le_max_right _ _
  | cons p c => exact le_max_left _ _

/-- An action that issues no command leaves less of the script before the next one. -/
theorem scriptWork_orchAct_lt {op : OrchOp} (hop : ∀ c b, op ≠ .issue c b) (rest : List OrchOp) (s : State) :
    scriptWork (orchAct op rest s).orch.script < scriptWork (op :: rest) := by
  cases op with
  | issue c b => exact absurd rfl (hop c b)
  | refuse => exact Nat.one_pos
  | build | gen => exact Nat.lt_succ_of_le (le_max_right _ _)
  | loadTable => exact Nat.lt_succ_of_le (scriptWork_loadTableOps_le _ _)
  | checkTable =>
    rw [orchAct]
    split_ifs
    · exact Nat.lt_succ_of_le (le_max_left _ _)
    · exact Nat.lt_succ_of_le (le_max_right _ _)
  | pipeline =>
    rw [orchAct]
    split_ifs <;> exact Nat.lt_succ_of_le (le_max_left _ _)

/-- An action issues its command, after which the host waits, or leaves less of the script before the next one. -/
theorem hostWork_orchAct_lt {op : OrchOp} {rest : List OrchOp} (hh : s.held = none) (hr : s.response = none) :
    hostWork (orchAct op rest s) < scriptWork (op :: rest) := by
  rcases orchAct_held_cases op rest s with hheld | ⟨c, b, rfl, hheld⟩
  · have hop : ∀ c b, op ≠ .issue c b := by
      rintro c b rfl
      simp [orchAct, hh] at hheld
    have hresponse : (orchAct op rest s).response = none := by cases op <;> exact hr
    rw [hostWork_of_script (hheld.trans hh) hresponse]
    exact scriptWork_orchAct_lt hop rest s
  · rw [hostWork_of_held (by simp [hheld])]
    exact Nat.one_pos

/-- The response that the host takes leaves its script as it is, or ends it (R194). -/
theorem scriptWork_takeResponse_le (r : Response) (s : State) :
    scriptWork (takeResponse r s).orch.script ≤ scriptWork s.orch.script := by
  rw [takeResponse]
  rcases abortOn_cases r (bindResponse s.orch.bind r { s.orch with bind := .discard, log := s.orch.log ++ [r] }) with
    h | ⟨x, info, -, h⟩ <;> rw [h]
  · rw [bindResponse_script]
  · exact Nat.zero_le _

/-- Each step of the host leaves it less to do before it waits for a command. -/
theorem hostWork_orchStep_lt (h : orchReady s = true) : hostWork (orchStep s) < hostWork s := by
  obtain ⟨hh, hready⟩ := (orchReady_iff s).1 h
  cases hr : s.response with
  | some r =>
    have hwork : hostWork s = 1 + scriptWork s.orch.script := by simp [hostWork, hh, hr]
    rw [orchStep_of_response hr, hostWork_of_script (by simpa using hh) (by simp), hwork, Nat.add_comm]
    exact Nat.lt_succ_of_le (scriptWork_takeResponse_le r s)
  | none =>
    obtain ⟨op, rest, hs⟩ := List.exists_cons_of_ne_nil (hready.resolve_left (· hr))
    rw [orchStep_of_script hr hs, hostWork_of_script hh hr, hs]
    exact hostWork_orchAct_lt hh hr

/-! ## The steps of a RUNNING block (R102, R162, R190, R225) -/

/-- A work-item that does not fault leaves PEND (R102, R162). -/
theorem jobWork_afterWorkItem_lt {i : Nat} {m : Memory} (h : Inv s) (hp : i ∈ s.pend) :
    jobWork (afterWorkItem i m s) < jobWork s := by
  have hlength := length_filter_ne_of_mem h.pendingIsSet hp
  have hhost : hostWork (afterWorkItem i m s) = hostWork s := rfl
  rw [jobWork, jobWork, hhost, afterWorkItem]
  dsimp only
  omega

/-- A pending work-item has its step. -/
theorem stepWorkItem_exists_next {i : Nat} (h : Inv s) (hst : s.st = .running) (hp : i ∈ s.pend) :
    ∃ t, stepWorkItem i s = .next t := by
  obtain ⟨-, hkind⟩ := h.runningSealsInput hst
  cases hk : s.jobctl with
  | none => exact absurd hk hkind
  | hist => exact ⟨_, stepWorkItem_hist hst hk hp (h.pend_lt hp)⟩
  | enc => exact ⟨_, stepWorkItem_enc hst hk hp (h.pend_lt hp)⟩

/-- Every enabled step of a RUNNING block has a next state, and ends the job or leaves less to do before its end. -/
theorem act_of_running {a : Action} (h : Inv s) (hst : s.st = .running) (ha : a ∈ enabledActions s) :
    ∃ t, act a s = .next t ∧ (t.st = .running → jobWork t < jobWork s) := by
  rcases mem_enabledActions_iff.1 ha with ⟨-, hjob⟩ | ⟨hne, -⟩ | ⟨hready, rfl⟩
  · rcases mem_jobActions_iff.1 hjob with ⟨-, i, hp, rfl⟩ | ⟨-, rfl⟩ | rfl
    · obtain ⟨t, ht⟩ := stepWorkItem_exists_next h hst hp
      refine ⟨t, ht, fun hrun => ?_⟩
      obtain ⟨m, -, rfl⟩ := (stepWorkItem_running_iff h hst hp).1 ⟨ht, hrun⟩
      exact jobWork_afterWorkItem_lt h hp
    · exact ⟨_, rfl, by simp⟩
    · exact ⟨_, rfl, by simp [failJob]⟩
  · exact absurd hst hne
  · refine ⟨_, rfl, fun _ => ?_⟩
    have hpend : (orchStep s).pend = s.pend := by
      obtain ⟨orch, held, ho⟩ := orchStep_eq s
      rw [ho]
    rw [jobWork, jobWork, hpend]
    exact Nat.add_lt_add_left (hostWork_orchStep_lt hready) _

/-- The same of the machine's step: the choice of the schedule that it uses up is no work of the job. -/
theorem step_of_running (h : Inv s) (hst : s.st = .running) :
    ∃ t, step s = .next t ∧ (t.st = .running → jobWork t < jobWork s) := by
  cases he : enabledActions s with
  | nil => exact absurd hst ((enabledActions_eq_nil_iff s).1 he).1
  | cons a as =>
    have hpick : pickAction a as s ∈ enabledActions s := he ▸ pickAction_mem a as s
    rw [step_of_enabledActions h.configuration he, chooseAction, dropChoice_eq]
    split
    · exact act_of_running h hst hpick
    · exact act_of_running (h.withEnv _) hst hpick

/-! ## The end of a job (R190, R277) -/

/-- The host's interface runs the model's own step. -/
theorem core_step (s : State) : Sys2Proof.core.step s = step s := rfl

theorem run_succ_eq_next_iff {k : Nat} :
    Host.Core.run Sys2Proof.core (k + 1) s = .next t ↔
      ∃ u, step s = .next u ∧ Host.Core.run Sys2Proof.core k u = .next t := by
  simp only [Host.Core.run, core_step]
  cases step s <;> simp

/-- A job ends within its work, and a command held meanwhile is still held then (R182). -/
theorem job_ends (h : Inv s) (hst : s.st = .running) :
    ∃ k ≤ jobWork s, ∃ t, Host.Core.run Sys2Proof.core k s = .next t ∧ t.st ≠ .running ∧
      (s.held ≠ none → t.held = s.held) := by
  induction hn : jobWork s using Nat.strong_induction_on generalizing s with
  | _ n ih =>
    subst hn
    obtain ⟨u, hstep, hless⟩ := step_of_running h hst
    have hheld : s.held ≠ none → u.held = s.held := fun hh => by
      obtain ⟨c, hc⟩ := Option.ne_none_iff_exists'.1 hh
      obtain ⟨-, hkept⟩ := commandsAreHeldWhileAJobRuns
      exact (hkept s u c hst hc hstep).1.trans hc.symm
    by_cases hrun : u.st = .running
    · obtain ⟨k, hk, t, hruns, ht, hkept⟩ := ih _ (hless hrun) (everyStepKeepsTheInvariant s u h hstep) hrun rfl
      refine ⟨k + 1, hk.trans_lt (hless hrun), t, run_succ_eq_next_iff.2 ⟨u, hstep, hruns⟩, ht, fun hh => ?_⟩
      exact (hkept (hheld hh ▸ hh)).trans (hheld hh)
    · exact ⟨1, jobWork_pos s, u, run_succ_eq_next_iff.2 ⟨u, hstep, rfl⟩, hrun, hheld⟩

/-! ## Executions (R277) -/

/-- Each state of an execution is a launch state, the next state of a step, or the state before it. -/
theorem Execution.inv {e : Nat → State} (he : Execution e) (n : Nat) : Inv (e n) := by
  obtain ⟨hlaunch, hsteps⟩ := he
  induction n with
  | zero => exact launchStatesHaveTheInvariant _ hlaunch
  | succ n ih =>
    rcases hsteps n with hstep | ⟨-, hstays⟩
    · exact everyStepKeepsTheInvariant _ _ ih hstep
    · rwa [hstays]

/-- An execution passes through the states that the machine's run gives. -/
theorem Execution.run {e : Nat → State} (he : Execution e) {k n : Nat}
    (h : Host.Core.run Sys2Proof.core k (e n) = .next t) : e (n + k) = t := by
  obtain ⟨-, hsteps⟩ := he
  induction k generalizing n with
  | zero => exact Host.Outcome.next.inj h
  | succ k ih =>
    obtain ⟨u, hstep, hruns⟩ := run_succ_eq_next_iff.1 h
    obtain rfl : e (n + 1) = u := by
      rcases hsteps n with hnext | ⟨hstops, -⟩
      · exact Host.Outcome.next.inj (hnext.symm.trans hstep)
      · exact absurd hstep (hstops u)
    rw [Nat.add_comm k, ← Nat.add_assoc]
    exact ih hruns

/-- A job of an execution is not RUNNING for ever. -/
theorem Execution.leaves_running {e : Nat → State} (he : Execution e) (n : Nat) : ∃ m, n ≤ m ∧ (e m).st ≠ .running := by
  by_cases hst : (e n).st = .running
  · obtain ⟨k, -, t, hruns, ht, -⟩ := job_ends (he.inv n) hst
    exact ⟨n + k, Nat.le_add_right n k, he.run hruns ▸ ht⟩
  · exact ⟨n, le_rfl, hst⟩

/-- Without a running job at most one step is enabled, the acceptance of the held command or the host's, and the machine
takes it (R182, R194). -/
theorem nextAction_of_not_running {a : Action} (hst : s.st ≠ .running) (ha : a ∈ enabledActions s) :
    nextAction s = some a := by
  have hone : enabledActions s = [a] := by
    rcases mem_enabledActions_iff.1 ha with ⟨hrun, -⟩ | ⟨-, hh, rfl⟩ | ⟨hready, rfl⟩
    · exact absurd hrun hst
    · obtain ⟨c, hc⟩ := Option.ne_none_iff_exists'.1 hh
      exact enabledActions_held hc hst
    · obtain ⟨hh, -⟩ := (orchReady_iff s).1 hready
      simp [enabledActions, hst, hh, hready]
  rw [nextAction, hone]
  rfl

/-- Settles O48: a job ends within its work, and an execution that has left RUNNING takes the one step that is enabled. -/
theorem jobsEndAndExecutionsAreFair : Obligations.JobsEndAndExecutionsAreFair := by
  unfold Obligations.JobsEndAndExecutionsAreFair
  refine ⟨fun s h hst => ?_, fun s h hst hh => ?_, fun e he => ⟨he.leaves_running, fun a _ n => ?_⟩⟩
  · obtain ⟨k, hk, t, hruns, ht, -⟩ := job_ends h hst
    exact ⟨k, hk.trans (jobWork_le s), t, hruns, ht⟩
  · obtain ⟨k, hk, t, hruns, ht, hheld⟩ := job_ends h hst
    rw [jobWork, hostWork_of_held hh] at hk
    exact ⟨k, hk, t, hruns, ht, hheld hh⟩
  · obtain ⟨m, hm, hst⟩ := he.leaves_running n
    exact ⟨m, hm, or_iff_not_imp_left.2 fun ha => nextAction_of_not_running hst (not_not.1 ha)⟩

end Sys2Proof.Machine
end
